-- ==== Sys2Proof/Word.lean ====
section
/-!
DEFINITION. The bit patterns of the block: bytes of MEM and the three register widths of `spec/10_state.md` rule R54.
Bit 0 is the least significant bit (`spec/00_scope.md` rule R9).
-/

namespace Sys2Proof

/-- One byte of MEM (rule R70). -/
abbrev Byte := BitVec 8

/-- A 16-bit register: `IMG_DEPTH` (rule R44). -/
abbrev Half := BitVec 16

/-- A 32-bit register or a command word (rules R54, R101). -/
abbrev Word := BitVec 32

/-- A 64-bit register: `WDATA`, `RDATA` (rule R32). -/
abbrev DWord := BitVec 64

end Sys2Proof
end

