-- ==== Sys2Proof/Syntax.lean ====
section
/-!
DEFINITION. The thirty commands of `spec/30_encoding.md` rule R102, in the order of `spec/opcode_table.json`, with the operands
the assembler syntax of rule R108 gives them: a slot number `c` (format C) or an arrangement code `a` (format A). An operand is
the number as written; `WellFormed.lean` says which numbers the command word can hold.
-/

namespace Sys2Proof

/-- One constructor per row of the opcode table. -/
inductive Instr where
  /-- NOP, rule R121. -/
  | nop
  /-- ERRCLR, rule R122. -/
  | errclr
  /-- ADDR c, rule R132. -/
  | addr (c : Nat)
  /-- LDS c, rule R133. -/
  | lds (c : Nat)
  /-- STS c, rule R134. -/
  | sts (c : Nat)
  /-- TYPEOF c, rule R131. -/
  | typeof (c : Nat)
  /-- MADDR c, rule R142. -/
  | maddr (c : Nat)
  /-- LDM c, rule R143. -/
  | ldm (c : Nat)
  /-- BPOS a, rule R153. -/
  | bpos (a : Nat)
  /-- BPARSE, rule R154. -/
  | bparse
  /-- C2P, rule R252. -/
  | c2p
  /-- C2PS a, rule R253. -/
  | c2ps (a : Nat)
  /-- P2C, rule R255. -/
  | p2c
  /-- P2CS a, rule R256. -/
  | p2cs (a : Nat)
  /-- C2Y a, rule R258. -/
  | c2y (a : Nat)
  /-- Y2C a, rule R259. -/
  | y2c (a : Nat)
  /-- RCT.F, rule R186. -/
  | rctF
  /-- RCT.I, rule R187. -/
  | rctI
  /-- RCTD.F, rule R189. -/
  | rctdF
  /-- RCTD.I, rule R190. -/
  | rctdI
  /-- RCTX.F a, rule R228. -/
  | rctxF (a : Nat)
  /-- RCTX.I a, rule R229. -/
  | rctxI (a : Nat)
  /-- YCGCO.F, rule R192. -/
  | ycgcoF
  /-- YCGCO.I, rule R193. -/
  | ycgcoI
  /-- YCGCOD.F, rule R195. -/
  | ycgcodF
  /-- YCGCOD.I, rule R196. -/
  | ycgcodI
  /-- YDGCOCGX.F a, rule R232. -/
  | ydgcocgxF (a : Nat)
  /-- YDGCOCGX.I a, rule R233. -/
  | ydgcocgxI (a : Nat)
  /-- RCT422.F, rule R199. -/
  | rct422F
  /-- RCT422.I, rule R200. -/
  | rct422I
deriving DecidableEq, Repr

end Sys2Proof
end

