-- ==== Sys2Proof/WellFormed.lean ====
section
/-!
DEFINITION. Which terms of `Instr` the command word can hold: a slot number is a 2-bit `COMP` (rule R104: all of 0..3 are legal)
and an arrangement code a 4-bit `ARR` (rule R103: 0..15 can be written, 4..15 decode and then raise `UnknownArrangement`).
-/

namespace Sys2Proof

/-- `COMP` is bits 13:12 of the word (rule R104). -/
def slotNumberFits (c : Nat) : Bool := c < 4

/-- `ARR` is bits 11:8 of the word (rule R103). -/
def arrCodeFits (a : Nat) : Bool := a < 16

/-- Every operand fits its field of the command word (rules R101, R106). -/
def Instr.wellFormed : Instr → Bool
  | .nop | .errclr | .bparse | .c2p | .p2c => true
  | .rctF | .rctI | .rctdF | .rctdI => true
  | .ycgcoF | .ycgcoI | .ycgcodF | .ycgcodI | .rct422F | .rct422I => true
  | .addr c | .lds c | .sts c | .typeof c | .maddr c | .ldm c => slotNumberFits c
  | .bpos a | .c2ps a | .p2cs a | .c2y a | .y2c a => arrCodeFits a
  | .rctxF a | .rctxI a | .ydgcocgxF a | .ydgcocgxI a => arrCodeFits a

end Sys2Proof
end

