-- ==== Sys2Proof/Decode.lean ====
section
/-!
DEFINITION. The command word (`spec/30_encoding.md`): its fields, the opcode map of rule R102 as a table, the decoder of rule
R100 step 2, and the encoder of rule R108. The decoder is total on all 32-bit words; a word is never in MEM (rule R87), it reaches
the sequencer as the value of a `RegWrite(CMD, w)`, so there is no byte order of words to model.
-/

namespace Sys2Proof

/-- The three formats of rule R106. -/
inductive Format where
  /-- uses no field but `OPCODE` -/
  | z
  /-- uses `COMP` -/
  | c
  /-- uses `ARR` -/
  | a
deriving DecidableEq, Repr

/-- Why a word is no command (rule R107). Both are reported as `IllegalCommand` (DESIGN CHOICE, log entry 13). -/
inductive DecodeError where
  /-- no row of rule R102 has this `OPCODE` -/
  | noSuchOpcode
  /-- the `OPCODE` is in the table, but a field its format does not use, or one of bits 31:14, is not 0 -/
  | nonZeroField
deriving DecidableEq, Repr

/-- One row of the opcode map of rule R102: `match` (here `pattern`), the format that gives the mask, and the command made from
the fields `ARR` and `COMP`. -/
structure Row where
  pattern : Word
  format : Format
  build : (arr comp : Nat) → Instr

/-- The masks of rule R106. -/
def Format.mask : Format → Word
  | .z => 0xFFFFFFFF#32
  | .c => 0xFFFFCFFF#32
  | .a => 0xFFFFF0FF#32

/-- `OPCODE`, bits 7:0 (rule R101). -/
def opcodeField (w : Word) : Word := w &&& 0xFF#32

/-- `ARR`, bits 11:8, unsigned (rule R103). -/
def arrField (w : Word) : Nat := (w.extractLsb' 8 4).toNat

/-- `COMP`, bits 13:12, unsigned (rule R104). -/
def compField (w : Word) : Nat := (w.extractLsb' 12 2).toNat

/-- The sequencer, accessor and arrangement rows of rule R102. -/
def unitRows : List Row :=
  [ ⟨0x00#32, .z, fun _ _ => .nop⟩,
    ⟨0x01#32, .z, fun _ _ => .errclr⟩,
    ⟨0x10#32, .c, fun _ c => .addr c⟩,
    ⟨0x11#32, .c, fun _ c => .lds c⟩,
    ⟨0x12#32, .c, fun _ c => .sts c⟩,
    ⟨0x13#32, .c, fun _ c => .typeof c⟩,
    ⟨0x14#32, .c, fun _ c => .maddr c⟩,
    ⟨0x15#32, .c, fun _ c => .ldm c⟩,
    ⟨0x20#32, .a, fun a _ => .bpos a⟩,
    ⟨0x21#32, .z, fun _ _ => .bparse⟩ ]

/-- The layout converter rows of rule R102. -/
def layoutRows : List Row :=
  [ ⟨0x30#32, .z, fun _ _ => .c2p⟩,
    ⟨0x31#32, .a, fun a _ => .c2ps a⟩,
    ⟨0x32#32, .z, fun _ _ => .p2c⟩,
    ⟨0x33#32, .a, fun a _ => .p2cs a⟩,
    ⟨0x34#32, .a, fun a _ => .c2y a⟩,
    ⟨0x35#32, .a, fun a _ => .y2c a⟩ ]

/-- The lifting engine rows of rule R102: bit 0 of `OPCODE` is the direction. -/
def liftingRows : List Row :=
  [ ⟨0x40#32, .z, fun _ _ => .rctF⟩,
    ⟨0x41#32, .z, fun _ _ => .rctI⟩,
    ⟨0x42#32, .z, fun _ _ => .rctdF⟩,
    ⟨0x43#32, .z, fun _ _ => .rctdI⟩,
    ⟨0x44#32, .a, fun a _ => .rctxF a⟩,
    ⟨0x45#32, .a, fun a _ => .rctxI a⟩,
    ⟨0x46#32, .z, fun _ _ => .ycgcoF⟩,
    ⟨0x47#32, .z, fun _ _ => .ycgcoI⟩,
    ⟨0x48#32, .z, fun _ _ => .ycgcodF⟩,
    ⟨0x49#32, .z, fun _ _ => .ycgcodI⟩,
    ⟨0x4A#32, .a, fun a _ => .ydgcocgxF a⟩,
    ⟨0x4B#32, .a, fun a _ => .ydgcocgxI a⟩,
    ⟨0x4C#32, .z, fun _ _ => .rct422F⟩,
    ⟨0x4D#32, .z, fun _ _ => .rct422I⟩ ]

/-- The opcode map of rule R102. -/
def opcodeTable : List Row := unitRows ++ layoutRows ++ liftingRows

/-- `(w & mask) = match` (rule R100 step 2). -/
def Row.accepts (r : Row) (w : Word) : Bool := w &&& r.format.mask == r.pattern

/-- Rule R100 step 2: the row of rule R102 that accepts the word, or why there is none (rule R107). -/
def decodeWord (w : Word) : Except DecodeError Instr :=
  match opcodeTable.find? (fun r => r.accepts w) with
  | some r => .ok (r.build (arrField w) (compField w))
  | none =>
    if opcodeTable.any (fun r => r.pattern == opcodeField w) then .error .nonZeroField else .error .noSuchOpcode

/-- A word of format A: `OPCODE | ARR << 8` (rule R108). -/
def wordA (opcode : Word) (a : Nat) : Word := opcode ||| (BitVec.ofNat 32 a <<< 8)

/-- A word of format C: `OPCODE | COMP << 12` (rule R108). -/
def wordC (opcode : Word) (c : Nat) : Word := opcode ||| (BitVec.ofNat 32 c <<< 12)

/-- The command word of a well-formed command (rules R102, R108). -/
def encode : Instr → Word
  | .nop => 0x00#32
  | .errclr => 0x01#32
  | .addr c => wordC 0x10#32 c
  | .lds c => wordC 0x11#32 c
  | .sts c => wordC 0x12#32 c
  | .typeof c => wordC 0x13#32 c
  | .maddr c => wordC 0x14#32 c
  | .ldm c => wordC 0x15#32 c
  | .bpos a => wordA 0x20#32 a
  | .bparse => 0x21#32
  | .c2p => 0x30#32
  | .c2ps a => wordA 0x31#32 a
  | .p2c => 0x32#32
  | .p2cs a => wordA 0x33#32 a
  | .c2y a => wordA 0x34#32 a
  | .y2c a => wordA 0x35#32 a
  | .rctF => 0x40#32
  | .rctI => 0x41#32
  | .rctdF => 0x42#32
  | .rctdI => 0x43#32
  | .rctxF a => wordA 0x44#32 a
  | .rctxI a => wordA 0x45#32 a
  | .ycgcoF => 0x46#32
  | .ycgcoI => 0x47#32
  | .ycgcodF => 0x48#32
  | .ycgcodI => 0x49#32
  | .ydgcocgxF a => wordA 0x4A#32 a
  | .ydgcocgxI a => wordA 0x4B#32 a
  | .rct422F => 0x4C#32
  | .rct422I => 0x4D#32

/-- The instruction the decoder reads from an instruction whose bits are `w` (bit 0 the least significant bit of the word), every
bit at or above `nbits` being 0. Every command is one 32-bit word (rule R101). -/
def decodeTableWord (nbits w : Nat) : Option Instr :=
  match decodeWord (BitVec.ofNat 32 (w % 2 ^ nbits)) with
  | .ok i => some i
  | .error _ => none

end Sys2Proof
end

