-- ==== Sys2Proof/Machine/Arith.lean ====
section
/-!
DEFINITION. The integer arithmetic of `spec/00_scope.md` rules R7 to R11: unbounded integers, floor shifts, legal ranges, `clamp`
and `wrap`.
-/

namespace Sys2Proof.Machine

/-- `asr(v, k) = floor(v / 2^k)` (rule R8). Integer division by a positive number is the floor. -/
def asr (v : Int) (k : Nat) : Int := v / 2 ^ k

/-- `lo(s, n)` (rule R10). -/
def lo (s : Bool) (n : Nat) : Int := if s then -(2 ^ (n - 1)) else 0

/-- `hi(s, n)` (rule R10). -/
def hi (s : Bool) (n : Nat) : Int := if s then 2 ^ (n - 1) - 1 else 2 ^ n - 1

/-- A legal sample value of a component with flags `(s, n)` (rule R10). -/
abbrev legal (s : Bool) (n : Nat) (v : Int) : Prop := lo s n ≤ v ∧ v ≤ hi s n

/-- `clamp(v, s, n)` (rule R11). -/
def clamp (v : Int) (s : Bool) (n : Nat) : Int :=
  if v < lo s n then lo s n else if hi s n < v then hi s n else v

/-- `wrap(v, s, n)` (rule R11): the one legal integer congruent to `v` modulo `2^n`. -/
def wrap (v : Int) (s : Bool) (n : Nat) : Int :=
  let r := v % 2 ^ n
  if hi s n < r then r - 2 ^ n else r

/-- `ww_m(v) = wrap(v, 1, m)` (rule R11). -/
def ww (m : Nat) (v : Int) : Int := wrap v true m

end Sys2Proof.Machine
end

