-- ==== Sys2Proof/Config.lean ====
section
/-!
DEFINITION. The implementation parameters of `spec/00_scope.md` rule R6 that the model fixes. `NSLOT = 4` is the shape of
`Machine.Quad`, `AW = 32` and `CMDW = 32` are the width of `Word`. The OPEN parameter `MEM_SIZE` is the field `memLast` of the
state, so that every statement about every state speaks of every size; only the value it has in `State.reset` stands here. The two
constants without a body are free: nothing can be proved of their values, so a statement holds for every value.
-/

namespace Sys2Proof.Config

/-- The highest address of MEM in `State.reset`: `MEM_SIZE = 0x10000`, the size of every vector of `spec/95_test_vectors.md`.
DESIGN CHOICE, log entry 3: rule R6 leaves the size OPEN; unsafe if a statement rests on it, and none does. -/
def resetMemLast : Word := 0xFFFF#32

/-- What a byte of MEM that is not listed reads as. DESIGN CHOICE, log entry 4: rule R311 leaves the contents of MEM after reset
unspecified; unsafe if a statement rests on it, and none does. Any other `MEM_INIT` is a memory that lists its nonzero bytes. -/
def unlistedByte : Byte := 0#8

/-- Which of two rules a layout command follows for an integer sample outside the legal range of its component: `true` is rule R251
(`spec/46_layout.md`: "bits above `DEPTH` are kept"), `false` is rule R170 (`spec/43_conversion_common.md`: "always leaves legal
samples"). The rules differ and `spec/90_conflicts.md` rules on neither, so it is left free. DESIGN CHOICE, log entry 15; safe. -/
opaque layoutKeepsIllegalSamples : Bool

/-- Under rule R170, what a layout command makes of a sample outside the legal range of the flags `(signed, depth)`, before it is
brought into that range: no rule of a layout command names the `wrap` or `clamp`. DESIGN CHOICE, log entry 15; safe. -/
opaque layoutLegalSample (signed : Bool) (depth : Nat) (v : Int) : Int

end Sys2Proof.Config
end

