-- ==== Sys2Proof/Machine/State.lean ====
section
/-!
DEFINITION. The whole state of the block (`spec/10_state.md` rule R30) and its reset values (rules R55, R310), beside the model's
three own fields: the size of MEM, the host's further actions, and the values the host's reads returned.
-/

namespace Sys2Proof.Machine

/-- Four like things: the component slots `C0 .. C3` (rules R36, R45), the bases `OUT_BASE0 .. OUT_BASE3` (rule R48), and the
four phases or four samples of a cell (rule R17). -/
structure Quad (α : Type) where
  i0 : α
  i1 : α
  i2 : α
  i3 : α
deriving DecidableEq, Repr

/-- The entry with index `i` in 0..3. Only those indices exist (rules R104, R48); DESIGN CHOICE, log entry 9. -/
def Quad.get {α : Type} (q : Quad α) : Nat → α
  | 0 => q.i0
  | 1 => q.i1
  | 2 => q.i2
  | _ => q.i3

/-- The entry with index `i` in 0..3 replaced. -/
def Quad.set {α : Type} (q : Quad α) : Nat → α → Quad α
  | 0, v => { q with i0 := v }
  | 1, v => { q with i1 := v }
  | 2, v => { q with i2 := v }
  | _, v => { q with i3 := v }

/-- The six registers of a component slot (rules R36 to R43). -/
structure Slot where
  /-- `C<c>_BASE`, rule R37 -/
  base : Word
  /-- `C<c>_BPP`, rule R38 -/
  bpp : Word
  /-- `C<c>_BPR`, rule R39 -/
  bpr : Word
  /-- `C<c>_W`, rule R40 -/
  w : Word
  /-- `C<c>_H`, rule R41 -/
  h : Word
  /-- `C<c>_FMT`, rule R43 -/
  fmt : Word
deriving DecidableEq, Repr

/-- The slot whose six registers are 0: its reset value (rule R310) and its value after a commit that does not fill it (rule R166). -/
def Slot.zero : Slot := ⟨0#32, 0#32, 0#32, 0#32, 0#32, 0#32⟩

/-- MEM (rule R70): the listed bytes, by address. An unlisted byte reads as `Config.unlistedByte`. -/
abbrev Memory := List Host.Cell

/-- The one canonical form of MEM: addresses strictly rising, and no entry equal to what an unlisted address reads as. -/
abbrev Memory.wf (m : Memory) : Prop :=
  m.Pairwise (fun p q => p.1 < q.1) ∧ ∀ p ∈ m, p.2 ≠ Config.unlistedByte

/-- What the host does between commands (rules R31, R84, R310). Writing `CMD` issues a command (rule R51). -/
inductive HostAction where
  /-- `RegRead(num)`, rule R31 -/
  | regRead (num : Nat)
  /-- `RegWrite(num, v)`, rule R31; a negative `v` stands for its two's complement pattern, DEDUCED, log entry 10 -/
  | regWrite (num : Nat) (v : Int)
  /-- `HostMemRead(a, k)`, rule R84 -/
  | memRead (a k : Nat)
  /-- `HostMemWrite(a, k, v)`, rule R84 -/
  | memWrite (a k : Nat) (v : Int)
  /-- the one reset of the block, rule R310 -/
  | reset
deriving DecidableEq, Repr

/-- The state of the block (rule R30) and, last, the model's own fields `memLast`, `host` and `replies`. `CMD` holds nothing
(rule R51), so it has no field. -/
structure State where
  /-- MEM, rule R70 -/
  mem : Memory
  /-- `X`, rule R32 -/
  x : Word
  /-- `Y`, rule R32 -/
  y : Word
  /-- `WDATA`, rule R32 -/
  wdata : DWord
  /-- `RDATA`, rule R32 -/
  rdata : DWord
  /-- `RADDR`, rule R32 -/
  raddr : Word
  /-- `STATUS`, rule R35: bit 0 is `DONE`, bit 1 is `ERR` -/
  status : Word
  /-- `ERR`, rule R52: the code of the recorded error -/
  err : Word
  /-- `ERRINFO`, rule R53: the command word that recorded the error -/
  errinfo : Word
  /-- `CTRL`, rule R49: bit 0 is `CS` -/
  ctrl : Word
  /-- `IMG_W`, rule R44 -/
  imgW : Word
  /-- `IMG_H`, rule R44 -/
  imgH : Word
  /-- `IMG_DEPTH`, rule R44 -/
  imgDepth : Half
  /-- `C0 .. C3`, rules R37 to R43 -/
  slots : Quad Slot
  /-- `OUT_BASE0 .. OUT_BASE3`, rule R48 -/
  outBase : Quad Word
  /-- The model's: the highest existing address, so `MEM_SIZE = memLast + 1` (rule R6: 1 to 2^32, OPEN). No step writes it. -/
  memLast : Word
  /-- The model's: the host's further actions, the next one first (rule R34: they are state of the host). -/
  host : List HostAction
  /-- The model's: the values the host's reads returned (rules R31, R84), the newest first. -/
  replies : List Nat
deriving DecidableEq, Repr

/-- `MEM_SIZE` (rule R6). -/
def State.memSize (s : State) : Nat := s.memLast.toNat + 1

/-- The eight errors of rule R281. -/
inductive ErrorKind where
  | invalidDimensions
  | inconsistentComponents
  | unsupportedSampleType
  | unknownArrangement
  | unsupportedBitDepth
  | outOfRange
  | bufferOverlap
  | illegalCommand
deriving DecidableEq, Repr

/-- Why the model stops with a fault. A recorded error of rule R281 is no fault: it is a next state. -/
inductive Fault where
  /-- Raised by a host memory action (never by a command) whose bytes are not `k >= 1` bytes inside MEM, for which rule R84 gives
  no meaning. Safe: nothing is claimed of what follows. DESIGN CHOICE, log entry 6. -/
  | hostActionOutsideMem
deriving DecidableEq, Repr

/-- Why the model has no meaning for an instruction. -/
inductive Refusal where
  /-- Raised only by an arm of `exec` for an instruction without a meaning; there is none. Safe. -/
  | notModelled (mnemonic : String)
deriving DecidableEq, Repr

/-- The state after reset with the two OPEN parameters of rule R6 as arguments, `MEM_SIZE = memLast + 1` and `MEM_INIT` the bytes
`mem` holds: every register 0 (rules R55, R310), and a host that has done nothing. -/
def State.resetWith (memLast : Word) (mem : Memory) : State where
  mem := mem
  x := 0#32
  y := 0#32
  wdata := 0#64
  rdata := 0#64
  raddr := 0#32
  status := 0#32
  err := 0#32
  errinfo := 0#32
  ctrl := 0#32
  imgW := 0#32
  imgH := 0#32
  imgDepth := 0#16
  slots := ⟨Slot.zero, Slot.zero, Slot.zero, Slot.zero⟩
  outBase := ⟨0#32, 0#32, 0#32, 0#32⟩
  memLast := memLast
  host := []
  replies := []

/-- The machine right after reset (rule R310), nothing of MEM listed; DESIGN CHOICE, log entries 1 to 4. -/
def State.reset : State := State.resetWith Config.resetMemLast []

end Sys2Proof.Machine
end

