-- ==== Sys2Proof/Machine/Flags.lean ====
section
/-!
DEFINITION. The two flags of the block, in `STATUS` (`spec/10_state.md` rule R35). There are no arithmetic condition codes.
-/

namespace Sys2Proof.Machine

/-- `STATUS.DONE`, bit 0 (rule R35). -/
def doneFlag (status : Word) : Bool := status.getLsbD 0

/-- `STATUS.ERR`, bit 1 (rule R35). -/
def errFlag (status : Word) : Bool := status.getLsbD 1

/-- `DONE` set, the other bits kept: what completing does to `STATUS` (rules R35, R318). -/
def statusDone (status : Word) : Word := status ||| 1#32

/-- `ERR` set and `DONE` cleared: what error entry does to `STATUS` (rule R290). -/
def statusError (status : Word) : Word := (status ||| 2#32) &&& ~~~1#32

/-- `ERR` cleared and `DONE` set: what ERRCLR does to `STATUS` (rule R122). -/
def statusCleared (status : Word) : Word := (status &&& ~~~2#32) ||| 1#32

end Sys2Proof.Machine
end

