-- ==== Sys2Proof/Machine/Ops.lean ====
section
/-!
DEFINITION. The named operations over memory and registers: bytes and little-endian words of MEM (`spec/00_scope.md` rule R13,
`spec/20_memory.md` rule R73), the host's register interface (`spec/10_state.md` rules R31 to R54), completing a command, error
entry (`spec/60_exceptions.md` rule R290) and the return from it (rule R122), and reset (rule R310).
-/

namespace Sys2Proof.Machine

/-! ### MEM -/

/-- One byte of MEM. -/
def memGet : Memory → Nat → Byte
  | [], _ => Config.unlistedByte
  | p :: m, a => if p.1 = a then p.2 else memGet m a

/-- The memory with address `a` unlisted. -/
def memErase (m : Memory) (a : Nat) : Memory := m.filter (fun p => p.1 != a)

/-- A new entry put before the first higher address. -/
def memInsert : Memory → Nat → Byte → Memory
  | [], a, v => [(a, v)]
  | p :: m, a, v => if a < p.1 then (a, v) :: p :: m else p :: memInsert m a v

/-- One byte of MEM written; writing what an unlisted address reads as unlists the address. -/
def memSet (m : Memory) (a : Nat) (v : Byte) : Memory :=
  if v = Config.unlistedByte then memErase m a else memInsert (memErase m a) a v

/-- `MemRead(a, k)` (rule R13): the `k` bytes from `a` on, little-endian, as an unsigned number. -/
def memRead (m : Memory) (a : Nat) : Nat → Nat
  | 0 => 0
  | k + 1 => (memGet m a).toNat + 256 * memRead m (a + 1) k

/-- `MemWrite(a, k, v)` (rule R13) of a natural number: its low `8k` bits, the lowest byte at `a`. -/
def memWriteNat (m : Memory) (a : Nat) : Nat → Nat → Memory
  | 0, _ => m
  | k + 1, v => memWriteNat (memSet m a (BitVec.ofNat 8 v)) (a + 1) k (v / 256)

/-- `MemWrite(a, k, v)` (rule R13): the low `8k` bits of `v`, that is `v mod 2^(8k)` (rule R79). -/
def memWrite (m : Memory) (a k : Nat) (v : Int) : Memory := memWriteNat m a k (v % 2 ^ (8 * k)).toNat

/-- All `k` bytes from `a` on exist: `0 <= a` and `a + k <= MEM_SIZE` (rule R77). -/
def inMem (s : State) (a : Int) (k : Nat) : Bool := 0 ≤ a ∧ a + k ≤ s.memSize

/-! ### Registers by number -/

/-- The six registers of a slot in the order of their numbers `0x20 + 8c ..` (rules R37 to R43). -/
inductive SlotField where
  | base
  | bpp
  | bpr
  | w
  | h
  | fmt
deriving DecidableEq, Repr

/-- The registers of the map of rule R54. -/
inductive Reg where
  | cmd
  | status
  | err
  | errinfo
  | ctrl
  | x
  | y
  | wdata
  | rdata
  | raddr
  | imgW
  | imgH
  | imgDepth
  | slot (c : Nat) (f : SlotField)
  | outBase (i : Nat)
deriving DecidableEq, Repr

/-- The register at offset `k` of a slot's eight numbers; two numbers are not assigned (rule R42). -/
def slotFieldOf : Nat → Option SlotField
  | 0 => some .base
  | 1 => some .bpp
  | 2 => some .bpr
  | 3 => some .w
  | 4 => some .h
  | 5 => some .fmt
  | _ => none

/-- The register map of rule R54; `none` for a number it does not assign. -/
def regOf (num : Nat) : Option Reg :=
  if num < 0x20 then
    match num with
    | 0x00 => some .cmd
    | 0x01 => some .status
    | 0x02 => some .err
    | 0x03 => some .errinfo
    | 0x04 => some .ctrl
    | 0x08 => some .x
    | 0x09 => some .y
    | 0x0A => some .wdata
    | 0x0B => some .rdata
    | 0x0C => some .raddr
    | 0x10 => some .imgW
    | 0x11 => some .imgH
    | 0x12 => some .imgDepth
    | _ => none
  else if num < 0x40 then (slotFieldOf ((num - 0x20) % 8)).map (.slot ((num - 0x20) / 8))
  else if num < 0x44 then some (.outBase (num - 0x40))
  else none

/-- One register of a slot. -/
def Slot.getField (d : Slot) : SlotField → Word
  | .base => d.base
  | .bpp => d.bpp
  | .bpr => d.bpr
  | .w => d.w
  | .h => d.h
  | .fmt => d.fmt

/-- `FMT` keeps no reserved bit: bits 15:11 of a written value are ignored (rule R43). -/
def fmtWritten (v : Word) : Word := v &&& 0xFFFF07FF#32

/-- `CTRL` keeps `CS` only (rule R49). -/
def ctrlWritten (v : Word) : Word := v &&& 1#32

/-- One register of a slot written by the host. -/
def Slot.setField (d : Slot) (v : Word) : SlotField → Slot
  | .base => { d with base := v }
  | .bpp => { d with bpp := v }
  | .bpr => { d with bpr := v }
  | .w => { d with w := v }
  | .h => { d with h := v }
  | .fmt => { d with fmt := fmtWritten v }

/-- The value of a register, as the unsigned number its bits spell; `CMD` reads 0 (rule R51). -/
def readReg (s : State) : Reg → Nat
  | .cmd => 0
  | .status => s.status.toNat
  | .err => s.err.toNat
  | .errinfo => s.errinfo.toNat
  | .ctrl => s.ctrl.toNat
  | .x => s.x.toNat
  | .y => s.y.toNat
  | .wdata => s.wdata.toNat
  | .rdata => s.rdata.toNat
  | .raddr => s.raddr.toNat
  | .imgW => s.imgW.toNat
  | .imgH => s.imgH.toNat
  | .imgDepth => s.imgDepth.toNat
  | .slot c f => ((s.slots.get c).getField f).toNat
  | .outBase i => (s.outBase.get i).toNat

/-- A register written by the host: the low bits of `v` (rule R31), read-only registers unchanged (rule R54). Writing `CMD` stores
nothing (rule R51); what it starts is `issue` of `Machine/Sequencer.lean`. -/
def writeReg (s : State) (v : Int) : Reg → State
  | .cmd | .status | .err | .errinfo | .rdata | .raddr => s
  | .ctrl => { s with ctrl := ctrlWritten (BitVec.ofInt 32 v) }
  | .x => { s with x := BitVec.ofInt 32 v }
  | .y => { s with y := BitVec.ofInt 32 v }
  | .wdata => { s with wdata := BitVec.ofInt 64 v }
  | .imgW => { s with imgW := BitVec.ofInt 32 v }
  | .imgH => { s with imgH := BitVec.ofInt 32 v }
  | .imgDepth => { s with imgDepth := BitVec.ofInt 16 v }
  | .slot c f => { s with slots := s.slots.set c ((s.slots.get c).setField (BitVec.ofInt 32 v) f) }
  | .outBase i => { s with outBase := s.outBase.set i (BitVec.ofInt 32 v) }

/-- `RegRead(num)` (rule R31): 0 for an unassigned number. -/
def regRead (s : State) (num : Nat) : Nat :=
  match regOf num with
  | some r => readReg s r
  | none => 0

/-- `RegWrite(num, v)` (rule R31) for a register other than `CMD`: an unassigned number changes nothing. -/
def regWrite (s : State) (num : Nat) (v : Int) : State :=
  match regOf num with
  | some r => writeReg s v r
  | none => s

/-- `CTRL.CS` (rule R49). -/
def State.cs (s : State) : Bool := s.ctrl.getLsbD 0

/-- `C[c]` (rule R12). -/
def State.slot (s : State) (c : Nat) : Slot := s.slots.get c

/-- `OUT[i]`, as a number (rule R12). -/
def State.out (s : State) (i : Nat) : Nat := (s.outBase.get i).toNat

/-! ### Completing, error entry and return -/

/-- The outcome of a step of this machine. -/
abbrev Outcome := Host.Outcome State Fault Refusal

/-- The codes of rule R281. -/
def ErrorKind.code : ErrorKind → Word
  | .invalidDimensions => 1#32
  | .inconsistentComponents => 2#32
  | .unsupportedSampleType => 3#32
  | .unknownArrangement => 4#32
  | .unsupportedBitDepth => 5#32
  | .outOfRange => 6#32
  | .bufferOverlap => 7#32
  | .illegalCommand => 8#32

/-- `x[STATUS].DONE <- 1`: how a command that ends without error ends (rules R35, R318). -/
def complete (s : State) : State := { s with status := statusDone s.status }

/-- Error entry (rule R290): `raise E(w)` writes `ERR`, `ERRINFO` and the two flags, and nothing else. -/
def raised (e : ErrorKind) (w : Word) (s : State) : State :=
  { s with err := e.code, errinfo := w, status := statusError s.status }

/-- A command that ends in the error `e` (rules R15, R290). -/
def raise (e : ErrorKind) (w : Word) (s : State) : Outcome := .next (raised e w s)

/-- The return from the error state (rules R122, R294): nothing is restored, because nothing was saved. -/
def errorCleared (s : State) : State :=
  { s with err := 0#32, errinfo := 0#32, status := statusCleared s.status }

/-- Reset (rule R310) at the host's hand: every register 0. MEM keeps its bytes, which rule R311 allows (DESIGN CHOICE, log
entry 5); the size of MEM and what belongs to the host are no state of the block. -/
def resetBlock (s : State) : State :=
  { State.resetWith s.memLast s.mem with host := s.host, replies := s.replies }

end Sys2Proof.Machine
end

