-- ==== Sys2Proof/Machine/Operands.lean ====
section
/-!
DEFINITION. What a command's operands name: the fields of `FMT` (`spec/10_state.md` rule R43), the element types
(`spec/20_memory.md` rule R74), the address formula (rule R75), the mirror (rule R76), and the sample primitives `Load` and
`Store` (rules R78, R79).
-/

namespace Sys2Proof.Machine

/-! ### The fields of a slot (rules R12, R43) -/

/-- `C[c].DEPTH`, bits 7:0 of `FMT`. -/
def Slot.depth (d : Slot) : Nat := (d.fmt.extractLsb' 0 8).toNat

/-- `C[c].SIGNED`, bit 8 of `FMT`. -/
def Slot.signed (d : Slot) : Bool := d.fmt.getLsbD 8

/-- `C[c].FLOAT`, bit 9 of `FMT`. -/
def Slot.isFloat (d : Slot) : Bool := d.fmt.getLsbD 9

/-- `C[c].OWN`, bit 10 of `FMT` (rule R47): no command's behaviour depends on it. -/
def Slot.own (d : Slot) : Bool := d.fmt.getLsbD 10

/-- `C[c].SUBX`, bits 23:16 of `FMT`. -/
def Slot.subX (d : Slot) : Nat := (d.fmt.extractLsb' 16 8).toNat

/-- `C[c].SUBY`, bits 31:24 of `FMT`. -/
def Slot.subY (d : Slot) : Nat := (d.fmt.extractLsb' 24 8).toNat

/-- `C[c].W` as a number. -/
def Slot.width (d : Slot) : Nat := d.w.toNat

/-- `C[c].H` as a number. -/
def Slot.height (d : Slot) : Nat := d.h.toNat

/-! ### Element types (rule R74) -/

/-- The ten element types. -/
inductive SampleType where
  | int8
  | uint8
  | int16
  | uint16
  | int32
  | uint32
  | int64
  | uint64
  | float32
  | float64
deriving DecidableEq, Repr

/-- The type codes of rule R74. -/
def SampleType.code : SampleType → Nat
  | .int8 => 0
  | .uint8 => 1
  | .int16 => 2
  | .uint16 => 3
  | .int32 => 4
  | .uint32 => 5
  | .int64 => 6
  | .uint64 => 7
  | .float32 => 8
  | .float64 => 9

/-- `K`, the size in bytes (rule R74). -/
def SampleType.bytes : SampleType → Nat
  | .int8 | .uint8 => 1
  | .int16 | .uint16 => 2
  | .int32 | .uint32 | .float32 => 4
  | .int64 | .uint64 | .float64 => 8

/-- Whether `Load` reads the element as a two's complement number (rule R78); a float is its bit pattern. -/
def SampleType.isSigned : SampleType → Bool
  | .int8 | .int16 | .int32 | .int64 => true
  | .uint8 | .uint16 | .uint32 | .uint64 | .float32 | .float64 => false

/-- The table of rule R74 by the flags `FLOAT`, `SIGNED` and `DEPTH`; `none` where no row matches. -/
def elementType (float signed : Bool) (depth : Nat) : Option SampleType :=
  match float, signed with
  | false, true =>
    if depth = 0 then none
    else if depth ≤ 8 then some .int8
    else if depth ≤ 16 then some .int16
    else if depth ≤ 32 then some .int32
    else if depth ≤ 64 then some .int64
    else none
  | false, false =>
    if depth = 0 then none
    else if depth ≤ 8 then some .uint8
    else if depth ≤ 16 then some .uint16
    else if depth ≤ 32 then some .uint32
    else if depth ≤ 64 then some .uint64
    else none
  | true, true =>
    if depth = 32 then some .float32
    else if depth = 64 then some .float64
    else none
  | true, false => none

/-- `etype` of a slot (rule R74). -/
def etype (d : Slot) : Option SampleType := elementType d.isFloat d.signed d.depth

/-- The element type where rule R74 gives one. A conversion command uses it only after class V5 has refused every slot that has
none, and for outputs, whose type always exists (rule R164), so the default is never met; DEDUCED, log
entry 12. -/
def elementTypeD (float signed : Bool) (depth : Nat) : SampleType := (elementType float signed depth).getD .uint8

/-- The element type of a slot that class V5 has accepted. -/
def etypeD (d : Slot) : SampleType := elementTypeD d.isFloat d.signed d.depth

/-- `K(c)` of a slot that class V5 has accepted. -/
def Slot.elemBytes (d : Slot) : Nat := (etypeD d).bytes

/-! ### Addressing -/

/-- `addr(c, x, y)` on unbounded integers (rule R75). -/
def addrOf (d : Slot) (x y : Int) : Int := d.base.toNat + x * d.bpp.toNat + y * d.bpr.toNat

/-- `mirror(i, n)` (rule R76): one reflection, never two. -/
def mirror (i n : Int) : Int := if i < 0 then -i else if n ≤ i then 2 * (n - 1) - i else i

/-- The coordinates `(X, Y)` of a plain lookup (rule R132): any signed values. -/
def plainCoords (s : State) : Int × Int := (s.x.toInt, s.y.toInt)

/-- The coordinates of a mirrored lookup (rules R140, R141); `none` where one reflection leaves a coordinate outside. -/
def mirroredCoords (s : State) (d : Slot) : Option (Int × Int) :=
  let mx := mirror s.x.toInt d.width
  let my := mirror s.y.toInt d.height
  if (0 ≤ mx ∧ mx < d.width) ∧ 0 ≤ my ∧ my < d.height then some (mx, my) else none

/-! ### Samples -/

/-- The value of an element read as `raw` (rule R78): the whole element, sign-extended for int8 .. int64. -/
def elementValue (t : SampleType) (raw : Nat) : Int :=
  if t.isSigned ∧ 2 ^ (8 * t.bytes - 1) ≤ raw then (raw : Int) - 2 ^ (8 * t.bytes) else raw

/-- The element of type `t` at address `a`. -/
def loadAt (m : Memory) (t : SampleType) (a : Nat) : Int := elementValue t (memRead m a t.bytes)

/-- `Load(c, x, y)` (rule R78) of an admitted access. -/
def load (m : Memory) (d : Slot) (x y : Int) : Int := loadAt m (etypeD d) (addrOf d x y).toNat

/-- `Store(c, x, y, v)` (rule R79) of an admitted access. -/
def store (m : Memory) (d : Slot) (x y v : Int) : Memory := memWrite m (addrOf d x y).toNat d.elemBytes v

end Sys2Proof.Machine
end

