-- ==== Sys2Proof/Machine/Accessor.lean ====
section
/-!
DEFINITION. The strided pixel accessor's commands (`spec/41_accessor.md`).
-/

namespace Sys2Proof.Machine

/-- What ADDR, LDS, STS, MADDR and LDM share (rule R130): the element type first, then the coordinates (`none` where the mirror
leaves one outside, rule R141), then the range of the address (rule R77), then the command's own effect on the state, given the
element type and the address. -/
def access (w : Word) (d : Slot) (coords : Option (Int × Int)) (act : SampleType → Nat → State → State) (s : State) : Outcome :=
  match etype d with
  | none => raise .unsupportedSampleType w s
  | some t =>
    match coords with
    | none => raise .outOfRange w s
    | some (x, y) =>
      let a := addrOf d x y
      if inMem s a t.bytes then .next (complete (act t a.toNat s)) else raise .outOfRange w s

/-- `x[RADDR] <- a`. -/
def setAddr (_ : SampleType) (a : Nat) (s : State) : State := { s with raddr := BitVec.ofNat 32 a }

/-- `x[RADDR] <- a`, `x[RDATA] <-` the 64-bit two's complement pattern of the element (rule R133). -/
def loadElement (t : SampleType) (a : Nat) (s : State) : State :=
  { s with raddr := BitVec.ofNat 32 a, rdata := BitVec.ofInt 64 (loadAt s.mem t a) }

/-- The low `K` bytes of `WDATA` stored at `a`, `x[RADDR] <- a` (rule R134). -/
def storeElement (t : SampleType) (a : Nat) (s : State) : State :=
  { s with mem := memWrite s.mem a t.bytes s.wdata.toNat, raddr := BitVec.ofNat 32 a }

/-- TYPEOF c (rule R131). -/
def execTypeof (c : Nat) (s : State) : Outcome :=
  match etype (s.slot c) with
  | none => raise .unsupportedSampleType (encode (.typeof c)) s
  | some t => .next (complete { s with rdata := BitVec.ofNat 64 t.code })

/-- ADDR c (rule R132). -/
def execAddr (c : Nat) (s : State) : Outcome :=
  access (encode (.addr c)) (s.slot c) (some (plainCoords s)) setAddr s

/-- LDS c (rule R133). -/
def execLds (c : Nat) (s : State) : Outcome :=
  access (encode (.lds c)) (s.slot c) (some (plainCoords s)) loadElement s

/-- STS c (rule R134). -/
def execSts (c : Nat) (s : State) : Outcome :=
  access (encode (.sts c)) (s.slot c) (some (plainCoords s)) storeElement s

/-- MADDR c (rule R142). -/
def execMaddr (c : Nat) (s : State) : Outcome :=
  access (encode (.maddr c)) (s.slot c) (mirroredCoords s (s.slot c)) setAddr s

/-- LDM c (rule R143). -/
def execLdm (c : Nat) (s : State) : Outcome :=
  access (encode (.ldm c)) (s.slot c) (mirroredCoords s (s.slot c)) loadElement s

end Sys2Proof.Machine
end

