-- ==== Sys2Proof/Machine/Arrangement.lean ====
section
/-!
DEFINITION. The Bayer arrangement mapper (`spec/42_arrangement.md`): the table of rule R151 and the commands BPOS and BPARSE.
-/

namespace Sys2Proof.Machine

/-- The four arrangements, in the order of their codes (rule R103). -/
inductive Arrangement where
  | grbg
  | rggb
  | gbrg
  | bggr
deriving DecidableEq, Repr

/-- The phase `(px, py)` of a sample in its cell, each 0 or 1 (rule R17). -/
structure Phase where
  x : Fin 2
  y : Fin 2
deriving DecidableEq, Repr

/-- The phases of R, G1 (`g`), G2 (`k`) and B (rule R151). -/
structure Positions where
  r : Phase
  g : Phase
  k : Phase
  b : Phase
deriving DecidableEq, Repr

/-- The arrangement with code `a`; `none` for 4..15 (rule R103). -/
def arrangementOf : Nat → Option Arrangement
  | 0 => some .grbg
  | 1 => some .rggb
  | 2 => some .gbrg
  | 3 => some .bggr
  | _ => none

/-- `pos(a)`, the table of rule R151. -/
def pos : Arrangement → Positions
  | .grbg => { r := ⟨1, 0⟩, g := ⟨0, 0⟩, k := ⟨1, 1⟩, b := ⟨0, 1⟩ }
  | .rggb => { r := ⟨0, 0⟩, g := ⟨1, 0⟩, k := ⟨0, 1⟩, b := ⟨1, 1⟩ }
  | .gbrg => { r := ⟨0, 1⟩, g := ⟨0, 0⟩, k := ⟨1, 1⟩, b := ⟨1, 0⟩ }
  | .bggr => { r := ⟨1, 1⟩, g := ⟨1, 0⟩, k := ⟨0, 1⟩, b := ⟨0, 0⟩ }

/-- `vert(a)`: `gx = bx` (rule R151). -/
def vert (p : Positions) : Bool := p.g.x == p.b.x

/-- The word BPOS returns: `rx | ry<<1 | gx<<2 | gy<<3 | kx<<4 | ky<<5 | bx<<6 | by<<7` (rule R153). -/
def packPositions (p : Positions) : Nat :=
  p.r.x.val + 2 * p.r.y.val + 4 * p.g.x.val + 8 * p.g.y.val
    + 16 * p.k.x.val + 32 * p.k.y.val + 64 * p.b.x.val + 128 * p.b.y.val

/-- The four arrangement strings as `WDATA` holds them: ASCII, first character in bits 7:0 (rule R154). -/
def parseArrangement (wdata : DWord) : Option Nat :=
  if wdata = 0x0000000067627267#64 then some 0
  else if wdata = 0x0000000062676772#64 then some 1
  else if wdata = 0x0000000067726267#64 then some 2
  else if wdata = 0x0000000072676762#64 then some 3
  else none

/-- BPOS a (rule R153). -/
def execBpos (a : Nat) (s : State) : Outcome :=
  match arrangementOf a with
  | none => raise .unknownArrangement (encode (.bpos a)) s
  | some arr => .next (complete { s with rdata := BitVec.ofNat 64 (packPositions (pos arr)) })

/-- BPARSE (rule R154). -/
def execBparse (s : State) : Outcome :=
  match parseArrangement s.wdata with
  | none => raise .unknownArrangement (encode .bparse) s
  | some r => .next (complete { s with rdata := BitVec.ofNat 64 r })

end Sys2Proof.Machine
end

