-- ==== Sys2Proof/Machine/Conversion.lean ====
section
/-!
DEFINITION. What all twenty conversion commands share (`spec/43_conversion_common.md`): planes and cells, the new descriptors of
rule R164, the range and overlap checks V7 and V8 of rule R165, the stores of phase 3 and the commit of rule R166.
-/

namespace Sys2Proof.Machine

/-! ### Planes and cells (rules R16, R17) -/

/-- A plane: a mathematical array of integers, here a function of the coordinates; it lives inside one command (rules R16, R50). -/
abbrev Plane := Int → Int → Int

/-- The phase of a coordinate (rule R17). -/
def phaseOf (x y : Int) : Phase := ⟨if x % 2 = 0 then 0 else 1, if y % 2 = 0 then 0 else 1⟩

/-- The sample of phase `p` of cell `(i, j)`: `P[2i + px, 2j + py]` (rule R17). -/
def cellAt (P : Plane) (p : Phase) (i j : Int) : Int := P (2 * i + p.x.val) (2 * j + p.y.val)

/-- The plane whose cells hold `v00`, `v10`, `v01`, `v11` in raster order (rule R18). -/
def packCells (v00 v10 v01 v11 : Plane) : Plane := fun x y =>
  let i := x / 2
  let j := y / 2
  if y % 2 = 0 then (if x % 2 = 0 then v00 i j else v10 i j) else (if x % 2 = 0 then v01 i j else v11 i j)

/-- The plane whose cells hold `r`, `g`, `k`, `b` at the positions `p` of an arrangement: the four phases tile it (rule R151). -/
def scatter (p : Positions) (r g k b : Plane) : Plane := fun x y =>
  let i := x / 2
  let j := y / 2
  if phaseOf x y = p.r then r i j
  else if phaseOf x y = p.g then g i j
  else if phaseOf x y = p.k then k i j
  else b i j

/-! ### The image a command makes -/

/-- An output component (rule R164): size, `DEPTH`, `SIGNED`, `FLOAT`, subsampling, and the samples `Store`d into it. -/
structure Output where
  w : Nat
  h : Nat
  depth : Nat
  signed : Bool
  float : Bool
  subX : Nat
  subY : Nat
  plane : Plane

/-- What a conversion command does once its own checks V1 to V6 have passed: the slots it reads, the components it makes, and the
nominal size of the new image. -/
structure Conversion where
  inputs : List Slot
  outputs : List Output
  imgW : Nat
  imgH : Nat

/-- `K_i` (rule R164). -/
def Output.elemBytes (o : Output) : Nat := (elementTypeD o.float o.signed o.depth).bytes

/-- `N[i].FMT` (rule R164): `OWN = 1`. -/
def Output.fmt (o : Output) : Word :=
  BitVec.ofNat 32 o.depth ||| (if o.signed then 0x100#32 else 0#32) ||| (if o.float then 0x200#32 else 0#32) ||| 0x400#32
    ||| (BitVec.ofNat 32 o.subX <<< 16) ||| (BitVec.ofNat 32 o.subY <<< 24)

/-- `N[i]` (rule R164): a packed buffer at `OUT_BASE<i>`. -/
def newSlot (base : Word) (o : Output) : Slot where
  base := base
  bpp := BitVec.ofNat 32 o.elemBytes
  bpr := BitVec.ofNat 32 (o.w * o.elemBytes)
  w := BitVec.ofNat 32 o.w
  h := BitVec.ofNat 32 o.h
  fmt := o.fmt

/-- The new descriptors with the samples they receive, for the outputs from index `i` on. -/
def layOut (s : State) (i : Nat) : List Output → List (Slot × Plane)
  | [] => []
  | o :: os => (newSlot (s.outBase.get i) o, o.plane) :: layOut s (i + 1) os

/-! ### V7 and V8 (rules R83, R165) -/

/-- `FP(c)` (rule R83), for `W >= 1` and `H >= 1`. -/
def footprint (d : Slot) : Nat × Nat :=
  (d.base.toNat, d.base.toNat + (d.height - 1) * d.bpr.toNat + (d.width - 1) * d.bpp.toNat + d.elemBytes)

/-- `FPN(i)` of each output from index `i` on (rule R165). -/
def outFootprints (s : State) (i : Nat) : List Output → List (Nat × Nat)
  | [] => []
  | o :: os => (s.out i, s.out i + o.w * o.h * o.elemBytes) :: outFootprints s (i + 1) os

/-- The sizes of an output fit their 32-bit registers (rule R165). -/
def Output.fits (o : Output) : Bool := o.w < 2 ^ 32 && o.h < 2 ^ 32 && o.w * o.elemBytes < 2 ^ 32

/-- Class V7 (rule R165): every footprint lies in MEM and every output size fits 32 bits. -/
def rangeOk (s : State) (c : Conversion) : Bool :=
  c.inputs.all (fun d => (footprint d).2 ≤ s.memSize)
    && c.outputs.all Output.fits
    && (outFootprints s 0 c.outputs).all (fun f => f.2 ≤ s.memSize)

/-- Two half-open intervals share a byte (rule R165). -/
def meets (f g : Nat × Nat) : Bool := f.1 < g.2 && g.1 < f.2

/-- No two of the intervals share a byte. -/
def apart : List (Nat × Nat) → Bool
  | [] => true
  | f :: fs => fs.all (fun g => !meets f g) && apart fs

/-- Class V8 (rule R165): no output footprint meets an input footprint or another output footprint. -/
def overlapFree (s : State) (c : Conversion) : Bool :=
  (outFootprints s 0 c.outputs).all (fun f => c.inputs.all (fun d => !meets f (footprint d)))
    && apart (outFootprints s 0 c.outputs)

/-! ### Phase 3: the stores -/

/-- The samples `(0, y) .. (n - 1, y)` of `P` stored into slot `d`. -/
def storeRow (m : Memory) (d : Slot) (P : Plane) (y : Int) : Nat → Memory
  | 0 => m
  | n + 1 => store (storeRow m d P y n) d n y (P n y)

/-- The rows `0 .. h - 1` of `P`, each of `w` samples, stored into slot `d`. -/
def storePlane (m : Memory) (d : Slot) (P : Plane) (w : Nat) : Nat → Memory
  | 0 => m
  | h + 1 => storeRow (storePlane m d P w h) d P h w

/-- Every output component stored into its new slot. -/
def storeAll (m : Memory) : List (Slot × Plane) → Memory
  | [] => m
  | (d, P) :: r => storeAll (storePlane m d P d.width d.height) r

/-! ### Phase 4: the commit (rule R166) -/

/-- The descriptors after the commit: the new ones, and 0 in the slots the new image does not use. -/
def committedSlots (ds : List Slot) : Quad Slot :=
  ⟨ds.getD 0 Slot.zero, ds.getD 1 Slot.zero, ds.getD 2 Slot.zero, ds.getD 3 Slot.zero⟩

/-- Phases 2 to 4 (rule R160) without the flag: the samples stored, then the image replaced. Every sample is loaded from MEM as it
was when the command began (rule R85): the planes of `c` are functions of that MEM (DEDUCED, log entry 11). -/
def commit (s : State) (c : Conversion) : State :=
  let new := layOut s 0 c.outputs
  { s with
    mem := storeAll s.mem new
    slots := committedSlots (new.map Prod.fst)
    imgDepth := BitVec.ofNat 16 c.outputs.length
    imgW := BitVec.ofNat 32 c.imgW
    imgH := BitVec.ofNat 32 c.imgH }

/-- A conversion command (rules R160, R161, R167): `own` is the first failing check of its classes V2 to V6, then come V7 and V8;
the first failing check raises its error and changes nothing else, and with none failing the command completes. -/
def convert (w : Word) (own : Option ErrorKind) (c : Conversion) (s : State) : Outcome :=
  match own with
  | some e => raise e w s
  | none =>
    if rangeOk s c then
      if overlapFree s c then .next (complete (commit s c)) else raise .bufferOverlap w s
    else raise .outOfRange w s

/-- Class V1 (rule R152): a command of format A with `ARR` in 4..15 raises `UnknownArrangement` before any other check. -/
def withArrangement (w : Word) (a : Nat) (body : Positions → State → Outcome) (s : State) : Outcome :=
  match arrangementOf a with
  | none => raise .unknownArrangement w s
  | some arr => body (pos arr) s

/-! ### Checks several commands share -/

/-- Class V2 (rule R162): `IMG_DEPTH` is the command's component count. -/
def countIs (s : State) (k : Nat) : Bool := s.imgDepth.toNat == k

/-- No size is 0 and all slots have the same `W` and the same `H` (class V3). -/
def sameSizes : List Slot → Bool
  | [] => true
  | d :: ds => d.width != 0 && d.height != 0 && ds.all (fun e => e.width == d.width && e.height == d.height)

/-- All slots have the same `DEPTH`, `SIGNED` and `FLOAT` (class V4). -/
def sameFormats : List Slot → Bool
  | [] => true
  | d :: ds => ds.all (fun e => e.depth == d.depth && e.signed == d.signed && e.isFloat == d.isFloat)

/-- Even sizes other than 0: a CFA plane (class V3). -/
def evenSizes (d : Slot) : Bool := d.width != 0 && d.height != 0 && d.width % 2 == 0 && d.height % 2 == 0

/-- The subsampling fields of a slot (class V4). -/
def subIs (d : Slot) (sx sy : Nat) : Bool := d.subX == sx && d.subY == sy

/-- `etype` exists (class V5). -/
def typed (d : Slot) : Bool := (etype d).isSome

/-- The sizes of a 4:2:2 image (class V3 of rules R197, R259). -/
def sizes422 (c0 c1 c2 : Slot) : Bool :=
  c0.width != 0 && c0.height != 0 && c0.width % 2 == 0
    && c1.width == c0.width / 2 && c2.width == c0.width / 2 && c1.height == c0.height && c2.height == c0.height

/-- The subsampling of a 4:2:2 image (class V4 of rules R197, R259). -/
def subs422 (c0 c1 c2 : Slot) : Bool := subIs c0 1 1 && subIs c1 2 1 && subIs c2 2 1

end Sys2Proof.Machine
end

