-- ==== Sys2Proof/Machine/CfaLifting.lean ====
section
/-!
DEFINITION. The CFA-grid lifting transforms RCTX and YDgCoCgX (`spec/45_lifting_cfa.md`). The passes work on planes of signed
`m`-bit numbers (rule R221); the commands apply them to the one component of a CFA image.
-/

namespace Sys2Proof.Machine

/-! ### Neighbours and passes -/

/-- `diag(P, x, y)` (rule R223): the sum of the four mirrored diagonal neighbours. -/
def diag (W H : Int) (P : Plane) : Plane := fun x y =>
  P (mirror (x - 1) W) (mirror (y - 1) H) + P (mirror (x + 1) W) (mirror (y - 1) H)
    + P (mirror (x - 1) W) (mirror (y + 1) H) + P (mirror (x + 1) W) (mirror (y + 1) H)

/-- `pair(P, x, y, a)` (rule R223): the two mirrored neighbours in the column when `vert(a)`, else in the row. -/
def pair (W H : Int) (vertical : Bool) (P : Plane) : Plane := fun x y =>
  if vertical then P x (mirror (y - 1) H) + P x (mirror (y + 1) H)
  else P (mirror (x - 1) W) y + P (mirror (x + 1) W) y

/-- `lift(P, p, nb, sg, bias, sh)` (rule R226) on signed `m`-bit values. -/
def lift (m : Nat) (P : Plane) (p : Phase) (nb : Plane → Plane) (sg bias : Int) (sh : Nat) : Plane := fun x y =>
  if phaseOf x y = p then ww m (P x y + sg * asr (nb P x y + bias) sh) else P x y

/-- `enc(v, o)` (rule R221). -/
def enc (m : Nat) (cs : Bool) (v o : Int) : Int := wrap (v + o) cs m

/-- `dec(S, o)` (rule R221). -/
def dec (m : Nat) (v o : Int) : Int := ww m (v - o)

/-- What a CFA-grid transform works with (rule R220): the size, the depth `m` of the transformed image, `cs`, `off`, and the
positions of the arrangement. -/
structure Grid where
  W : Int
  H : Int
  m : Nat
  cs : Bool
  off : Int
  p : Positions

/-- The working plane `P0` of a forward command (rule R221). -/
def workingPlane (m : Nat) (S : Plane) : Plane := fun x y => ww m (S x y)

/-! ### RCTX (rules R228, R229) -/

/-- Passes (1) and (2) of RCTX.F: `T2`. -/
def rctxPasses (c : Grid) (P0 : Plane) : Plane :=
  let T1 := lift c.m P0 c.p.k (diag c.W c.H) (-1) 2 2
  lift c.m T1 c.p.g (diag c.W c.H) 1 4 3

/-- Their inverses in reverse order. -/
def rctxUnpasses (c : Grid) (T2 : Plane) : Plane :=
  let T1 := lift c.m T2 c.p.g (diag c.W c.H) (-1) 4 3
  lift c.m T1 c.p.k (diag c.W c.H) 1 2 2

/-- The samples RCTX.F stores, from the samples `S` it loads (rule R228). -/
def rctxForward (c : Grid) (S : Plane) : Plane :=
  let T2 := rctxPasses c (workingPlane c.m S)
  let A := cellAt T2 c.p.g
  let cb : Plane := fun i j => ww c.m (cellAt T2 c.p.b i j - A i j)
  let cr : Plane := fun i j => ww c.m (cellAt T2 c.p.r i j - A i j)
  let yv : Plane := fun i j => ww c.m (A i j + asr (cb i j + cr i j) 2)
  packCells
    (fun i j => enc c.m c.cs (yv i j) 0)
    (fun i j => enc c.m c.cs (cb i j) c.off)
    (fun i j => enc c.m c.cs (cr i j) c.off)
    (fun i j => enc c.m c.cs (cellAt T2 c.p.k i j) c.off)

/-- The samples RCTX.I stores, from the samples `S` it loads (rule R229). -/
def rctxInverse (c : Grid) (S : Plane) : Plane :=
  let yv : Plane := fun i j => dec c.m (S (2 * i) (2 * j)) 0
  let cb : Plane := fun i j => dec c.m (S (2 * i + 1) (2 * j)) c.off
  let cr : Plane := fun i j => dec c.m (S (2 * i) (2 * j + 1)) c.off
  let D : Plane := fun i j => dec c.m (S (2 * i + 1) (2 * j + 1)) c.off
  let A : Plane := fun i j => ww c.m (yv i j - asr (cb i j + cr i j) 2)
  let T2 := scatter c.p (fun i j => ww c.m (cr i j + A i j)) A D (fun i j => ww c.m (cb i j + A i j))
  let P0 := rctxUnpasses c T2
  fun x y => clamp (P0 x y) c.cs (c.m - 1)

/-! ### YDgCoCgX (rules R232, R233) -/

/-- The six passes of YDGCOCGX.F: `T6`. -/
def ydgcocgxPasses (c : Grid) (P0 : Plane) : Plane :=
  let T1 := lift c.m P0 c.p.k (diag c.W c.H) (-1) 2 2
  let T2 := lift c.m T1 c.p.g (diag c.W c.H) 1 4 3
  let T3 := lift c.m T2 c.p.r (diag c.W c.H) (-1) 2 2
  let T4 := lift c.m T3 c.p.b (diag c.W c.H) 1 4 3
  let T5 := lift c.m T4 c.p.g (pair c.W c.H (vert c.p)) (-1) 1 1
  lift c.m T5 c.p.b (pair c.W c.H (vert c.p)) 1 2 2

/-- Their inverses in reverse order. -/
def ydgcocgxUnpasses (c : Grid) (T6 : Plane) : Plane :=
  let T5 := lift c.m T6 c.p.b (pair c.W c.H (vert c.p)) (-1) 2 2
  let T4 := lift c.m T5 c.p.g (pair c.W c.H (vert c.p)) 1 1 1
  let T3 := lift c.m T4 c.p.b (diag c.W c.H) (-1) 4 3
  let T2 := lift c.m T3 c.p.r (diag c.W c.H) 1 2 2
  let T1 := lift c.m T2 c.p.g (diag c.W c.H) (-1) 4 3
  lift c.m T1 c.p.k (diag c.W c.H) 1 2 2

/-- The samples YDGCOCGX.F stores, from the samples `S` it loads (rule R232). -/
def ydgcocgxForward (c : Grid) (S : Plane) : Plane :=
  let T6 := ydgcocgxPasses c (workingPlane c.m S)
  packCells
    (fun i j => enc c.m c.cs (cellAt T6 c.p.b i j) 0)
    (fun i j => enc c.m c.cs (cellAt T6 c.p.g i j) c.off)
    (fun i j => enc c.m c.cs (cellAt T6 c.p.r i j) c.off)
    (fun i j => enc c.m c.cs (cellAt T6 c.p.k i j) c.off)

/-- The samples YDGCOCGX.I stores, from the samples `S` it loads (rule R233). -/
def ydgcocgxInverse (c : Grid) (S : Plane) : Plane :=
  let T6 := scatter c.p
    (fun i j => dec c.m (S (2 * i) (2 * j + 1)) c.off)
    (fun i j => dec c.m (S (2 * i + 1) (2 * j)) c.off)
    (fun i j => dec c.m (S (2 * i + 1) (2 * j + 1)) c.off)
    (fun i j => dec c.m (S (2 * i) (2 * j)) 0)
  let P0 := ydgcocgxUnpasses c T6
  fun x y => clamp (P0 x y) c.cs (c.m - 1)

/-! ### The commands -/

/-- The checks V2 to V6 of the four commands (rule R224); `depths` is their V6. -/
def cfaError (s : State) (depths : Bool) : Option ErrorKind :=
  let c0 := s.slot 0
  if !countIs s 1 then some .invalidDimensions
  else if !evenSizes c0 then some .invalidDimensions
  else if !(typed c0 && !c0.isFloat && c0.signed == s.cs) then some .unsupportedSampleType
  else if !depths then some .unsupportedBitDepth
  else none

/-- V6 of a forward command (rule R224). -/
def cfaForwardDepths (s : State) : Bool := (s.slot 0).depth ≤ 31

/-- V6 of an inverse command (rule R224). -/
def cfaInverseDepths (s : State) : Bool := 2 ≤ (s.slot 0).depth && (s.slot 0).depth ≤ 32

/-- What the commands work with (rule R220): `n` is the depth of the CFA samples, `m = n + 1`. -/
def gridOf (s : State) (p : Positions) (n : Nat) : Grid where
  W := (s.slot 0).width
  H := (s.slot 0).height
  m := n + 1
  cs := s.cs
  off := if s.cs then 0 else 2 ^ n
  p := p

/-- A command from one component to one of the same size (rule R225). -/
def cfaConversion (s : State) (depth : Nat) (P : Plane) : Conversion :=
  let c0 := s.slot 0
  { inputs := [c0]
    outputs :=
      [ { w := c0.width, h := c0.height, depth := depth, signed := s.cs, float := false, subX := 1, subY := 1, plane := P } ]
    imgW := c0.width
    imgH := c0.height }

/-- A forward command with the transform `f` (rules R224, R225): `n = C[0].DEPTH`. -/
def cfaForward (f : Grid → Plane → Plane) (s : State) (p : Positions) : Conversion :=
  let n := (s.slot 0).depth
  cfaConversion s (n + 1) (f (gridOf s p n) (load s.mem (s.slot 0)))

/-- An inverse command with the transform `f` (rules R224, R225): `n = C[0].DEPTH - 1`. -/
def cfaInverse (f : Grid → Plane → Plane) (s : State) (p : Positions) : Conversion :=
  let n := (s.slot 0).depth - 1
  cfaConversion s n (f (gridOf s p n) (load s.mem (s.slot 0)))

/-- RCTX.F a (rule R228). -/
def execRctxF (a : Nat) (s : State) : Outcome :=
  withArrangement (encode (.rctxF a)) a
    (fun p s => convert (encode (.rctxF a)) (cfaError s (cfaForwardDepths s)) (cfaForward rctxForward s p) s) s

/-- RCTX.I a (rule R229). -/
def execRctxI (a : Nat) (s : State) : Outcome :=
  withArrangement (encode (.rctxI a)) a
    (fun p s => convert (encode (.rctxI a)) (cfaError s (cfaInverseDepths s)) (cfaInverse rctxInverse s p) s) s

/-- YDGCOCGX.F a (rule R232). -/
def execYdgcocgxF (a : Nat) (s : State) : Outcome :=
  withArrangement (encode (.ydgcocgxF a)) a
    (fun p s => convert (encode (.ydgcocgxF a)) (cfaError s (cfaForwardDepths s)) (cfaForward ydgcocgxForward s p) s) s

/-- YDGCOCGX.I a (rule R233). -/
def execYdgcocgxI (a : Nat) (s : State) : Outcome :=
  withArrangement (encode (.ydgcocgxI a)) a
    (fun p s => convert (encode (.ydgcocgxI a)) (cfaError s (cfaInverseDepths s)) (cfaInverse ydgcocgxInverse s p) s) s

end Sys2Proof.Machine
end

