-- ==== Sys2Proof/Machine/Layout.lean ====
section
/-!
DEFINITION. The layout converter (`spec/46_layout.md`): C2P, C2PS, P2C, P2CS, C2Y, Y2C. Every output sample is a copy of one input
sample (rule R251).

DESIGN CHOICE, log entry 15: of an integer sample outside the legal range of its component rules R251 and R170 say different things,
and the model leaves it free which of them holds.
-/

namespace Sys2Proof.Machine

/-- The positions of raster order, `(i & 1, i >> 1)` for planes 0 to 3 (rules R18, R252). -/
def rasterOrder : Positions := { r := ⟨0, 0⟩, g := ⟨1, 0⟩, k := ⟨0, 1⟩, b := ⟨1, 1⟩ }

/-- What a layout command stores of a loaded sample `v`, with `c0` the slot the type is from: `v`, where it is a legal integer or a
float's bit pattern (rules R78, R251). Of any other integer rule R251 keeps every bit, and rules R79, R170 and R316 (H2) make it a
legal one; which, is free: DESIGN CHOICE, log entry 15. -/
def copiedSample (c0 : Slot) (v : Int) : Int :=
  if c0.isFloat = true ∨ legal c0.signed c0.depth v then v
  else if Config.layoutKeepsIllegalSamples then v
  else wrap (Config.layoutLegalSample c0.signed c0.depth v) c0.signed c0.depth

/-- An output component that takes `DEPTH`, `SIGNED` and `FLOAT` from slot C0, each sample a copy of one of `P` (rule R251). -/
def copyOutput (c0 : Slot) (w h subX subY : Nat) (P : Plane) : Output where
  w := w
  h := h
  depth := c0.depth
  signed := c0.signed
  float := c0.isFloat
  subX := subX
  subY := subY
  plane := fun x y => copiedSample c0 (P x y)

/-- The checks V2 to V5 of C2P, C2PS and C2Y (rules R252, R253, R258). -/
def cfaCopyError (s : State) : Option ErrorKind :=
  if !countIs s 1 then some .invalidDimensions
  else if !evenSizes (s.slot 0) then some .invalidDimensions
  else if !typed (s.slot 0) then some .unsupportedSampleType
  else none

/-- `cfa_to_planar4` with plane `i` taken from the `i`-th position of `p` (rules R252, R253). -/
def cfaToPlanes (p : Positions) (s : State) : Conversion :=
  let c0 := s.slot 0
  let w := c0.width / 2
  let h := c0.height / 2
  let S : Plane := load s.mem c0
  { inputs := [c0]
    outputs :=
      [ copyOutput c0 w h 1 1 (cellAt S p.r), copyOutput c0 w h 1 1 (cellAt S p.g),
        copyOutput c0 w h 1 1 (cellAt S p.k), copyOutput c0 w h 1 1 (cellAt S p.b) ]
    imgW := w
    imgH := h }

/-- The four input slots of P2C and P2CS. -/
def fourSlots (s : State) : List Slot := [s.slot 0, s.slot 1, s.slot 2, s.slot 3]

/-- The checks V2 to V5 of P2C and P2CS (rules R255, R256). -/
def planesCopyError (s : State) : Option ErrorKind :=
  if !countIs s 4 then some .invalidDimensions
  else if !sameSizes (fourSlots s) then some .invalidDimensions
  else if !(sameFormats (fourSlots s) && (fourSlots s).all (fun d => subIs d 1 1)) then some .inconsistentComponents
  else if !typed (s.slot 0) then some .unsupportedSampleType
  else none

/-- `planar4_to_cfa` with plane `i` put at the `i`-th position of `p` (rules R255, R256). -/
def planesToCfa (p : Positions) (s : State) : Conversion :=
  let c0 := s.slot 0
  let w := 2 * c0.width
  let h := 2 * c0.height
  { inputs := fourSlots s
    outputs :=
      [ copyOutput c0 w h 1 1
          (scatter p (load s.mem c0) (load s.mem (s.slot 1)) (load s.mem (s.slot 2)) (load s.mem (s.slot 3))) ]
    imgW := w
    imgH := h }

/-- `cfa_to_422` (rules R257, R258): G1 at even and G2 at odd places of a row of C0. -/
def cfaTo422 (p : Positions) (s : State) : Conversion :=
  let c0 := s.slot 0
  let w := c0.width
  let h := c0.height / 2
  let S : Plane := load s.mem c0
  { inputs := [c0]
    outputs :=
      [ copyOutput c0 w h 1 1 (fun x j => if x % 2 = 0 then cellAt S p.g (x / 2) j else cellAt S p.k (x / 2) j),
        copyOutput c0 (w / 2) h 2 1 (cellAt S p.r),
        copyOutput c0 (w / 2) h 2 1 (cellAt S p.b) ]
    imgW := w
    imgH := h }

/-- The checks V2 to V5 of Y2C (rule R259). -/
def copy422Error (s : State) : Option ErrorKind :=
  let c0 := s.slot 0
  let c1 := s.slot 1
  let c2 := s.slot 2
  if !countIs s 3 then some .invalidDimensions
  else if !sizes422 c0 c1 c2 then some .invalidDimensions
  else if !(sameFormats [c0, c1, c2] && subs422 c0 c1 c2) then some .inconsistentComponents
  else if !typed c0 then some .unsupportedSampleType
  else none

/-- `422_to_cfa` (rule R259). -/
def cfaFrom422 (p : Positions) (s : State) : Conversion :=
  let c0 := s.slot 0
  let S : Plane := load s.mem c0
  { inputs := [c0, s.slot 1, s.slot 2]
    outputs :=
      [ copyOutput c0 c0.width (2 * c0.height) 1 1
          (scatter p (load s.mem (s.slot 1)) (fun i j => S (2 * i) j) (fun i j => S (2 * i + 1) j)
            (load s.mem (s.slot 2))) ]
    imgW := c0.width
    imgH := 2 * c0.height }

/-- C2P (rule R252). -/
def execC2p (s : State) : Outcome := convert (encode .c2p) (cfaCopyError s) (cfaToPlanes rasterOrder s) s

/-- C2PS a (rule R253). -/
def execC2ps (a : Nat) (s : State) : Outcome :=
  withArrangement (encode (.c2ps a)) a
    (fun p s => convert (encode (.c2ps a)) (cfaCopyError s) (cfaToPlanes p s) s) s

/-- P2C (rule R255). -/
def execP2c (s : State) : Outcome := convert (encode .p2c) (planesCopyError s) (planesToCfa rasterOrder s) s

/-- P2CS a (rule R256). -/
def execP2cs (a : Nat) (s : State) : Outcome :=
  withArrangement (encode (.p2cs a)) a
    (fun p s => convert (encode (.p2cs a)) (planesCopyError s) (planesToCfa p s) s) s

/-- C2Y a (rule R258). -/
def execC2y (a : Nat) (s : State) : Outcome :=
  withArrangement (encode (.c2y a)) a
    (fun p s => convert (encode (.c2y a)) (cfaCopyError s) (cfaTo422 p s) s) s

/-- Y2C a (rule R259). -/
def execY2c (a : Nat) (s : State) : Outcome :=
  withArrangement (encode (.y2c a)) a
    (fun p s => convert (encode (.y2c a)) (copy422Error s) (cfaFrom422 p s) s) s

end Sys2Proof.Machine
end

