-- ==== Sys2Proof/Machine/PlanarLifting.lean ====
section
/-!
DEFINITION. The planar lifting transforms (`spec/44_lifting_planar.md`): RCT, RCTD, YCgCo, YCgCoD and RCT422, forward and inverse.
The arithmetic of one cell stands first, on unbounded integers; the commands apply it to every sample position.
-/

namespace Sys2Proof.Machine

/-! ### The arithmetic of one cell -/

/-- A luma and two chroma values, before the offset. -/
structure Ycc where
  y : Int
  c1 : Int
  c2 : Int
deriving DecidableEq, Repr

/-- Red, one green and blue. -/
structure Rgb where
  r : Int
  g : Int
  b : Int
deriving DecidableEq, Repr

/-- The delta-green `d` and the green average `ga` (rule R185). -/
structure DeltaGreen where
  d : Int
  ga : Int
deriving DecidableEq, Repr

/-- The two greens of a cell. -/
structure Greens where
  g1 : Int
  g2 : Int
deriving DecidableEq, Repr

/-- `split(g1, g2)` (rule R185). -/
def split (g1 g2 : Int) : DeltaGreen := { d := g1 - g2, ga := asr (g1 + g2) 1 }

/-- `merge(d, ga)` (rule R185). -/
def merge (d ga : Int) : Greens := { g1 := ga + d - asr d 1, g2 := ga - asr d 1 }

/-- RCT forward (rule R186): `c1` is Cb, `c2` is Cr. -/
def rctForward (r g b : Int) : Ycc := { y := asr (r + 2 * g + b) 2, c1 := b - g, c2 := r - g }

/-- RCT inverse (rule R187), on de-offset chroma. -/
def rctInverse (yv cb cr : Int) : Rgb :=
  let g := yv - asr (cb + cr) 2
  { r := cr + g, g := g, b := cb + g }

/-- YCgCo forward (rule R192): `c1` is Cg, `c2` is Co. -/
def ycgcoForward (r g b : Int) : Ycc :=
  let co := r - b
  let t := b + asr co 1
  let cg := g - t
  { y := t + asr cg 1, c1 := cg, c2 := co }

/-- YCgCo inverse (rule R193), on de-offset chroma. -/
def ycgcoInverse (yv cg co : Int) : Rgb :=
  let t := yv - asr cg 1
  let b := t - asr co 1
  { r := b + co, g := cg + t, b := b }

/-! ### Shared by the ten commands -/

/-- `off` (rule R181): `n` is the depth of the luma. -/
def chromaOffset (s : State) (n : Nat) : Int := if s.cs then 0 else 2 ^ n

/-- `(s, n)` of the luma: `SIGNED` and `DEPTH` of C0 (rule R180). -/
def lumaSigned (s : State) : Bool := (s.slot 0).signed

/-- The luma's bit depth `n` (rule R180). -/
def lumaDepth (s : State) : Nat := (s.slot 0).depth

/-- A luma output of a forward command: `wrap(v, s, n)` (rules R182, R184). -/
def lumaOutput (s : State) (w h : Nat) (P : Plane) : Output where
  w := w
  h := h
  depth := lumaDepth s
  signed := lumaSigned s
  float := false
  subX := 1
  subY := 1
  plane := fun x y => wrap (P x y) (lumaSigned s) (lumaDepth s)

/-- A chroma or delta output of a forward command: `wrap(v + off, CS, n + 1)` (rules R182, R184). -/
def chromaOutput (s : State) (w h subX : Nat) (P : Plane) : Output where
  w := w
  h := h
  depth := lumaDepth s + 1
  signed := s.cs
  float := false
  subX := subX
  subY := 1
  plane := fun x y => wrap (P x y + chromaOffset s (lumaDepth s)) s.cs (lumaDepth s + 1)

/-- An output of an inverse command, of the luma's type (rule R182), with the samples `P` already in range. -/
def inverseOutput (s : State) (w h subX : Nat) (P : Plane) : Output where
  w := w
  h := h
  depth := lumaDepth s
  signed := lumaSigned s
  float := false
  subX := subX
  subY := 1
  plane := P

/-- An output of an inverse command: `clamp(v, s, n)` (rule R184). -/
def clampedOutput (s : State) (w h subX : Nat) (P : Plane) : Output :=
  inverseOutput s w h subX (fun x y => clamp (P x y) (lumaSigned s) (lumaDepth s))

/-- The samples of input slot `c`. -/
def samples (s : State) (c : Nat) : Plane := load s.mem (s.slot c)

/-- The chroma or delta samples of input slot `c` with the offset removed (rule R181). -/
def chroma (s : State) (c : Nat) : Plane := fun x y => samples s c x y - chromaOffset s (lumaDepth s)

/-- The first three slots. -/
def threeSlots (s : State) : List Slot := [s.slot 0, s.slot 1, s.slot 2]

/-- All four slots. -/
def allSlots (s : State) : List Slot := [s.slot 0, s.slot 1, s.slot 2, s.slot 3]

/-- The checks V2 to V6 of a forward command (rules R162, R183); `sizes` is its V3 and `subs` what it adds to V4 (rule R197). -/
def forwardError (s : State) (ins : List Slot) (sizes subs : Bool) : Option ErrorKind :=
  if !countIs s ins.length then some .invalidDimensions
  else if !sizes then some .invalidDimensions
  else if !(sameFormats ins && subs) then some .inconsistentComponents
  else if !(ins.all typed && !(s.slot 0).isFloat) then some .unsupportedSampleType
  else if 32 < (s.slot 0).depth + 1 then some .unsupportedBitDepth
  else none

/-- Class V4 of an inverse command (rule R183): the chroma slots agree, and C1 is the luma's chroma. -/
def inverseFormats (s : State) (chromas : List Slot) : Bool :=
  sameFormats chromas
    && (s.slot 1).isFloat == (s.slot 0).isFloat
    && (s.slot 1).depth == (s.slot 0).depth + 1
    && (s.slot 1).signed == s.cs

/-- The checks V2 to V6 of an inverse command (rules R162, R183); `sizes` is its V3 and `subs` what it adds to V4 (rule R197). -/
def inverseError (s : State) (ins : List Slot) (sizes subs : Bool) : Option ErrorKind :=
  if !countIs s ins.length then some .invalidDimensions
  else if !sizes then some .invalidDimensions
  else if !(inverseFormats s (ins.drop 1) && subs) then some .inconsistentComponents
  else if !(ins.all typed && !(s.slot 0).isFloat) then some .unsupportedSampleType
  else if 32 < (s.slot 1).depth then some .unsupportedBitDepth
  else none

/-- A planar conversion that keeps the size of C0 (rules R186 to R200: `IMG_W = W`, `IMG_H = H`). -/
def planarConversion (s : State) (ins : List Slot) (outs : List Output) : Conversion where
  inputs := ins
  outputs := outs
  imgW := (s.slot 0).width
  imgH := (s.slot 0).height

/-- A forward command on R, G, B planes with the cell arithmetic `f` (rules R186, R192). -/
def forward3 (f : Int → Int → Int → Ycc) (s : State) : Conversion :=
  let w := (s.slot 0).width
  let h := (s.slot 0).height
  let v : Int → Int → Ycc := fun x y => f (samples s 0 x y) (samples s 1 x y) (samples s 2 x y)
  planarConversion s (threeSlots s)
    [ lumaOutput s w h (fun x y => (v x y).y),
      chromaOutput s w h 1 (fun x y => (v x y).c1),
      chromaOutput s w h 1 (fun x y => (v x y).c2) ]

/-- An inverse command on a luma and two chroma planes with the cell arithmetic `f` (rules R187, R193). -/
def inverse3 (f : Int → Int → Int → Rgb) (s : State) : Conversion :=
  let w := (s.slot 0).width
  let h := (s.slot 0).height
  let v : Int → Int → Rgb := fun x y => f (samples s 0 x y) (chroma s 1 x y) (chroma s 2 x y)
  planarConversion s (threeSlots s)
    [ clampedOutput s w h 1 (fun x y => (v x y).r),
      clampedOutput s w h 1 (fun x y => (v x y).g),
      clampedOutput s w h 1 (fun x y => (v x y).b) ]

/-- A forward command on R, G1, G2, B planes: delta-green, then the cell arithmetic `f` on the green average (rules R189, R195). -/
def forward4 (f : Int → Int → Int → Ycc) (s : State) : Conversion :=
  let w := (s.slot 0).width
  let h := (s.slot 0).height
  let dg : Int → Int → DeltaGreen := fun x y => split (samples s 1 x y) (samples s 2 x y)
  let v : Int → Int → Ycc := fun x y => f (samples s 0 x y) (dg x y).ga (samples s 3 x y)
  planarConversion s (allSlots s)
    [ lumaOutput s w h (fun x y => (v x y).y),
      chromaOutput s w h 1 (fun x y => (v x y).c1),
      chromaOutput s w h 1 (fun x y => (v x y).c2),
      chromaOutput s w h 1 (fun x y => (dg x y).d) ]

/-- An inverse command on a luma, two chroma and a delta plane: the cell arithmetic `f` gives the green average (not clamped),
from which the two greens come (rules R190, R196). -/
def inverse4 (f : Int → Int → Int → Rgb) (s : State) : Conversion :=
  let w := (s.slot 0).width
  let h := (s.slot 0).height
  let v : Int → Int → Rgb := fun x y => f (samples s 0 x y) (chroma s 1 x y) (chroma s 2 x y)
  let gs : Int → Int → Greens := fun x y => merge (chroma s 3 x y) (v x y).g
  planarConversion s (allSlots s)
    [ clampedOutput s w h 1 (fun x y => (v x y).r),
      clampedOutput s w h 1 (fun x y => (gs x y).g1),
      clampedOutput s w h 1 (fun x y => (gs x y).g2),
      clampedOutput s w h 1 (fun x y => (v x y).b) ]

/-! ### RCT422 (rules R197 to R200) -/

/-- RCT422.F (rule R199): chroma from the first green sample of the cell, both lumas from the shared `t`. -/
def forward422 (s : State) : Conversion :=
  let w := (s.slot 0).width
  let h := (s.slot 0).height
  let G := samples s 0
  let cb : Plane := fun i y => samples s 2 i y - G (2 * i) y
  let cr : Plane := fun i y => samples s 1 i y - G (2 * i) y
  let t : Plane := fun i y => asr (cb i y + cr i y) 2
  planarConversion s (threeSlots s)
    [ lumaOutput s w h (fun x y => G x y + t (x / 2) y),
      chromaOutput s (w / 2) h 2 cb,
      chromaOutput s (w / 2) h 2 cr ]

/-- RCT422.I (rule R200): the greens are wrapped, red and blue are clamped. -/
def inverse422 (s : State) : Conversion :=
  let w := (s.slot 0).width
  let h := (s.slot 0).height
  let cb := chroma s 1
  let cr := chroma s 2
  let t : Plane := fun i y => asr (cb i y + cr i y) 2
  let G : Plane := fun x y => wrap (samples s 0 x y - t (x / 2) y) (lumaSigned s) (lumaDepth s)
  planarConversion s (threeSlots s)
    [ inverseOutput s w h 1 G,
      clampedOutput s (w / 2) h 2 (fun i y => cr i y + G (2 * i) y),
      clampedOutput s (w / 2) h 2 (fun i y => cb i y + G (2 * i) y) ]

/-- V3 of the 4:2:2 commands (rule R197). -/
def planarSizes422 (s : State) : Bool := sizes422 (s.slot 0) (s.slot 1) (s.slot 2)

/-- What the 4:2:2 commands add to V4 (rule R197). -/
def planarSubs422 (s : State) : Bool := subs422 (s.slot 0) (s.slot 1) (s.slot 2)

/-! ### The ten commands -/

/-- RCT.F (rule R186). -/
def execRctF (s : State) : Outcome :=
  convert (encode .rctF) (forwardError s (threeSlots s) (sameSizes (threeSlots s)) true) (forward3 rctForward s) s

/-- RCT.I (rule R187). -/
def execRctI (s : State) : Outcome :=
  convert (encode .rctI) (inverseError s (threeSlots s) (sameSizes (threeSlots s)) true) (inverse3 rctInverse s) s

/-- RCTD.F (rule R189). -/
def execRctdF (s : State) : Outcome :=
  convert (encode .rctdF) (forwardError s (allSlots s) (sameSizes (allSlots s)) true) (forward4 rctForward s) s

/-- RCTD.I (rule R190). -/
def execRctdI (s : State) : Outcome :=
  convert (encode .rctdI) (inverseError s (allSlots s) (sameSizes (allSlots s)) true) (inverse4 rctInverse s) s

/-- YCGCO.F (rule R192). -/
def execYcgcoF (s : State) : Outcome :=
  convert (encode .ycgcoF) (forwardError s (threeSlots s) (sameSizes (threeSlots s)) true) (forward3 ycgcoForward s) s

/-- YCGCO.I (rule R193). -/
def execYcgcoI (s : State) : Outcome :=
  convert (encode .ycgcoI) (inverseError s (threeSlots s) (sameSizes (threeSlots s)) true) (inverse3 ycgcoInverse s) s

/-- YCGCOD.F (rule R195). -/
def execYcgcodF (s : State) : Outcome :=
  convert (encode .ycgcodF) (forwardError s (allSlots s) (sameSizes (allSlots s)) true) (forward4 ycgcoForward s) s

/-- YCGCOD.I (rule R196). -/
def execYcgcodI (s : State) : Outcome :=
  convert (encode .ycgcodI) (inverseError s (allSlots s) (sameSizes (allSlots s)) true) (inverse4 ycgcoInverse s) s

/-- RCT422.F (rule R199). -/
def execRct422F (s : State) : Outcome :=
  convert (encode .rct422F) (forwardError s (threeSlots s) (planarSizes422 s) (planarSubs422 s)) (forward422 s) s

/-- RCT422.I (rule R200). -/
def execRct422I (s : State) : Outcome :=
  convert (encode .rct422I) (inverseError s (threeSlots s) (planarSizes422 s) (planarSubs422 s)) (inverse422 s) s

end Sys2Proof.Machine
end

