-- ==== Sys2Proof/Machine/System.lean ====
section
/-!
DEFINITION. The sequencer's own commands NOP and ERRCLR (`spec/40_system.md`).
-/

namespace Sys2Proof.Machine

/-- NOP (rule R121). -/
def execNop (s : State) : Outcome := .next (complete s)

/-- ERRCLR (rule R122). -/
def execErrclr (s : State) : Outcome := .next (errorCleared s)

end Sys2Proof.Machine
end

