-- ==== Sys2Proof/Machine/Dispatch.lean ====
section
/-!
DEFINITION. One arm per command (`spec/30_encoding.md` rule R100 step 3: execute the command's rule).
-/

namespace Sys2Proof.Machine

def exec (i : Instr) (s : State) : Host.Outcome State Fault Refusal :=
  match i with
  | .nop => Sys2Proof.Machine.execNop s
  | .errclr => Sys2Proof.Machine.execErrclr s
  | .addr c => Sys2Proof.Machine.execAddr c s
  | .lds c => Sys2Proof.Machine.execLds c s
  | .sts c => Sys2Proof.Machine.execSts c s
  | .typeof c => Sys2Proof.Machine.execTypeof c s
  | .maddr c => Sys2Proof.Machine.execMaddr c s
  | .ldm c => Sys2Proof.Machine.execLdm c s
  | .bpos a => Sys2Proof.Machine.execBpos a s
  | .bparse => Sys2Proof.Machine.execBparse s
  | .c2p => Sys2Proof.Machine.execC2p s
  | .c2ps a => Sys2Proof.Machine.execC2ps a s
  | .p2c => Sys2Proof.Machine.execP2c s
  | .p2cs a => Sys2Proof.Machine.execP2cs a s
  | .c2y a => Sys2Proof.Machine.execC2y a s
  | .y2c a => Sys2Proof.Machine.execY2c a s
  | .rctF => Sys2Proof.Machine.execRctF s
  | .rctI => Sys2Proof.Machine.execRctI s
  | .rctdF => Sys2Proof.Machine.execRctdF s
  | .rctdI => Sys2Proof.Machine.execRctdI s
  | .rctxF a => Sys2Proof.Machine.execRctxF a s
  | .rctxI a => Sys2Proof.Machine.execRctxI a s
  | .ycgcoF => Sys2Proof.Machine.execYcgcoF s
  | .ycgcoI => Sys2Proof.Machine.execYcgcoI s
  | .ycgcodF => Sys2Proof.Machine.execYcgcodF s
  | .ycgcodI => Sys2Proof.Machine.execYcgcodI s
  | .ydgcocgxF a => Sys2Proof.Machine.execYdgcocgxF a s
  | .ydgcocgxI a => Sys2Proof.Machine.execYdgcocgxI a s
  | .rct422F => Sys2Proof.Machine.execRct422F s
  | .rct422I => Sys2Proof.Machine.execRct422I s

end Sys2Proof.Machine
end

