-- ==== Sys2Proof/Machine/Sequencer.lean ====
section
/-!
DEFINITION. How a command is issued (`spec/30_encoding.md` rule R100) and what each host action does (`spec/10_state.md` rule R31,
`spec/20_memory.md` rule R84, `spec/70_reset_and_hazards.md` rule R310).
-/

namespace Sys2Proof.Machine

/-- `RegWrite(CMD, w)` (rules R51, R100): while `STATUS.ERR` is 1 every word but ERRCLR's is ignored without being decoded
(rule R292); a word that is no command raises `IllegalCommand` (rule R291); any other runs its command. DEDUCED, log entry 7:
the gate stands here, not in `exec`. -/
def issue (w : Word) (s : State) : Outcome :=
  if errFlag s.status ∧ w ≠ 0x00000001#32 then .next s
  else
    match decodeWord w with
    | .ok i => exec i s
    | .error _ => raise .illegalCommand w s

/-- The bytes of a host memory action exist: `k >= 1` and `a + k <= MEM_SIZE` (rule R84). -/
def hostInMem (s : State) (a k : Nat) : Bool := 1 ≤ k && a + k ≤ s.memSize

/-- One action of the host. A read answers the host, which `replies` records (DESIGN CHOICE, log entry 2). -/
def hostStep (act : HostAction) (s : State) : Outcome :=
  match act with
  | .regRead num => .next { s with replies := regRead s num :: s.replies }
  | .regWrite num v => if num = 0 then issue (BitVec.ofInt 32 v) s else .next (regWrite s num v)
  | .memRead a k =>
    if hostInMem s a k then .next { s with replies := memRead s.mem a k :: s.replies } else .fault .hostActionOutsideMem
  | .memWrite a k v =>
    if hostInMem s a k then .next { s with mem := memWrite s.mem a k v } else .fault .hostActionOutsideMem
  | .reset => .next (resetBlock s)

/-- The host action that issues the command word whose bits are `w`, every bit at or above `nbits` being 0. -/
def issuing (nbits w : Nat) : HostAction := .regWrite 0x00 ((w % 2 ^ nbits : Nat) : Int)

end Sys2Proof.Machine
end

