-- ==== Sys2Proof/Machine/Step.lean ====
section
/-!
DEFINITION. One step: the host's next action, and with it the command it may issue, to completion (`spec/00_scope.md` rule R3,
`spec/10_state.md` rules R34, R51). With no action the block is idle (`spec/70_reset_and_hazards.md` rule R310;
DESIGN CHOICE, log entry 8).
-/

namespace Sys2Proof.Machine

/-- One step of the block and its host. -/
def step (s : State) : Host.Outcome State Fault Refusal :=
  match s.host with
  | [] => .next s
  | act :: rest => hostStep act { s with host := rest }

/-- `s` with the command word whose bits are `w` issued by the host's next action (DESIGN CHOICE, log entry 1). -/
def State.withFetchWord (s : State) (nbits w : Nat) : State := { s with host := issuing nbits w :: s.host }

end Sys2Proof.Machine
end

