-- ==== Sys2Proof/Safety.lean ====
section
/-!
DEFINITION. What every state a run can reach has: the invariant of the registers and of MEM, and which error a command may have
recorded (`spec/60_exceptions.md` rule R295).
-/

namespace Sys2Proof.Machine

/-- Bits 31:2 of `STATUS` read 0 (rule R35). -/
abbrev statusReserved (s : State) : Prop := s.status &&& 0xFFFFFFFC#32 = 0#32

/-- Bits 31:1 of `CTRL` read 0 (rule R49). -/
abbrev ctrlReserved (s : State) : Prop := s.ctrl &&& 0xFFFFFFFE#32 = 0#32

/-- Bits 15:11 of a slot's `FMT` read 0 (rule R43). -/
abbrev fmtReserved (d : Slot) : Prop := d.fmt &&& 0x0000F800#32 = 0#32

/-- Bits 15:11 of every `FMT` read 0 (rule R43). -/
abbrev fmtsReserved (s : State) : Prop :=
  fmtReserved s.slots.i0 ∧ fmtReserved s.slots.i1 ∧ fmtReserved s.slots.i2 ∧ fmtReserved s.slots.i3

/-- MEM is in its canonical form and has no byte outside `0 .. MEM_SIZE - 1` (rule R70). -/
abbrev memInside (s : State) : Prop := Memory.wf s.mem ∧ ∀ p ∈ s.mem, p.1 < s.memSize

/-- `x[ERR] != 0` exactly when `STATUS.ERR` is 1 (rule R35), the code is one of rule R281, `ERRINFO` is 0 with no error recorded
(rule R53), and no error is recorded while `DONE` is 1 (rules R290, R292, R122). -/
abbrev errorRegisters (s : State) : Prop :=
  (s.err ≠ 0#32 ↔ errFlag s.status = true) ∧ s.err.toNat ≤ 8 ∧ (s.err = 0#32 → s.errinfo = 0#32)
    ∧ ¬(doneFlag s.status = true ∧ errFlag s.status = true)

/-- The invariant every step keeps. -/
abbrev Inv (s : State) : Prop :=
  statusReserved s ∧ ctrlReserved s ∧ fmtsReserved s ∧ memInside s ∧ errorRegisters s

/-- The errors the layout commands that read one slot, and those that read several, can raise (rule R295). -/
def copyErrors (several arranged : Bool) : List ErrorKind :=
  [.invalidDimensions, .unsupportedSampleType, .outOfRange, .bufferOverlap]
    ++ (if several then [.inconsistentComponents] else []) ++ (if arranged then [.unknownArrangement] else [])

/-- The errors a planar lifting command can raise (rule R295). -/
def planarErrors : List ErrorKind :=
  [.invalidDimensions, .inconsistentComponents, .unsupportedSampleType, .unsupportedBitDepth, .outOfRange, .bufferOverlap]

/-- The errors a CFA-grid lifting command can raise (rule R295). -/
def gridErrors : List ErrorKind :=
  [.invalidDimensions, .unsupportedSampleType, .unknownArrangement, .unsupportedBitDepth, .outOfRange, .bufferOverlap]

/-- The matrix of rule R295: which errors a command can raise. -/
def mayRaise : Instr → List ErrorKind
  | .nop | .errclr => []
  | .typeof _ => [.unsupportedSampleType]
  | .addr _ | .lds _ | .sts _ | .maddr _ | .ldm _ => [.unsupportedSampleType, .outOfRange]
  | .bpos _ | .bparse => [.unknownArrangement]
  | .c2p => copyErrors false false
  | .c2ps _ | .c2y _ => copyErrors false true
  | .p2c => copyErrors true false
  | .p2cs _ | .y2c _ => copyErrors true true
  | .rctF | .rctI | .rctdF | .rctdI | .ycgcoF | .ycgcoI | .ycgcodF | .ycgcodI | .rct422F | .rct422I => planarErrors
  | .rctxF _ | .rctxI _ | .ydgcocgxF _ | .ydgcocgxI _ => gridErrors

/-- A recorded error is one that the command word in `ERRINFO` can raise: a code of rule R295 for a command, `IllegalCommand` for a
word that is none (rules R290, R291, R295). -/
def recordedErrorFits (s : State) : Prop :=
  match decodeWord s.errinfo with
  | .ok i => ∃ e ∈ mayRaise i, s.err = e.code
  | .error _ => s.err = ErrorKind.illegalCommand.code

/-- Whatever error is recorded fits its command. -/
def recordsFittingErrors (s : State) : Prop := errFlag s.status = true → recordedErrorFits s

/-- A safe run: the step goes on. Only a host memory action outside MEM stops the model (log entry 6). -/
def goesOn (s : State) : Prop := ∃ t, step s = .next t

end Sys2Proof.Machine
end

