-- ==== Sys2Proof/Certificates/Slice0/Obligations.lean ====
section
/-!
DEFINITION. The statements for the provers, and first the words they are said in, written from the rules of `spec/`. Every
statement about every state also speaks of every size of MEM and every contents of MEM (`spec/00_scope.md` rule R6): both are
fields of the state.
-/

namespace Sys2Proof.Claims

open Sys2Proof.Machine

/-! ### Words for errors and for element types -/

/-- The command ends in the error with this code and changes nothing else (rules R281, R290). -/
abbrev Raises (i : Instr) (s : State) (code : Nat) : Prop :=
  exec i s = .next { s with
    err := BitVec.ofNat 32 code
    errinfo := encode i
    status := (s.status ||| 2#32) &&& ~~~1#32 }

/-- The word decodes to the command, and is the word the command has (rules R100, R108). -/
abbrev StandsFor (w : Word) (i : Instr) : Prop := decodeWord w = .ok i ∧ encode i = w

/-- `STATUS` after a command that completes (rule R35). -/
abbrev doneStatus (s : State) : Word := s.status ||| 1#32

/-- A row of the table of rule R74: `FLOAT`, `SIGNED`, the lowest and the highest `DEPTH`, the code and `K`. -/
structure TypeRow where
  float : Bool
  signed : Bool
  lowest : Nat
  highest : Nat
  code : Nat
  bytes : Nat
deriving DecidableEq, Repr

/-- The table of rule R74. -/
def typeRows : List TypeRow :=
  [ ⟨false, true, 1, 8, 0, 1⟩, ⟨false, false, 1, 8, 1, 1⟩, ⟨false, true, 9, 16, 2, 2⟩, ⟨false, false, 9, 16, 3, 2⟩,
    ⟨false, true, 17, 32, 4, 4⟩, ⟨false, false, 17, 32, 5, 4⟩, ⟨false, true, 33, 64, 6, 8⟩, ⟨false, false, 33, 64, 7, 8⟩,
    ⟨true, true, 32, 32, 8, 4⟩, ⟨true, true, 64, 64, 9, 8⟩ ]

/-- The row describes the slot. -/
abbrev TypeRow.describes (r : TypeRow) (d : Slot) : Prop :=
  d.isFloat = r.float ∧ d.signed = r.signed ∧ r.lowest ≤ d.depth ∧ d.depth ≤ r.highest

/-- No row describes the slot. -/
abbrev untyped (d : Slot) : Prop := ∀ r ∈ typeRows, ¬r.describes d

/-- The 64-bit pattern of an element that was read as `raw` (rule R133): sign-extended for int8 .. int64 (codes 0, 2, 4, 6),
zero-extended otherwise. -/
def pattern64 (r : TypeRow) (raw : Nat) : DWord :=
  if r.code = 0 ∨ r.code = 2 ∨ r.code = 4 ∨ r.code = 6 then (BitVec.ofNat (8 * r.bytes) raw).signExtend 64
  else BitVec.ofNat 64 raw

/-- `addr(c, x, y)` (rule R75). -/
abbrev sampleAddr (d : Slot) (x y : Int) : Int := d.base.toNat + x * d.bpp.toNat + y * d.bpr.toNat

/-- The element of `k` bytes at `a` lies in MEM (rule R77). -/
abbrev inside (s : State) (a : Int) (k : Nat) : Prop := 0 ≤ a ∧ a + k ≤ s.memSize

/-- The mirrored coordinate (rule R76), spelled out. -/
abbrev reflected (i n : Int) : Int := if i < 0 then -i else if i ≥ n then 2 * (n - 1) - i else i

/-- `mx` of rule R140. -/
abbrev mirroredX (s : State) (c : Nat) : Int := reflected s.x.toInt (s.slot c).width

/-- `my` of rule R140. -/
abbrev mirroredY (s : State) (c : Nat) : Int := reflected s.y.toInt (s.slot c).height

/-- Both mirrored coordinates lie in the component (rule R141). -/
abbrev mirrorInside (s : State) (c : Nat) : Prop :=
  (0 ≤ mirroredX s c ∧ mirroredX s c < (s.slot c).width) ∧ 0 ≤ mirroredY s c ∧ mirroredY s c < (s.slot c).height

/-- The address of the plain lookup `(X, Y)` in slot `c` (rule R132). -/
abbrev plainAddr (s : State) (c : Nat) : Int := sampleAddr (s.slot c) s.x.toInt s.y.toInt

/-- The address of the mirrored lookup in slot `c` (rule R142). -/
abbrev mirroredAddr (s : State) (c : Nat) : Int := sampleAddr (s.slot c) (mirroredX s c) (mirroredY s c)

/-! ### Words for the host's register interface -/

/-- The bits a host write to a register number keeps (rules R31, R32, R43, R44, R49, R54): 0 where the register is read-only,
write-only or not assigned. -/
def keptBits (num : Nat) : Nat :=
  if num = 0x04 then 1
  else if num = 0x08 ∨ num = 0x09 then 0xFFFFFFFF
  else if num = 0x0A then 0xFFFFFFFFFFFFFFFF
  else if num = 0x10 ∨ num = 0x11 then 0xFFFFFFFF
  else if num = 0x12 then 0xFFFF
  else if 0x20 ≤ num ∧ num < 0x40 then
    if num % 8 = 5 then 0xFFFF07FF else if num % 8 < 5 then 0xFFFFFFFF else 0
  else if 0x40 ≤ num ∧ num < 0x44 then 0xFFFFFFFF
  else 0

/-! ### Words for the conversion commands -/

/-- `K` of an element type that exists (rule R74), by `DEPTH`. -/
def bytesOf (depth : Nat) : Nat := if depth ≤ 8 then 1 else if depth ≤ 16 then 2 else if depth ≤ 32 then 4 else 8

/-- An output component: its descriptor's fields (rule R164) and the value of each of its samples. -/
structure Comp where
  w : Nat
  h : Nat
  depth : Nat
  signed : Bool
  float : Bool
  subX : Nat
  subY : Nat
  sample : Int → Int → Int

/-- `FP(c)` (rule R83). -/
abbrev inputRange (d : Slot) : Nat × Nat :=
  (d.base.toNat, d.base.toNat + (d.height - 1) * d.bpr.toNat + (d.width - 1) * d.bpp.toNat + bytesOf d.depth)

/-- `FPN(i)` (rule R165). -/
abbrev outputRange (s : State) (p : Comp × Nat) : Nat × Nat := (s.out p.2, s.out p.2 + p.1.w * p.1.h * bytesOf p.1.depth)

/-- Two half-open intervals share no byte (rule R165). -/
abbrev noSharedByte (f g : Nat × Nat) : Prop := ¬(f.1 < g.2 ∧ g.1 < f.2)

/-- Class V7 passes (rule R165). -/
abbrev BuffersFit (s : State) (ins : List Slot) (outs : List Comp) : Prop :=
  (∀ d ∈ ins, (inputRange d).2 ≤ s.memSize)
    ∧ ∀ p ∈ outs.zipIdx, p.1.w < 2 ^ 32 ∧ p.1.h < 2 ^ 32 ∧ p.1.w * bytesOf p.1.depth < 2 ^ 32
        ∧ (outputRange s p).2 ≤ s.memSize

/-- Class V8 passes (rule R165). -/
abbrev BuffersApart (s : State) (ins : List Slot) (outs : List Comp) : Prop :=
  (∀ p ∈ outs.zipIdx, ∀ d ∈ ins, noSharedByte (outputRange s p) (inputRange d))
    ∧ outs.zipIdx.Pairwise (fun p q => noSharedByte (outputRange s p) (outputRange s q))

/-- Slot `d` describes the packed buffer of output `n` (rule R164). -/
def describes (s : State) (d : Slot) (n : Nat) (c : Comp) : Prop :=
  d.base = s.outBase.get n ∧ d.bpp.toNat = bytesOf c.depth ∧ d.bpr.toNat = c.w * bytesOf c.depth
    ∧ d.width = c.w ∧ d.height = c.h ∧ d.depth = c.depth ∧ d.signed = c.signed ∧ d.isFloat = c.float
    ∧ d.own = true ∧ d.subX = c.subX ∧ d.subY = c.subY ∧ d.fmt &&& 0x0000F800#32 = 0#32

/-- The conversion command completes and leaves the new image (rules R160, R164, R166): every new descriptor and every sample of
every output; 0 in the slots the image does not use; the image registers; `DONE`; every byte of MEM outside the output buffers,
and every other register, unchanged. -/
def ConvertsTo (i : Instr) (s : State) (outs : List Comp) (imgW imgH : Nat) : Prop :=
  ∃ t, exec i s = .next t
    ∧ (∀ n c, outs[n]? = some c → describes s (t.slot n) n c
        ∧ ∀ x y : Nat, x < c.w → y < c.h → load t.mem (t.slot n) x y = c.sample x y)
    ∧ (∀ n, outs.length ≤ n → n < 4 → t.slot n = Slot.zero)
    ∧ t.imgDepth.toNat = outs.length ∧ t.imgW.toNat = imgW ∧ t.imgH.toNat = imgH
    ∧ t.status = doneStatus s
    ∧ (∀ a, (∀ p ∈ outs.zipIdx, ¬((outputRange s p).1 ≤ a ∧ a < (outputRange s p).2)) → memGet t.mem a = memGet s.mem a)
    ∧ { t with mem := s.mem, slots := s.slots, imgDepth := s.imgDepth, imgW := s.imgW, imgH := s.imgH, status := s.status } = s

/-- The phases of R, G1, G2, B of an arrangement code (rule R151). -/
def phasesOf (a : Nat) : List (Nat × Nat) :=
  if a = 0 then [(1, 0), (0, 0), (1, 1), (0, 1)]
  else if a = 1 then [(0, 0), (1, 0), (0, 1), (1, 1)]
  else if a = 2 then [(0, 1), (0, 0), (1, 1), (1, 0)]
  else [(1, 1), (1, 0), (0, 1), (0, 0)]

/-- The phases in raster order (rule R252). -/
def rasterPhases : List (Nat × Nat) := [(0, 0), (1, 0), (0, 1), (1, 1)]

/-- The phase of a coordinate (rule R17). -/
def coordPhase (x y : Int) : Nat × Nat := ((x % 2).toNat, (y % 2).toNat)

/-- The sample of input slot `c`. -/
abbrev inSample (s : State) (c : Nat) (x y : Int) : Int := load s.mem (s.slot c) x y

/-- A loaded sample as a layout command stores it (rule R251): unchanged, if it is a float's bit pattern or legal. Otherwise rules
R251 and R170 differ, and which of them holds is free (log entry 15). -/
def copiedValue (d : Slot) (v : Int) : Int :=
  if d.isFloat = true then v
  else if legal d.signed d.depth v then v
  else if Config.layoutKeepsIllegalSamples = true then v
  else wrap (Config.layoutLegalSample d.signed d.depth v) d.signed d.depth

/-- A component copied from the CFA image or planes, with C0's type (rule R251). -/
def copied (s : State) (w h subX : Nat) (f : Int → Int → Int) : Comp :=
  ⟨w, h, (s.slot 0).depth, (s.slot 0).signed, (s.slot 0).isFloat, subX, 1, fun x y => copiedValue (s.slot 0) (f x y)⟩

/-- The outputs of C2P and C2PS (rules R252, R253): plane `n` holds the samples of the `n`-th phase. -/
def planesOf (phases : List (Nat × Nat)) (s : State) : List Comp :=
  phases.map fun p =>
    copied s ((s.slot 0).width / 2) ((s.slot 0).height / 2) 1 (fun x y => inSample s 0 (2 * x + p.1) (2 * y + p.2))

/-- The output of P2C and P2CS (rules R255, R256): the sample of phase `n` of a cell comes from plane `n`. -/
def cfaOf (phases : List (Nat × Nat)) (s : State) : List Comp :=
  [copied s (2 * (s.slot 0).width) (2 * (s.slot 0).height) 1
    (fun x y => inSample s (phases.idxOf (coordPhase x y)) (x / 2) (y / 2))]

/-- The outputs of C2Y (rule R258). -/
def image422 (a : Nat) (s : State) : List Comp :=
  let at' (n : Nat) (i j : Int) : Int :=
    inSample s 0 (2 * i + ((phasesOf a).getD n (0, 0)).1) (2 * j + ((phasesOf a).getD n (0, 0)).2)
  [ copied s (s.slot 0).width ((s.slot 0).height / 2) 1 (fun x j => if x % 2 = 0 then at' 1 (x / 2) j else at' 2 (x / 2) j),
    copied s ((s.slot 0).width / 2) ((s.slot 0).height / 2) 2 (at' 0),
    copied s ((s.slot 0).width / 2) ((s.slot 0).height / 2) 2 (at' 3) ]

/-- The output of Y2C (rule R259). -/
def cfaOf422 (a : Nat) (s : State) : List Comp :=
  [copied s (s.slot 0).width (2 * (s.slot 0).height) 1
    (fun x y =>
      let n := (phasesOf a).idxOf (coordPhase x y)
      if n = 0 then inSample s 1 (x / 2) (y / 2)
      else if n = 1 then inSample s 0 (2 * (x / 2)) (y / 2)
      else if n = 2 then inSample s 0 (2 * (x / 2) + 1) (y / 2)
      else inSample s 2 (x / 2) (y / 2))]

/-- A CFA image in C0 that passes V2 and V3 (rules R224, R252). -/
abbrev CfaSizes (s : State) : Prop :=
  s.imgDepth.toNat = 1 ∧ (s.slot 0).width ≠ 0 ∧ (s.slot 0).height ≠ 0 ∧ (s.slot 0).width % 2 = 0 ∧ (s.slot 0).height % 2 = 0

/-- The slots `1 .. m - 1` have the sizes of C0, none of them 0, and `IMG_DEPTH` is `m` (V2 and V3 of rules R183, R255). -/
abbrev EqualSizes (s : State) (m : Nat) : Prop :=
  s.imgDepth.toNat = m ∧ (s.slot 0).width ≠ 0 ∧ (s.slot 0).height ≠ 0
    ∧ ∀ c < m, (s.slot c).width = (s.slot 0).width ∧ (s.slot c).height = (s.slot 0).height

/-- The slots `1 .. m - 1` have the `DEPTH`, `SIGNED` and `FLOAT` of C0 (V4 of rules R183, R255). -/
abbrev EqualFormats (s : State) (m : Nat) : Prop :=
  ∀ c < m, (s.slot c).depth = (s.slot 0).depth ∧ (s.slot c).signed = (s.slot 0).signed
    ∧ (s.slot c).isFloat = (s.slot 0).isFloat

/-- The sizes and the subsampling of a 4:2:2 image in C0 to C2 (rules R197, R259). -/
abbrev Shape422 (s : State) : Prop :=
  s.imgDepth.toNat = 3 ∧ (s.slot 0).width ≠ 0 ∧ (s.slot 0).height ≠ 0 ∧ (s.slot 0).width % 2 = 0
    ∧ (∀ c < 3, c ≠ 0 → (s.slot c).width = (s.slot 0).width / 2 ∧ (s.slot c).height = (s.slot 0).height
        ∧ (s.slot c).subX = 2 ∧ (s.slot c).subY = 1)
    ∧ (s.slot 0).subX = 1 ∧ (s.slot 0).subY = 1

/-- An integer luma or RGB depth a forward command accepts (V5 and V6 of rule R183). -/
abbrev ForwardDepth (s : State) : Prop := (s.slot 0).isFloat = false ∧ 1 ≤ (s.slot 0).depth ∧ (s.slot 0).depth ≤ 31

/-- The types an inverse command accepts (V4 to V6 of rule R183): an integer luma, and chroma of one bit more with `SIGNED = CS`. -/
abbrev InverseTypes (s : State) (m : Nat) : Prop :=
  (s.slot 0).isFloat = false ∧ 1 ≤ (s.slot 0).depth ∧ (s.slot 0).depth ≤ 31
    ∧ ∀ c < m, c ≠ 0 → (s.slot c).depth = (s.slot 0).depth + 1 ∧ (s.slot c).signed = s.cs ∧ (s.slot c).isFloat = false

/-- What a forward planar command accepts of the registers that describe its `m` input planes (rule R183). -/
abbrev ForwardInput (s : State) (m : Nat) : Prop := EqualSizes s m ∧ EqualFormats s m ∧ ForwardDepth s

/-- What an inverse planar command accepts of the registers that describe its `m` input planes (rule R183). -/
abbrev InverseInput (s : State) (m : Nat) : Prop := EqualSizes s m ∧ InverseTypes s m

/-- The bit depth `n` of the luma or the forward input (rule R180). -/
abbrev nOf (s : State) : Nat := (s.slot 0).depth

/-- The signedness of the luma or the forward input (rule R180). -/
abbrev sOf (s : State) : Bool := (s.slot 0).signed

/-- `off` (rule R181). -/
def offOf (s : State) (n : Nat) : Int := if s.cs then 0 else 2 ^ n

/-- A chroma sample with its offset removed (rule R181). -/
abbrev chromaIn (s : State) (c : Nat) (x y : Int) : Int := inSample s c x y - offOf s (nOf s)

/-- A luma output (rules R182, R184). -/
def lumaOut (s : State) (f : Int → Int → Int) : Comp :=
  ⟨(s.slot 0).width, (s.slot 0).height, nOf s, sOf s, false, 1, 1, fun x y => wrap (f x y) (sOf s) (nOf s)⟩

/-- A chroma or delta output, `1 / subX` as wide as C0 (rules R182, R184, R197). -/
def chromaOut (s : State) (subX : Nat) (f : Int → Int → Int) : Comp :=
  ⟨(s.slot 0).width / subX, (s.slot 0).height, nOf s + 1, s.cs, false, subX, 1,
    fun x y => wrap (f x y + offOf s (nOf s)) s.cs (nOf s + 1)⟩

/-- An output of an inverse command (rules R182, R184). -/
def restoredOut (s : State) (subX : Nat) (f : Int → Int → Int) : Comp :=
  ⟨(s.slot 0).width / subX, (s.slot 0).height, nOf s, sOf s, false, subX, 1, fun x y => clamp (f x y) (sOf s) (nOf s)⟩

/-- The outputs of RCT.F (rule R186). -/
def rctOuts (s : State) : List Comp :=
  [ lumaOut s (fun x y => asr (inSample s 0 x y + 2 * inSample s 1 x y + inSample s 2 x y) 2),
    chromaOut s 1 (fun x y => inSample s 2 x y - inSample s 1 x y),
    chromaOut s 1 (fun x y => inSample s 0 x y - inSample s 1 x y) ]

/-- The green of RCT.I and the green average of RCTD.I (rules R187, R190). -/
def rctGreen (s : State) (x y : Int) : Int := inSample s 0 x y - asr (chromaIn s 1 x y + chromaIn s 2 x y) 2

/-- The outputs of RCT.I (rule R187). -/
def rctBack (s : State) : List Comp :=
  [ restoredOut s 1 (fun x y => chromaIn s 2 x y + rctGreen s x y),
    restoredOut s 1 (rctGreen s),
    restoredOut s 1 (fun x y => chromaIn s 1 x y + rctGreen s x y) ]

/-- The green average of a forward command on four planes (rule R185). -/
def greenMean (s : State) (x y : Int) : Int := asr (inSample s 1 x y + inSample s 2 x y) 1

/-- The outputs of RCTD.F (rule R189). -/
def rctdOuts (s : State) : List Comp :=
  [ lumaOut s (fun x y => asr (inSample s 0 x y + 2 * greenMean s x y + inSample s 3 x y) 2),
    chromaOut s 1 (fun x y => inSample s 3 x y - greenMean s x y),
    chromaOut s 1 (fun x y => inSample s 0 x y - greenMean s x y),
    chromaOut s 1 (fun x y => inSample s 1 x y - inSample s 2 x y) ]

/-- The outputs of RCTD.I (rule R190). -/
def rctdBack (s : State) : List Comp :=
  [ restoredOut s 1 (fun x y => chromaIn s 2 x y + rctGreen s x y),
    restoredOut s 1 (fun x y => rctGreen s x y + chromaIn s 3 x y - asr (chromaIn s 3 x y) 1),
    restoredOut s 1 (fun x y => rctGreen s x y - asr (chromaIn s 3 x y) 1),
    restoredOut s 1 (fun x y => chromaIn s 1 x y + rctGreen s x y) ]

/-- `t` of YCGCO.F and YCGCOD.F, with blue in slot `b` (rules R192, R195). -/
def ycgcoT (s : State) (b : Nat) (x y : Int) : Int := inSample s b x y + asr (inSample s 0 x y - inSample s b x y) 1

/-- The outputs of YCGCO.F (rule R192). -/
def ycgcoOuts (s : State) : List Comp :=
  [ lumaOut s (fun x y => ycgcoT s 2 x y + asr (inSample s 1 x y - ycgcoT s 2 x y) 1),
    chromaOut s 1 (fun x y => inSample s 1 x y - ycgcoT s 2 x y),
    chromaOut s 1 (fun x y => inSample s 0 x y - inSample s 2 x y) ]

/-- `t` of YCGCO.I and YCGCOD.I (rules R193, R196). -/
def ycgcoBackT (s : State) (x y : Int) : Int := inSample s 0 x y - asr (chromaIn s 1 x y) 1

/-- `b` of YCGCO.I and YCGCOD.I (rules R193, R196). -/
def ycgcoBackB (s : State) (x y : Int) : Int := ycgcoBackT s x y - asr (chromaIn s 2 x y) 1

/-- The outputs of YCGCO.I (rule R193). -/
def ycgcoBack (s : State) : List Comp :=
  [ restoredOut s 1 (fun x y => ycgcoBackB s x y + chromaIn s 2 x y),
    restoredOut s 1 (fun x y => chromaIn s 1 x y + ycgcoBackT s x y),
    restoredOut s 1 (ycgcoBackB s) ]

/-- The outputs of YCGCOD.F (rule R195). -/
def ycgcodOuts (s : State) : List Comp :=
  [ lumaOut s (fun x y => ycgcoT s 3 x y + asr (greenMean s x y - ycgcoT s 3 x y) 1),
    chromaOut s 1 (fun x y => greenMean s x y - ycgcoT s 3 x y),
    chromaOut s 1 (fun x y => inSample s 0 x y - inSample s 3 x y),
    chromaOut s 1 (fun x y => inSample s 1 x y - inSample s 2 x y) ]

/-- The outputs of YCGCOD.I (rule R196). -/
def ycgcodBack (s : State) : List Comp :=
  let ga (x y : Int) : Int := chromaIn s 1 x y + ycgcoBackT s x y
  [ restoredOut s 1 (fun x y => ycgcoBackB s x y + chromaIn s 2 x y),
    restoredOut s 1 (fun x y => ga x y + chromaIn s 3 x y - asr (chromaIn s 3 x y) 1),
    restoredOut s 1 (fun x y => ga x y - asr (chromaIn s 3 x y) 1),
    restoredOut s 1 (ycgcoBackB s) ]

/-- `t` of RCT422.F in cell `i` of row `y` (rule R199). -/
def forwardT422 (s : State) (i y : Int) : Int :=
  asr ((inSample s 2 i y - inSample s 0 (2 * i) y) + (inSample s 1 i y - inSample s 0 (2 * i) y)) 2

/-- The outputs of RCT422.F (rules R197, R199). -/
def rct422Outs (s : State) : List Comp :=
  [ lumaOut s (fun x y => inSample s 0 x y + forwardT422 s (x / 2) y),
    chromaOut s 2 (fun i y => inSample s 2 i y - inSample s 0 (2 * i) y),
    chromaOut s 2 (fun i y => inSample s 1 i y - inSample s 0 (2 * i) y) ]

/-- The green RCT422.I stores (rule R200). -/
def green422 (s : State) (x y : Int) : Int :=
  wrap (inSample s 0 x y - asr (chromaIn s 1 (x / 2) y + chromaIn s 2 (x / 2) y) 2) (sOf s) (nOf s)

/-- The outputs of RCT422.I (rules R197, R200). -/
def rct422Back (s : State) : List Comp :=
  [ { restoredOut s 1 (fun _ _ => 0) with sample := green422 s },
    restoredOut s 2 (fun i y => chromaIn s 2 i y + green422 s (2 * i) y),
    restoredOut s 2 (fun i y => chromaIn s 1 i y + green422 s (2 * i) y) ]

/-! ### Words for the CFA-grid commands (`spec/45_lifting_cfa.md`) -/

/-- What a CFA-grid command accepts (V2 to V6 of rule R224), with the depths from `low` to `high`. -/
abbrev GridInput (s : State) (low high : Nat) : Prop :=
  CfaSizes s ∧ (s.slot 0).isFloat = false ∧ (s.slot 0).signed = s.cs ∧ low ≤ (s.slot 0).depth ∧ (s.slot 0).depth ≤ high

/-- The sum of the four mirrored diagonal neighbours (rule R223). -/
def diagSum (s : State) (P : Int → Int → Int) (x y : Int) : Int :=
  let w : Int := (s.slot 0).width
  let h : Int := (s.slot 0).height
  P (reflected (x - 1) w) (reflected (y - 1) h) + P (reflected (x + 1) w) (reflected (y - 1) h)
    + P (reflected (x - 1) w) (reflected (y + 1) h) + P (reflected (x + 1) w) (reflected (y + 1) h)

/-- The two mirrored neighbours of a G1 or B sample (rule R223): in the column when `gx = bx`. -/
def pairSum (s : State) (a : Nat) (P : Int → Int → Int) (x y : Int) : Int :=
  let w : Int := (s.slot 0).width
  let h : Int := (s.slot 0).height
  if ((phasesOf a).getD 1 (0, 0)).1 = ((phasesOf a).getD 3 (0, 0)).1 then P x (reflected (y - 1) h) + P x (reflected (y + 1) h)
  else P (reflected (x - 1) w) y + P (reflected (x + 1) w) y

/-- One pass (rule R226) over the positions of phase `n` of the arrangement (0 for R, 1 for G1, 2 for G2, 3 for B). -/
def pass (a m n : Nat) (nb : (Int → Int → Int) → Int → Int → Int) (sg bias : Int) (sh : Nat) (P : Int → Int → Int)
    (x y : Int) : Int :=
  if coordPhase x y = (phasesOf a).getD n (0, 0) then ww m (P x y + sg * asr (nb P x y + bias) sh) else P x y

/-- The sample at phase `n` of cell `(i, j)`. -/
def atPhase (a n : Nat) (P : Int → Int → Int) (i j : Int) : Int :=
  P (2 * i + ((phasesOf a).getD n (0, 0)).1) (2 * j + ((phasesOf a).getD n (0, 0)).2)

/-- The plane that holds `f00`, `f10`, `f01`, `f11` at the four fixed positions of a cell. -/
def inCells (f00 f10 f01 f11 : Int → Int → Int) (x y : Int) : Int :=
  if coordPhase x y = (0, 0) then f00 (x / 2) (y / 2)
  else if coordPhase x y = (1, 0) then f10 (x / 2) (y / 2)
  else if coordPhase x y = (0, 1) then f01 (x / 2) (y / 2)
  else f11 (x / 2) (y / 2)

/-- The plane that holds `r`, `g`, `k`, `b` at the positions of the arrangement. -/
def atPhases (a : Nat) (r g k b : Int → Int → Int) (x y : Int) : Int :=
  let n := (phasesOf a).idxOf (coordPhase x y)
  if n = 0 then r (x / 2) (y / 2) else if n = 1 then g (x / 2) (y / 2)
  else if n = 2 then k (x / 2) (y / 2) else b (x / 2) (y / 2)

/-- The output component of a CFA-grid command (rule R225). -/
def gridOut (s : State) (depth : Nat) (f : Int → Int → Int) : List Comp :=
  [⟨(s.slot 0).width, (s.slot 0).height, depth, s.cs, false, 1, 1, f⟩]

/-- `T2` of RCTX.F and of YDGCOCGX.F (rules R228, R232). -/
def greenPasses (s : State) (a m : Nat) : Int → Int → Int :=
  pass a m 1 (diagSum s) 1 4 3 (pass a m 2 (diagSum s) (-1) 2 2 (fun x y => ww m (inSample s 0 x y)))

/-- The samples RCTX.F stores (rule R228). -/
def rctxSamples (s : State) (a : Nat) : Int → Int → Int :=
  let m := nOf s + 1
  let off := offOf s (nOf s)
  let T2 := greenPasses s a m
  let cb (i j : Int) : Int := ww m (atPhase a 3 T2 i j - atPhase a 1 T2 i j)
  let cr (i j : Int) : Int := ww m (atPhase a 0 T2 i j - atPhase a 1 T2 i j)
  inCells
    (fun i j => wrap (ww m (atPhase a 1 T2 i j + asr (cb i j + cr i j) 2)) s.cs m)
    (fun i j => wrap (cb i j + off) s.cs m)
    (fun i j => wrap (cr i j + off) s.cs m)
    (fun i j => wrap (atPhase a 2 T2 i j + off) s.cs m)

/-- A stored sample of a cell, decoded (`dec` of rule R221). -/
def decoded (s : State) (m : Nat) (off : Int) (px py : Int) (i j : Int) : Int := ww m (inSample s 0 (2 * i + px) (2 * j + py) - off)

/-- The samples RCTX.I stores (rule R229); `m` is the depth of the transformed image. -/
def rctxRestored (s : State) (a : Nat) : Int → Int → Int :=
  let m := nOf s
  let off := offOf s (m - 1)
  let cb := decoded s m off 1 0
  let cr := decoded s m off 0 1
  let A (i j : Int) : Int := ww m (decoded s m 0 0 0 i j - asr (cb i j + cr i j) 2)
  let T2 := atPhases a (fun i j => ww m (cr i j + A i j)) A (decoded s m off 1 1) (fun i j => ww m (cb i j + A i j))
  let P0 := pass a m 2 (diagSum s) 1 2 2 (pass a m 1 (diagSum s) (-1) 4 3 T2)
  fun x y => clamp (P0 x y) s.cs (m - 1)

/-- The samples YDGCOCGX.F stores (rule R232). -/
def ydgcocgxSamples (s : State) (a : Nat) : Int → Int → Int :=
  let m := nOf s + 1
  let off := offOf s (nOf s)
  let T4 := pass a m 3 (diagSum s) 1 4 3 (pass a m 0 (diagSum s) (-1) 2 2 (greenPasses s a m))
  let T6 := pass a m 3 (pairSum s a) 1 2 2 (pass a m 1 (pairSum s a) (-1) 1 1 T4)
  inCells
    (fun i j => wrap (atPhase a 3 T6 i j) s.cs m)
    (fun i j => wrap (atPhase a 1 T6 i j + off) s.cs m)
    (fun i j => wrap (atPhase a 0 T6 i j + off) s.cs m)
    (fun i j => wrap (atPhase a 2 T6 i j + off) s.cs m)

/-- The samples YDGCOCGX.I stores (rule R233). -/
def ydgcocgxRestored (s : State) (a : Nat) : Int → Int → Int :=
  let m := nOf s
  let off := offOf s (m - 1)
  let T6 := atPhases a (decoded s m off 0 1) (decoded s m off 1 0) (decoded s m off 1 1) (decoded s m 0 0 0)
  let T4 := pass a m 1 (pairSum s a) 1 1 1 (pass a m 3 (pairSum s a) (-1) 2 2 T6)
  let T2 := pass a m 0 (diagSum s) 1 2 2 (pass a m 3 (diagSum s) (-1) 4 3 T4)
  let P0 := pass a m 2 (diagSum s) 1 2 2 (pass a m 1 (diagSum s) (-1) 4 3 T2)
  fun x y => clamp (P0 x y) s.cs (m - 1)

/-! ### Words for round trips -/

/-- Every sample of the first `m` slots is legal for its component (rule R10). -/
abbrev LegalSamples (s : State) (m : Nat) : Prop :=
  ∀ c < m, ∀ x < (s.slot c).width, ∀ y < (s.slot c).height, legal (s.slot c).signed (s.slot c).depth (inSample s c x y)

/-- Input slots of a command: the first `m`. -/
abbrev firstSlots (s : State) (m : Nat) : List Slot := (List.range m).map s.slot

/-- The image of `s` in its first `m` slots is the image of `u`: sizes, types and every sample. -/
def SameImage (s u : State) (m : Nat) : Prop :=
  s.imgDepth = u.imgDepth
    ∧ ∀ c < m, (u.slot c).width = (s.slot c).width ∧ (u.slot c).height = (s.slot c).height
        ∧ (u.slot c).depth = (s.slot c).depth ∧ (u.slot c).signed = (s.slot c).signed
        ∧ ∀ x y : Nat, x < (s.slot c).width → y < (s.slot c).height → inSample u c x y = inSample s c x y

/-- The image of `u` is the CFA image of `s`, every sample as a layout command stores it. -/
def CopiedImage (s u : State) : Prop :=
  s.imgDepth = u.imgDepth ∧ (u.slot 0).width = (s.slot 0).width ∧ (u.slot 0).height = (s.slot 0).height
    ∧ (u.slot 0).depth = (s.slot 0).depth ∧ (u.slot 0).signed = (s.slot 0).signed ∧ (u.slot 0).isFloat = (s.slot 0).isFloat
    ∧ ∀ x y : Nat, x < (s.slot 0).width → y < (s.slot 0).height → inSample u 0 x y = copiedValue (s.slot 0) (inSample s 0 x y)

/-! ### Words for the checks of rule R161 -/

/-- The checks of a command in their order, each with the code of its error: the first that fails ends the command in that error,
which changes nothing else (rules R161, R167, R285). -/
def FirstFailureRaises (i : Instr) (s : State) : List (Prop × Nat) → Prop
  | [] => True
  | (check, code) :: rest => (¬check → Raises i s code) ∧ (check → FirstFailureRaises i s rest)

/-- V1 (rule R152). -/
def arrangementCheck (a : Nat) : Prop × Nat := (a < 4, 4)

/-- V7 and V8 (rule R165). -/
def bufferChecks (s : State) (ins : List Slot) (outs : List Comp) : List (Prop × Nat) :=
  [(BuffersFit s ins outs, 6), (BuffersApart s ins outs, 7)]

/-- `etype` exists for each of the first `m` slots (V5). -/
abbrev AllTyped (s : State) (m : Nat) : Prop := ∀ c < m, ¬untyped (s.slot c)

/-- V2 and V3 of the commands on a 4:2:2 image (rules R162, R197, R259). -/
abbrev Sizes422 (s : State) : Prop :=
  s.imgDepth.toNat = 3 ∧ (s.slot 0).width ≠ 0 ∧ (s.slot 0).height ≠ 0 ∧ (s.slot 0).width % 2 = 0
    ∧ ∀ c < 3, c ≠ 0 → (s.slot c).width = (s.slot 0).width / 2 ∧ (s.slot c).height = (s.slot 0).height

/-- The subsampling V4 asks of a 4:2:2 image (rules R197, R259). -/
abbrev Subsampling422 (s : State) : Prop :=
  (s.slot 0).subX = 1 ∧ (s.slot 0).subY = 1 ∧ ∀ c < 3, c ≠ 0 → (s.slot c).subX = 2 ∧ (s.slot c).subY = 1

/-- V2 to V8 of C2P, C2PS and C2Y (rules R252, R253, R258). -/
def cfaChecks (s : State) (outs : List Comp) : List (Prop × Nat) :=
  (CfaSizes s, 1) :: (AllTyped s 1, 3) :: bufferChecks s [s.slot 0] outs

/-- V2 to V8 of P2C and P2CS (rules R255, R256). -/
def planeChecks (s : State) (outs : List Comp) : List (Prop × Nat) :=
  (EqualSizes s 4, 1) :: (EqualFormats s 4 ∧ ∀ c < 4, (s.slot c).subX = 1 ∧ (s.slot c).subY = 1, 2) :: (AllTyped s 4, 3)
    :: bufferChecks s (firstSlots s 4) outs

/-- V2 to V8 of Y2C (rule R259). -/
def copy422Checks (s : State) (outs : List Comp) : List (Prop × Nat) :=
  (Sizes422 s, 1) :: (EqualFormats s 3 ∧ Subsampling422 s, 2) :: (AllTyped s 3, 3) :: bufferChecks s (firstSlots s 3) outs

/-- V2 to V8 of a forward command on `m` planes; `sizes` is V2 and V3, `subs` what the 4:2:2 command adds to V4 (rules R183, R197). -/
def forwardChecks (s : State) (m : Nat) (sizes subs : Prop) (outs : List Comp) : List (Prop × Nat) :=
  (sizes, 1) :: (EqualFormats s m ∧ subs, 2) :: (AllTyped s m ∧ (s.slot 0).isFloat = false, 3) :: ((s.slot 0).depth ≤ 31, 5)
    :: bufferChecks s (firstSlots s m) outs

/-- V4 of an inverse command (rule R183): the slots after C0 agree, and C1 is the chroma of the luma in C0. -/
abbrev ChromaFormats (s : State) (m : Nat) : Prop :=
  (∀ c < m, c ≠ 0 → (s.slot c).depth = (s.slot 1).depth ∧ (s.slot c).signed = (s.slot 1).signed
      ∧ (s.slot c).isFloat = (s.slot 1).isFloat)
    ∧ (s.slot 1).isFloat = (s.slot 0).isFloat ∧ (s.slot 1).depth = (s.slot 0).depth + 1 ∧ (s.slot 1).signed = s.cs

/-- V2 to V8 of an inverse command on `m` planes, `sizes` and `subs` as for a forward one (rules R183, R197). -/
def inverseChecks (s : State) (m : Nat) (sizes subs : Prop) (outs : List Comp) : List (Prop × Nat) :=
  (sizes, 1) :: (ChromaFormats s m ∧ subs, 2) :: (AllTyped s m ∧ (s.slot 0).isFloat = false, 3) :: ((s.slot 1).depth ≤ 32, 5)
    :: bufferChecks s (firstSlots s m) outs

/-- V2 to V8 of a CFA-grid command; `depths` is its V6 (rule R224). -/
def gridChecks (s : State) (depths : Prop) (outs : List Comp) : List (Prop × Nat) :=
  (CfaSizes s, 1) :: (AllTyped s 1 ∧ (s.slot 0).isFloat = false ∧ (s.slot 0).signed = s.cs, 3) :: (depths, 5)
    :: bufferChecks s [s.slot 0] outs

end Sys2Proof.Claims

open Sys2Proof Sys2Proof.Machine Sys2Proof.Claims

/-! ## Reset, invariants -/

/-- Rule R55: after reset every register of rule R54 holds 0, whatever the size and the contents of MEM. -/
def Obligations.ResetRegistersReadZero : Prop :=
  ∀ (memLast : Word) (mem : Memory) (num : Nat), regRead (State.resetWith memLast mem) num = 0

/-- Rule R310: the host's reset clears every register; that MEM keeps its bytes is the model's choice (log entry 5). -/
def Obligations.HostResetClearsRegisters : Prop :=
  ∀ (s : State) (rest : List HostAction), s.host = .reset :: rest →
    ∃ t, step s = .next t ∧ (∀ num, regRead t num = 0) ∧ (∀ a, memGet t.mem a = memGet s.mem a)
      ∧ t.memLast = s.memLast ∧ t.host = rest ∧ t.replies = s.replies

/-- The invariant holds in `State.reset`. -/
def Obligations.ResetMeetsInvariant : Prop := Inv State.reset

/-- Every step keeps the invariant of the registers and of MEM (rules R35, R43, R49, R52, R53, R70). -/
def Obligations.StepKeepsInvariant : Prop := ∀ s t : State, Inv s → step s = .next t → Inv t

/-- Every step keeps it that a recorded error is one its command word can raise (rules R290, R295). -/
def Obligations.StepRecordsFittingErrors : Prop :=
  ∀ s t : State, recordsFittingErrors s → step s = .next t → recordsFittingErrors t

/-! ## Encoding and issue -/

/-- Decoding the word of a well-formed command gives the command back (rules R101 to R104, R108). -/
def Obligations.DecodeInvertsEncode : Prop := ∀ i : Instr, i.wellFormed = true → decodeWord (encode i) = .ok i

/-- A word that decodes is the word of the well-formed command it decodes to: no bit is ignored (rules R106, R107). -/
def Obligations.EncodeInvertsDecode : Prop :=
  ∀ (w : Word) (i : Instr), decodeWord w = .ok i → i.wellFormed = true ∧ encode i = w

/-- A few words of `spec/95_test_vectors.md` section 2, one of every family, decode to the command they stand for. -/
def Obligations.WrittenWordsDecode : Prop :=
  decodeWord 0x00000001#32 = .ok .errclr ∧ decodeWord 0x00003010#32 = .ok (.addr 3) ∧ decodeWord 0x00002012#32 = .ok (.sts 2)
    ∧ decodeWord 0x00000320#32 = .ok (.bpos 3) ∧ decodeWord 0x00000131#32 = .ok (.c2ps 1)
    ∧ decodeWord 0x00000235#32 = .ok (.y2c 2) ∧ decodeWord 0x00000043#32 = .ok .rctdI
    ∧ decodeWord 0x00000144#32 = .ok (.rctxF 1) ∧ decodeWord 0x0000024B#32 = .ok (.ydgcocgxI 2)
    ∧ decodeWord 0x0000004D#32 = .ok .rct422I

/-- Rules R107 and R291: with no error recorded, a word that matches no row of the opcode map raises `IllegalCommand` with the word
in `ERRINFO`, and nothing else changes. -/
def Obligations.UnmatchedWordsRaiseIllegalCommand : Prop :=
  ∀ (s : State) (v : Int) (rest : List HostAction), s.host = .regWrite 0 v :: rest → errFlag s.status = false →
    (∀ r ∈ opcodeTable, BitVec.ofInt 32 v &&& r.format.mask ≠ r.pattern) →
    step s = .next { s with
      host := rest
      err := 8#32
      errinfo := BitVec.ofInt 32 v
      status := (s.status ||| 2#32) &&& ~~~1#32 }

/-- A step whose command word decodes to `i` runs `i`, unless an error is recorded and `i` is not ERRCLR (rule R100); around it the
step only takes the host's action off the list. -/
def Obligations.StepRunsDecodedCommand : Prop :=
  ∀ (s : State) (v : Int) (rest : List HostAction) (i : Instr), s.host = .regWrite 0 v :: rest →
    decodeWord (BitVec.ofInt 32 v) = .ok i → (errFlag s.status = false ∨ i = .errclr) →
    step s = exec i { s with host := rest }

/-- Rule R292: while `STATUS.ERR` is 1 a word other than ERRCLR's does nothing at all; the host's other accesses work as always. -/
def Obligations.CommandsIgnoredWhileErrorRecorded : Prop :=
  ∀ (s : State) (rest : List HostAction), errFlag s.status = true →
    (∀ v, s.host = .regWrite 0 v :: rest → BitVec.ofInt 32 v ≠ 0x00000001#32 → step s = .next { s with host := rest })
      ∧ (∀ num v, s.host = .regWrite num v :: rest → num ≠ 0 → step s = .next (regWrite { s with host := rest } num v))
      ∧ (∀ num, s.host = .regRead num :: rest →
          step s = .next { s with host := rest, replies := regRead s num :: s.replies })
      ∧ (∀ a k, s.host = .memRead a k :: rest → 1 ≤ k → a + k ≤ s.memSize →
          step s = .next { s with host := rest, replies := memRead s.mem a k :: s.replies })
      ∧ (∀ a k v, s.host = .memWrite a k v :: rest → 1 ≤ k → a + k ≤ s.memSize →
          step s = .next { s with host := rest, mem := memWrite s.mem a k v })

/-- Rules R160, R290, R293, R295, R319: every command ends in a next state; either it completes, or it raises one error that rule
R295 allows it and changes nothing else. No command writes `X`, `Y`, `WDATA`, `CTRL` or an `OUT_BASE` (rules R32, R48). -/
def Obligations.EveryCommandCompletesOrRaisesOneError : Prop :=
  ∀ (i : Instr) (s : State), ∃ t, exec i s = .next t
    ∧ ((∃ e ∈ mayRaise i, t = { s with err := e.code, errinfo := encode i, status := (s.status ||| 2#32) &&& ~~~1#32 })
      ∨ (doneFlag t.status = true ∧ (i ≠ .errclr → t.status = doneStatus s ∧ t.err = s.err ∧ t.errinfo = s.errinfo)
        ∧ t.x = s.x ∧ t.y = s.y ∧ t.wdata = s.wdata ∧ t.ctrl = s.ctrl ∧ t.outBase = s.outBase
        ∧ t.memLast = s.memLast ∧ t.host = s.host ∧ t.replies = s.replies))

/-! ## Sequencer -/

/-- Rule R121: NOP sets `DONE` and nothing else; it is not executed while an error is recorded. -/
def Obligations.NopCompletes : Prop :=
  StandsFor 0x00000000#32 .nop
    ∧ (∀ s : State, exec .nop s = .next { s with status := doneStatus s })
    ∧ (∀ (s : State) (rest : List HostAction), s.host = .regWrite 0 0 :: rest → errFlag s.status = true →
        step s = .next { s with host := rest })
    ∧ (∀ (memLast : Word) (mem : Memory) (num : Nat),
        ∃ t, step { State.resetWith memLast mem with host := [.regWrite 0 0] } = .next t
          ∧ regRead t num = if num = 0x01 then 1 else 0)

/-- Rule R122: ERRCLR clears the recorded error and sets `DONE`; it is the only command that runs while an error is recorded, and it
restores nothing else. -/
def Obligations.ErrclrCompletes : Prop :=
  StandsFor 0x00000001#32 .errclr
    ∧ (∀ s : State, exec .errclr s =
        .next { s with err := 0#32, errinfo := 0#32, status := (s.status &&& ~~~2#32) ||| 1#32 })
    ∧ (∀ (s : State) (rest : List HostAction), s.host = .regWrite 0 1 :: rest →
        step s = .next { s with
          host := rest
          err := 0#32
          errinfo := 0#32
          status := (s.status &&& ~~~2#32) ||| 1#32 })
    ∧ (∀ (s : State) (v : Int) (rest : List HostAction), s.host = .regWrite 0 v :: rest → errFlag s.status = true →
        BitVec.ofInt 32 v ≠ 0x00000001#32 → step s = .next { s with host := rest })

/-! ## Accessor -/

/-- Rule R74: the table of element types, and that every other combination has none. Rules R75 and R78: `Load` of a sample is the
number its element's bytes spell, two's complement for int8 .. int64 and unsigned otherwise. -/
def Obligations.ElementTypeAndLoad : Prop :=
  ∀ d : Slot,
    (∀ r ∈ typeRows, r.describes d → ∃ t, etype d = some t ∧ t.code = r.code ∧ t.bytes = r.bytes)
      ∧ (untyped d → etype d = none)
      ∧ ∀ r ∈ typeRows, r.describes d → ∀ (m : Memory) (x y : Int),
        let pattern := pattern64 r (memRead m (sampleAddr d x y).toNat r.bytes)
        load m d x y = if r.code ∈ [0, 2, 4, 6] then pattern.toInt else pattern.toNat

/-- Rule R131: TYPEOF gives the code of the element type, or raises `UnsupportedSampleType`. -/
def Obligations.TypeofCompletes : Prop :=
  ∀ (c : Nat) (s : State),
    (c < 4 → StandsFor (0x00000013#32 ||| BitVec.ofNat 32 c <<< 12) (.typeof c))
      ∧ (∀ r ∈ typeRows, r.describes (s.slot c) →
        exec (.typeof c) s = .next { s with rdata := BitVec.ofNat 64 r.code, status := doneStatus s })
      ∧ (untyped (s.slot c) → Raises (.typeof c) s 3)

/-- Rule R132: ADDR gives the address of an element inside MEM, and raises `UnsupportedSampleType` before `OutOfRange`. -/
def Obligations.AddrCompletes : Prop :=
  ∀ (c : Nat) (s : State),
    (c < 4 → StandsFor (0x00000010#32 ||| BitVec.ofNat 32 c <<< 12) (.addr c))
      ∧ (∀ r ∈ typeRows, r.describes (s.slot c) →
        (inside s (plainAddr s c) r.bytes →
          exec (.addr c) s = .next { s with raddr := BitVec.ofInt 32 (plainAddr s c), status := doneStatus s })
        ∧ (¬inside s (plainAddr s c) r.bytes → Raises (.addr c) s 6))
      ∧ (untyped (s.slot c) → Raises (.addr c) s 3)

/-- Rule R133: LDS gives the address and the element, sign- or zero-extended to 64 bits; its errors are those of ADDR. -/
def Obligations.LdsCompletes : Prop :=
  ∀ (c : Nat) (s : State),
    (c < 4 → StandsFor (0x00000011#32 ||| BitVec.ofNat 32 c <<< 12) (.lds c))
      ∧ (∀ r ∈ typeRows, r.describes (s.slot c) →
        (inside s (plainAddr s c) r.bytes →
          exec (.lds c) s = .next { s with
            raddr := BitVec.ofInt 32 (plainAddr s c)
            rdata := pattern64 r (memRead s.mem (plainAddr s c).toNat r.bytes)
            status := doneStatus s })
        ∧ (¬inside s (plainAddr s c) r.bytes → Raises (.lds c) s 6))
      ∧ (untyped (s.slot c) → Raises (.lds c) s 3)

/-- Rule R134: STS stores the low `K` bytes of `WDATA`, lowest first, and nothing else in MEM; `RDATA` is unchanged; its errors are
those of ADDR. -/
def Obligations.StsCompletes : Prop :=
  ∀ (c : Nat) (s : State),
    (c < 4 → StandsFor (0x00000012#32 ||| BitVec.ofNat 32 c <<< 12) (.sts c))
      ∧ (∀ r ∈ typeRows, r.describes (s.slot c) →
        (inside s (plainAddr s c) r.bytes →
          ∃ t, exec (.sts c) s = .next t
            ∧ { t with mem := s.mem } =
                { s with raddr := BitVec.ofInt 32 (plainAddr s c), status := doneStatus s }
            ∧ (∀ j < r.bytes, memGet t.mem ((plainAddr s c).toNat + j) = s.wdata.extractLsb' (8 * j) 8)
            ∧ ∀ a : Nat, a < (plainAddr s c).toNat ∨ (plainAddr s c).toNat + r.bytes ≤ a → memGet t.mem a = memGet s.mem a)
        ∧ (¬inside s (plainAddr s c) r.bytes → Raises (.sts c) s 6))
      ∧ (untyped (s.slot c) → Raises (.sts c) s 3)

/-- Rules R140 to R142: MADDR gives the address of the edge-mirrored sample; a coordinate still outside after one reflection, or an
element outside MEM, raises `OutOfRange`, and a slot without element type `UnsupportedSampleType` before either. -/
def Obligations.MaddrCompletes : Prop :=
  ∀ (c : Nat) (s : State),
    (c < 4 → StandsFor (0x00000014#32 ||| BitVec.ofNat 32 c <<< 12) (.maddr c))
      ∧ (∀ r ∈ typeRows, r.describes (s.slot c) →
        (mirrorInside s c → inside s (mirroredAddr s c) r.bytes →
          exec (.maddr c) s = .next { s with raddr := BitVec.ofInt 32 (mirroredAddr s c), status := doneStatus s })
        ∧ (mirrorInside s c → ¬inside s (mirroredAddr s c) r.bytes → Raises (.maddr c) s 6)
        ∧ (¬mirrorInside s c → Raises (.maddr c) s 6))
      ∧ (untyped (s.slot c) → Raises (.maddr c) s 3)

/-- Rule R143: LDM gives the address and the element of the edge-mirrored sample; its errors are those of MADDR. -/
def Obligations.LdmCompletes : Prop :=
  ∀ (c : Nat) (s : State),
    (c < 4 → StandsFor (0x00000015#32 ||| BitVec.ofNat 32 c <<< 12) (.ldm c))
      ∧ (∀ r ∈ typeRows, r.describes (s.slot c) →
        (mirrorInside s c → inside s (mirroredAddr s c) r.bytes →
          exec (.ldm c) s = .next { s with
            raddr := BitVec.ofInt 32 (mirroredAddr s c)
            rdata := pattern64 r (memRead s.mem (mirroredAddr s c).toNat r.bytes)
            status := doneStatus s })
        ∧ (mirrorInside s c → ¬inside s (mirroredAddr s c) r.bytes → Raises (.ldm c) s 6)
        ∧ (¬mirrorInside s c → Raises (.ldm c) s 6))
      ∧ (untyped (s.slot c) → Raises (.ldm c) s 3)

/-- Rule R76: the reflection and the band in which one reflection lands inside; that it keeps parity and the two edge cases, which
the rule marks as derived from its formula. -/
def Obligations.MirrorReflectsOnce : Prop :=
  ∀ i n : Int, 1 ≤ n →
    (i < 0 → mirror i n = -i) ∧ (i ≥ n → mirror i n = 2 * (n - 1) - i) ∧ (0 ≤ i → i < n → mirror i n = i)
      ∧ ((0 ≤ mirror i n ∧ mirror i n ≤ n - 1) ↔ (-(n - 1) ≤ i ∧ i ≤ 2 * (n - 1)))
      ∧ mirror i n % 2 = i % 2 ∧ mirror (-1) n = 1 ∧ mirror n n = n - 2

/-! ## Arrangement -/

/-- Rule R151: the four rows of the table, that each is a permutation of the four phases, and the three facts the rule marks as
derived by inspection. (That the letters spell the cell in raster order and which green is G1 are the spec's own readings.) -/
def Obligations.ArrangementTable : Prop :=
  (∀ a < 4, ∃ arr, arrangementOf a = some arr
      ∧ [(pos arr).r, (pos arr).g, (pos arr).k, (pos arr).b].map (fun p => (p.x.val, p.y.val)) = phasesOf a)
    ∧ ∀ arr : Arrangement,
      let p := pos arr
      [p.r, p.g, p.k, p.b].Perm [⟨0, 0⟩, ⟨1, 0⟩, ⟨0, 1⟩, ⟨1, 1⟩]
        ∧ p.b.x = 1 - p.r.x ∧ p.b.y = 1 - p.r.y ∧ p.k.x = 1 - p.g.x ∧ p.k.y = 1 - p.g.y
        ∧ (vert p = true ↔ p.g.x = p.b.x) ∧ (vert p = false ↔ p.g.y = p.b.y)
        ∧ (vert p = true ↔ arr = .grbg ∨ arr = .rggb)

/-- Rule R153: BPOS gives the packed table row, or raises `UnknownArrangement`. -/
def Obligations.BposCompletes : Prop :=
  ∀ s : State,
    (∀ a < 16, StandsFor (0x00000020#32 ||| BitVec.ofNat 32 a <<< 8) (.bpos a))
      ∧ exec (.bpos 0) s = .next { s with rdata := 0xB1#64, status := doneStatus s }
      ∧ exec (.bpos 1) s = .next { s with rdata := 0xE4#64, status := doneStatus s }
      ∧ exec (.bpos 2) s = .next { s with rdata := 0x72#64, status := doneStatus s }
      ∧ exec (.bpos 3) s = .next { s with rdata := 0x27#64, status := doneStatus s }
      ∧ ∀ a, 4 ≤ a → a < 16 → Raises (.bpos a) s 4

/-- Rule R154: BPARSE gives the code of one of the four strings, and raises `UnknownArrangement` on anything else. (The ASCII codes
are marked by the rule as general knowledge.) -/
def Obligations.BparseCompletes : Prop :=
  ∀ s : State,
    StandsFor 0x00000021#32 .bparse
      ∧ (s.wdata = 0x67627267#64 → exec .bparse s = .next { s with rdata := 0#64, status := doneStatus s })
      ∧ (s.wdata = 0x62676772#64 → exec .bparse s = .next { s with rdata := 1#64, status := doneStatus s })
      ∧ (s.wdata = 0x67726267#64 → exec .bparse s = .next { s with rdata := 2#64, status := doneStatus s })
      ∧ (s.wdata = 0x72676762#64 → exec .bparse s = .next { s with rdata := 3#64, status := doneStatus s })
      ∧ (s.wdata ≠ 0x67627267#64 → s.wdata ≠ 0x62676772#64 → s.wdata ≠ 0x67726267#64 → s.wdata ≠ 0x72676762#64 →
          Raises .bparse s 4)

/-- Rule R152: a code 4 to 15 names no arrangement, and every command of format A raises `UnknownArrangement` on it, whatever else
is wrong with its operands. -/
def Obligations.UnknownArrangementComesFirst : Prop :=
  ∀ (a : Nat) (s : State), 4 ≤ a → a < 16 →
    arrangementOf a = none
      ∧ ∀ i ∈ [Instr.bpos a, .c2ps a, .p2cs a, .c2y a, .y2c a, .rctxF a, .rctxI a, .ydgcocgxF a, .ydgcocgxI a], Raises i s 4

/-! ## Layout converter -/

/-- Rule R252: C2P takes the four phases of a CFA image in raster order into four planes.
What becomes of an integer sample outside the legal range is left free between rules R251 and R170: the model's choice, log
entry 15. -/
def Obligations.C2pConverts : Prop :=
  ∀ s : State, CfaSizes s → ¬untyped (s.slot 0) → BuffersFit s [s.slot 0] (planesOf rasterPhases s) →
    BuffersApart s [s.slot 0] (planesOf rasterPhases s) →
    ConvertsTo .c2p s (planesOf rasterPhases s) ((s.slot 0).width / 2) ((s.slot 0).height / 2)

/-- Rule R253: C2PS takes R, G1, G2, B of a CFA image into four planes.
What becomes of an integer sample outside the legal range is left free between rules R251 and R170: the model's choice, log
entry 15. -/
def Obligations.C2psConverts : Prop :=
  ∀ (a : Nat) (s : State), a < 4 → CfaSizes s → ¬untyped (s.slot 0) → BuffersFit s [s.slot 0] (planesOf (phasesOf a) s) →
    BuffersApart s [s.slot 0] (planesOf (phasesOf a) s) →
    ConvertsTo (.c2ps a) s (planesOf (phasesOf a) s) ((s.slot 0).width / 2) ((s.slot 0).height / 2)

/-- Rule R255: P2C puts four planes into the phases of a CFA image in raster order.
What becomes of an integer sample outside the legal range is left free between rules R251 and R170: the model's choice, log
entry 15. -/
def Obligations.P2cConverts : Prop :=
  ∀ s : State, EqualSizes s 4 → EqualFormats s 4 → (∀ c < 4, (s.slot c).subX = 1 ∧ (s.slot c).subY = 1) →
    ¬untyped (s.slot 0) → BuffersFit s (firstSlots s 4) (cfaOf rasterPhases s) →
    BuffersApart s (firstSlots s 4) (cfaOf rasterPhases s) →
    ConvertsTo .p2c s (cfaOf rasterPhases s) (2 * (s.slot 0).width) (2 * (s.slot 0).height)

/-- Rule R256: P2CS puts the planes R, G1, G2, B into the phases of an arrangement.
What becomes of an integer sample outside the legal range is left free between rules R251 and R170: the model's choice, log
entry 15. -/
def Obligations.P2csConverts : Prop :=
  ∀ (a : Nat) (s : State), a < 4 → EqualSizes s 4 → EqualFormats s 4 → (∀ c < 4, (s.slot c).subX = 1 ∧ (s.slot c).subY = 1) →
    ¬untyped (s.slot 0) → BuffersFit s (firstSlots s 4) (cfaOf (phasesOf a) s) →
    BuffersApart s (firstSlots s 4) (cfaOf (phasesOf a) s) →
    ConvertsTo (.p2cs a) s (cfaOf (phasesOf a) s) (2 * (s.slot 0).width) (2 * (s.slot 0).height)

/-- Rule R258: C2Y takes a CFA image into a 4:2:2 image with green as luma.
What becomes of an integer sample outside the legal range is left free between rules R251 and R170: the model's choice, log
entry 15. -/
def Obligations.C2yConverts : Prop :=
  ∀ (a : Nat) (s : State), a < 4 → CfaSizes s → ¬untyped (s.slot 0) → BuffersFit s [s.slot 0] (image422 a s) →
    BuffersApart s [s.slot 0] (image422 a s) →
    ConvertsTo (.c2y a) s (image422 a s) (s.slot 0).width ((s.slot 0).height / 2)

/-- Rule R259: Y2C takes a 4:2:2 image back into a CFA image.
What becomes of an integer sample outside the legal range is left free between rules R251 and R170: the model's choice, log
entry 15. -/
def Obligations.Y2cConverts : Prop :=
  ∀ (a : Nat) (s : State), a < 4 → Shape422 s → EqualFormats s 3 → ¬untyped (s.slot 0) →
    BuffersFit s (firstSlots s 3) (cfaOf422 a s) → BuffersApart s (firstSlots s 3) (cfaOf422 a s) →
    ConvertsTo (.y2c a) s (cfaOf422 a s) (s.slot 0).width (2 * (s.slot 0).height)

/-! ## Planar lifting -/

/-- Rule R186. -/
def Obligations.RctForwardConverts : Prop :=
  ∀ s : State, ForwardInput s 3 → BuffersFit s (firstSlots s 3) (rctOuts s) → BuffersApart s (firstSlots s 3) (rctOuts s) →
    ConvertsTo .rctF s (rctOuts s) (s.slot 0).width (s.slot 0).height

/-- Rule R187. -/
def Obligations.RctInverseConverts : Prop :=
  ∀ s : State, InverseInput s 3 → BuffersFit s (firstSlots s 3) (rctBack s) → BuffersApart s (firstSlots s 3) (rctBack s) →
    ConvertsTo .rctI s (rctBack s) (s.slot 0).width (s.slot 0).height

/-- Rule R189. -/
def Obligations.RctdForwardConverts : Prop :=
  ∀ s : State, ForwardInput s 4 → BuffersFit s (firstSlots s 4) (rctdOuts s) → BuffersApart s (firstSlots s 4) (rctdOuts s) →
    ConvertsTo .rctdF s (rctdOuts s) (s.slot 0).width (s.slot 0).height

/-- Rule R190. -/
def Obligations.RctdInverseConverts : Prop :=
  ∀ s : State, InverseInput s 4 → BuffersFit s (firstSlots s 4) (rctdBack s) → BuffersApart s (firstSlots s 4) (rctdBack s) →
    ConvertsTo .rctdI s (rctdBack s) (s.slot 0).width (s.slot 0).height

/-- Rule R192. -/
def Obligations.YcgcoForwardConverts : Prop :=
  ∀ s : State, ForwardInput s 3 → BuffersFit s (firstSlots s 3) (ycgcoOuts s) → BuffersApart s (firstSlots s 3) (ycgcoOuts s) →
    ConvertsTo .ycgcoF s (ycgcoOuts s) (s.slot 0).width (s.slot 0).height

/-- Rule R193. -/
def Obligations.YcgcoInverseConverts : Prop :=
  ∀ s : State, InverseInput s 3 → BuffersFit s (firstSlots s 3) (ycgcoBack s) → BuffersApart s (firstSlots s 3) (ycgcoBack s) →
    ConvertsTo .ycgcoI s (ycgcoBack s) (s.slot 0).width (s.slot 0).height

/-- Rule R195. -/
def Obligations.YcgcodForwardConverts : Prop :=
  ∀ s : State, ForwardInput s 4 → BuffersFit s (firstSlots s 4) (ycgcodOuts s) →
    BuffersApart s (firstSlots s 4) (ycgcodOuts s) →
    ConvertsTo .ycgcodF s (ycgcodOuts s) (s.slot 0).width (s.slot 0).height

/-- Rule R196. -/
def Obligations.YcgcodInverseConverts : Prop :=
  ∀ s : State, InverseInput s 4 → BuffersFit s (firstSlots s 4) (ycgcodBack s) →
    BuffersApart s (firstSlots s 4) (ycgcodBack s) →
    ConvertsTo .ycgcodI s (ycgcodBack s) (s.slot 0).width (s.slot 0).height

/-- Rules R197 and R199. -/
def Obligations.Rct422ForwardConverts : Prop :=
  ∀ s : State, Shape422 s → EqualFormats s 3 → ForwardDepth s → BuffersFit s (firstSlots s 3) (rct422Outs s) →
    BuffersApart s (firstSlots s 3) (rct422Outs s) →
    ConvertsTo .rct422F s (rct422Outs s) (s.slot 0).width (s.slot 0).height

/-- Rules R197 and R200. -/
def Obligations.Rct422InverseConverts : Prop :=
  ∀ s : State, Shape422 s → InverseTypes s 3 → BuffersFit s (firstSlots s 3) (rct422Back s) →
    BuffersApart s (firstSlots s 3) (rct422Back s) →
    ConvertsTo .rct422I s (rct422Back s) (s.slot 0).width (s.slot 0).height

/-! ## CFA-grid lifting -/

/-- Rule R228. -/
def Obligations.RctxForwardConverts : Prop :=
  ∀ (a : Nat) (s : State), a < 4 → GridInput s 1 31 → BuffersFit s [s.slot 0] (gridOut s (nOf s + 1) (rctxSamples s a)) →
    BuffersApart s [s.slot 0] (gridOut s (nOf s + 1) (rctxSamples s a)) →
    ConvertsTo (.rctxF a) s (gridOut s (nOf s + 1) (rctxSamples s a)) (s.slot 0).width (s.slot 0).height

/-- Rule R229. -/
def Obligations.RctxInverseConverts : Prop :=
  ∀ (a : Nat) (s : State), a < 4 → GridInput s 2 32 → BuffersFit s [s.slot 0] (gridOut s (nOf s - 1) (rctxRestored s a)) →
    BuffersApart s [s.slot 0] (gridOut s (nOf s - 1) (rctxRestored s a)) →
    ConvertsTo (.rctxI a) s (gridOut s (nOf s - 1) (rctxRestored s a)) (s.slot 0).width (s.slot 0).height

/-- Rule R232. -/
def Obligations.YdgcocgxForwardConverts : Prop :=
  ∀ (a : Nat) (s : State), a < 4 → GridInput s 1 31 → BuffersFit s [s.slot 0] (gridOut s (nOf s + 1) (ydgcocgxSamples s a)) →
    BuffersApart s [s.slot 0] (gridOut s (nOf s + 1) (ydgcocgxSamples s a)) →
    ConvertsTo (.ydgcocgxF a) s (gridOut s (nOf s + 1) (ydgcocgxSamples s a)) (s.slot 0).width (s.slot 0).height

/-- Rule R233. -/
def Obligations.YdgcocgxInverseConverts : Prop :=
  ∀ (a : Nat) (s : State), a < 4 → GridInput s 2 32 → BuffersFit s [s.slot 0] (gridOut s (nOf s - 1) (ydgcocgxRestored s a)) →
    BuffersApart s [s.slot 0] (gridOut s (nOf s - 1) (ydgcocgxRestored s a)) →
    ConvertsTo (.ydgcocgxI a) s (gridOut s (nOf s - 1) (ydgcocgxRestored s a)) (s.slot 0).width (s.slot 0).height

/-- Rule R226: what a pass stores, that it reads only positions it leaves unchanged, and that the pass of the opposite sign undoes
it, on every plane of signed `m`-bit values of a size the commands admit. -/
def Obligations.LiftPassInverts : Prop :=
  ∀ (W H : Int) (m : Nat) (P : Plane) (p : Phase) (sg bias : Int) (sh : Nat) (nb : Plane → Plane),
    2 ≤ W → 2 ≤ H → W % 2 = 0 → H % 2 = 0 → 1 ≤ m → (nb = diag W H ∨ nb = pair W H true ∨ nb = pair W H false) →
    (∀ x y : Int, 0 ≤ x → x < W → 0 ≤ y → y < H → legal true m (P x y)) →
    ∀ x y : Int, 0 ≤ x → x < W → 0 ≤ y → y < H →
      lift m (lift m P p nb sg bias sh) p nb (-sg) bias sh x y = P x y
        ∧ (phaseOf x y = p → lift m P p nb sg bias sh x y = ww m (P x y + sg * asr (nb P x y + bias) sh))
        ∧ (phaseOf x y ≠ p → lift m P p nb sg bias sh x y = P x y)
        ∧ (phaseOf x y = p → ∀ Q : Plane, (∀ u v, phaseOf u v ≠ p → Q u v = P u v) → nb Q x y = nb P x y)

/-- Rule R170: a lifting command that completes leaves legal samples in every component, whatever samples it was given. So does a
layout command on integers, if its input is legal, or if rule R170 and not R251 holds for illegal samples (which of the two does is
left free: the model's choice, log entry 15). -/
def Obligations.ConversionsStoreLegalSamples : Prop :=
  ∀ (i : Instr) (s t : State), exec i s = .next t → errFlag s.status = false → errFlag t.status = false →
    ((i ∈ [Instr.rctF, .rctI, .rctdF, .rctdI, .ycgcoF, .ycgcoI, .ycgcodF, .ycgcodI, .rct422F, .rct422I]
        ∨ ∃ a, i = .rctxF a ∨ i = .rctxI a ∨ i = .ydgcocgxF a ∨ i = .ydgcocgxI a) →
      1 ≤ t.imgDepth.toNat ∧ t.imgDepth.toNat ≤ 4 ∧ LegalSamples t t.imgDepth.toNat)
    ∧ ((i ∈ [Instr.c2p, .p2c] ∨ ∃ a, i = .c2ps a ∨ i = .p2cs a ∨ i = .c2y a ∨ i = .y2c a) → (s.slot 0).isFloat = false →
      (Config.layoutKeepsIllegalSamples = false ∨ LegalSamples s s.imgDepth.toNat) →
      1 ≤ t.imgDepth.toNat ∧ t.imgDepth.toNat ≤ 4 ∧ LegalSamples t t.imgDepth.toNat)

/-! ## Refusals in the order of rule R161 -/

/-- Rules R161, R165, R252, R253, R255, R256, R258, R259: the checks of the six layout commands, each with the error it raises, in
their order. -/
def Obligations.LayoutChecksInOrder : Prop :=
  ∀ (a : Nat) (s : State), a < 16 →
    FirstFailureRaises .c2p s (cfaChecks s (planesOf rasterPhases s))
      ∧ FirstFailureRaises (.c2ps a) s (arrangementCheck a :: cfaChecks s (planesOf (phasesOf a) s))
      ∧ FirstFailureRaises .p2c s (planeChecks s (cfaOf rasterPhases s))
      ∧ FirstFailureRaises (.p2cs a) s (arrangementCheck a :: planeChecks s (cfaOf (phasesOf a) s))
      ∧ FirstFailureRaises (.c2y a) s (arrangementCheck a :: cfaChecks s (image422 a s))
      ∧ FirstFailureRaises (.y2c a) s (arrangementCheck a :: copy422Checks s (cfaOf422 a s))

/-- Rules R161, R165, R183, R197: the checks of the ten planar lifting commands, forward, inverse and 4:2:2, each with the error it
raises, in their order. -/
def Obligations.PlanarChecksInOrder : Prop :=
  ∀ s : State,
    (∀ p ∈ [(Instr.rctF, 3, rctOuts s), (.ycgcoF, 3, ycgcoOuts s), (.rctdF, 4, rctdOuts s), (.ycgcodF, 4, ycgcodOuts s)],
        FirstFailureRaises p.1 s (forwardChecks s p.2.1 (EqualSizes s p.2.1) True p.2.2))
      ∧ (∀ p ∈ [(Instr.rctI, 3, rctBack s), (.ycgcoI, 3, ycgcoBack s), (.rctdI, 4, rctdBack s), (.ycgcodI, 4, ycgcodBack s)],
        FirstFailureRaises p.1 s (inverseChecks s p.2.1 (EqualSizes s p.2.1) True p.2.2))
      ∧ FirstFailureRaises .rct422F s (forwardChecks s 3 (Sizes422 s) (Subsampling422 s) (rct422Outs s))
      ∧ FirstFailureRaises .rct422I s (inverseChecks s 3 (Sizes422 s) (Subsampling422 s) (rct422Back s))

/-- Rules R161, R165, R224: the checks of the four CFA-grid commands, each with the error it raises, in their order. Rules R171
(item 4), R224 and R252: every CFA command refuses an odd or zero size with `InvalidDimensions` and leaves everything else as it
was. -/
def Obligations.CfaGridChecksInOrder : Prop :=
  (∀ (a : Nat) (s : State), a < 16 →
    FirstFailureRaises (.rctxF a) s
        (arrangementCheck a :: gridChecks s (nOf s ≤ 31) (gridOut s (nOf s + 1) (rctxSamples s a)))
      ∧ FirstFailureRaises (.rctxI a) s
        (arrangementCheck a :: gridChecks s (2 ≤ nOf s ∧ nOf s ≤ 32) (gridOut s (nOf s - 1) (rctxRestored s a)))
      ∧ FirstFailureRaises (.ydgcocgxF a) s
        (arrangementCheck a :: gridChecks s (nOf s ≤ 31) (gridOut s (nOf s + 1) (ydgcocgxSamples s a)))
      ∧ FirstFailureRaises (.ydgcocgxI a) s
        (arrangementCheck a :: gridChecks s (2 ≤ nOf s ∧ nOf s ≤ 32) (gridOut s (nOf s - 1) (ydgcocgxRestored s a))))
  ∧ ∀ (a : Nat) (s : State), a < 4 →
    ((s.slot 0).width % 2 = 1 ∨ (s.slot 0).height % 2 = 1 ∨ (s.slot 0).width = 0 ∨ (s.slot 0).height = 0) →
    ∀ i ∈ [Instr.c2p, .c2ps a, .c2y a, .rctxF a, .rctxI a, .ydgcocgxF a, .ydgcocgxI a], Raises i s 1

/-! ## The host -/

/-- Rules R31, R43, R44, R49, R54: the host's register accesses are one step each; a write keeps the low bits the register has and
changes no other register number and no byte of MEM; a write to a read-only, write-only or unassigned number changes nothing; an
unassigned number and `CMD` read 0. That a read of the signed `X` and `Y` returns the unsigned pattern, and that a negative value
written stands for its two's complement pattern, is the model's choice, log entry 10. (What a write to `CMD` starts is in
`StepRunsDecodedCommand`.) -/
def Obligations.HostRegisterInterface : Prop :=
  ∀ (s : State) (num : Nat) (v : Int),
    (∀ rest, s.host = .regWrite num v :: rest → num ≠ 0 → step s = .next (regWrite { s with host := rest } num v))
      ∧ (∀ rest, s.host = .regRead num :: rest →
          step s = .next { s with host := rest, replies := regRead s num :: s.replies })
      ∧ (keptBits num ≠ 0 → regRead (regWrite s num v) num = (v % 2 ^ 64).toNat &&& keptBits num)
      ∧ (keptBits num = 0 → regWrite s num v = s)
      ∧ (∀ other, other ≠ num → regRead (regWrite s num v) other = regRead s other)
      ∧ (∀ a, memGet (regWrite s num v).mem a = memGet s.mem a)
      ∧ (regWrite s num v).host = s.host ∧ (regWrite s num v).replies = s.replies ∧ (regWrite s num v).memLast = s.memLast
      ∧ (num = 0 ∨ (0x05 ≤ num ∧ num ≤ 0x07) ∨ (0x0D ≤ num ∧ num ≤ 0x0F) ∨ (0x13 ≤ num ∧ num ≤ 0x1F)
          ∨ (0x20 ≤ num ∧ num < 0x40 ∧ 6 ≤ num % 8) ∨ 0x44 ≤ num → regRead s num = 0)

/-- Rules R13, R84, R85: what the host writes into MEM is what its next read returns, and no other byte changes. -/
def Obligations.HostMemoryWriteThenRead : Prop :=
  ∀ (s : State) (a k : Nat) (v : Int) (rest : List HostAction), s.host = .memWrite a k v :: .memRead a k :: rest →
    1 ≤ k → a + k ≤ s.memSize →
    ∃ t u, step s = .next t ∧ step t = .next u ∧ u = { t with host := rest, replies := (v % 2 ^ (8 * k)).toNat :: s.replies }
      ∧ { t with mem := s.mem, host := s.host } = s
      ∧ ∀ b, b < a ∨ a + k ≤ b → memGet t.mem b = memGet s.mem b

/-! ## Round trips -/

/-- Rules R8, R10, R11: what `asr`, the legal range, `wrap`, `ww` and `clamp` are. Rules R185, R187, R193: the cell arithmetic of the
planar transforms inverts exactly, on all integers (the rules mark this as derived from their formulas). -/
def Obligations.ArithmeticAndCellInversion : Prop :=
  (∀ (v : Int) (k : Nat), asr v k * 2 ^ k ≤ v ∧ v < (asr v k + 1) * 2 ^ k)
    ∧ (∀ n : Nat, lo false n = 0 ∧ hi false n = 2 ^ n - 1 ∧ lo true n = -2 ^ (n - 1) ∧ hi true n = 2 ^ (n - 1) - 1)
    ∧ (∀ (v : Int) (sg : Bool) (n : Nat), 1 ≤ n →
        (lo sg n ≤ wrap v sg n ∧ wrap v sg n ≤ hi sg n) ∧ wrap v sg n % 2 ^ n = v % 2 ^ n)
    ∧ (∀ (m : Nat) (v : Int), ww m v = wrap v true m)
    ∧ (∀ (v : Int) (sg : Bool) (n : Nat),
        (v < lo sg n → clamp v sg n = lo sg n) ∧ (hi sg n < v → clamp v sg n = hi sg n)
          ∧ (lo sg n ≤ v → v ≤ hi sg n → clamp v sg n = v))
    ∧ (∀ g1 g2 : Int, merge (split g1 g2).d (split g1 g2).ga = { g1 := g1, g2 := g2 })
    ∧ (∀ r g b : Int, rctInverse (rctForward r g b).y (rctForward r g b).c1 (rctForward r g b).c2 = { r := r, g := g, b := b })
    ∧ ∀ r g b : Int,
      ycgcoInverse (ycgcoForward r g b).y (ycgcoForward r g b).c1 (ycgcoForward r g b).c2 = { r := r, g := g, b := b }

/-- Rule R171 item 1 for RCT and YCGCO: the inverse command on the output of the forward one, laid out anew, gives back every
sample of a legal image. -/
def Obligations.ThreePlaneRoundTrip : Prop :=
  ∀ (s t : State) (bases : Quad Word) (F I : Instr), (F, I) ∈ [(Instr.rctF, Instr.rctI), (.ycgcoF, .ycgcoI)] →
    ForwardInput s 3 → LegalSamples s 3 → BuffersFit s (firstSlots s 3) (rctOuts s) →
    BuffersApart s (firstSlots s 3) (rctOuts s) → exec F s = .next t →
    BuffersFit { t with outBase := bases } (firstSlots t 3) (rctBack t) →
    BuffersApart { t with outBase := bases } (firstSlots t 3) (rctBack t) →
    ∃ u, exec I { t with outBase := bases } = .next u ∧ doneFlag u.status = true ∧ SameImage s u 3

/-- Rule R171 item 1 for RCTD and YCGCOD. -/
def Obligations.FourPlaneRoundTrip : Prop :=
  ∀ (s t : State) (bases : Quad Word) (F I : Instr), (F, I) ∈ [(Instr.rctdF, Instr.rctdI), (.ycgcodF, .ycgcodI)] →
    ForwardInput s 4 → LegalSamples s 4 → BuffersFit s (firstSlots s 4) (rctdOuts s) →
    BuffersApart s (firstSlots s 4) (rctdOuts s) → exec F s = .next t →
    BuffersFit { t with outBase := bases } (firstSlots t 4) (rctdBack t) →
    BuffersApart { t with outBase := bases } (firstSlots t 4) (rctdBack t) →
    ∃ u, exec I { t with outBase := bases } = .next u ∧ doneFlag u.status = true ∧ SameImage s u 4

/-- Rule R171 item 1 for RCT422. -/
def Obligations.Rct422RoundTrip : Prop :=
  ∀ (s t : State) (bases : Quad Word), Shape422 s → EqualFormats s 3 → ForwardDepth s → LegalSamples s 3 →
    BuffersFit s (firstSlots s 3) (rct422Outs s) → BuffersApart s (firstSlots s 3) (rct422Outs s) → exec .rct422F s = .next t →
    BuffersFit { t with outBase := bases } (firstSlots t 3) (rct422Back t) →
    BuffersApart { t with outBase := bases } (firstSlots t 3) (rct422Back t) →
    ∃ u, exec .rct422I { t with outBase := bases } = .next u ∧ doneFlag u.status = true ∧ SameImage s u 3

/-- Rule R171 item 1 for RCTX and YDGCOCGX, the same arrangement both times. -/
def Obligations.GridRoundTrip : Prop :=
  ∀ (a : Nat) (s t : State) (bases : Quad Word) (F I : Instr),
    (F, I) ∈ [(Instr.rctxF a, Instr.rctxI a), (.ydgcocgxF a, .ydgcocgxI a)] → a < 4 → GridInput s 1 31 → LegalSamples s 1 →
    BuffersFit s [s.slot 0] (gridOut s (nOf s + 1) (fun _ _ => 0)) →
    BuffersApart s [s.slot 0] (gridOut s (nOf s + 1) (fun _ _ => 0)) → exec F s = .next t →
    BuffersFit { t with outBase := bases } [t.slot 0] (gridOut t (nOf s) (fun _ _ => 0)) →
    BuffersApart { t with outBase := bases } [t.slot 0] (gridOut t (nOf s) (fun _ _ => 0)) →
    ∃ u, exec I { t with outBase := bases } = .next u ∧ doneFlag u.status = true ∧ SameImage s u 1

/-- Rule R171 item 3: P2C after C2P, and P2CS after C2PS with the same arrangement, give back every sample of a legal image, of a
float image, and of any image if R251 holds for illegal samples; of any image whatever, every sample as one copy stores it. (What
that is for an illegal sample is left free between rules R251 and R170: the model's choice, log entry 15.) -/
def Obligations.PlanesRoundTrip : Prop :=
  ∀ (a : Nat) (s t : State) (bases : Quad Word) (F I : Instr), a < 4 →
    (F, I) ∈ [(Instr.c2p, Instr.p2c), (.c2ps a, .p2cs a)] → CfaSizes s → ¬untyped (s.slot 0) →
    BuffersFit s [s.slot 0] (planesOf rasterPhases s) → BuffersApart s [s.slot 0] (planesOf rasterPhases s) →
    exec F s = .next t →
    BuffersFit { t with outBase := bases } (firstSlots t 4) (cfaOf rasterPhases t) →
    BuffersApart { t with outBase := bases } (firstSlots t 4) (cfaOf rasterPhases t) →
    ∃ u, exec I { t with outBase := bases } = .next u ∧ doneFlag u.status = true ∧ CopiedImage s u
      ∧ (LegalSamples s 1 ∨ (s.slot 0).isFloat = true ∨ Config.layoutKeepsIllegalSamples = true → SameImage s u 1)

/-- Rule R171 item 3: Y2C after C2Y with the same arrangement gives back every sample, in the same sense. What becomes of an illegal
sample is the model's choice, log entry 15. -/
def Obligations.Layout422RoundTrip : Prop :=
  ∀ (a : Nat) (s t : State) (bases : Quad Word), a < 4 → CfaSizes s → ¬untyped (s.slot 0) →
    BuffersFit s [s.slot 0] (image422 a s) → BuffersApart s [s.slot 0] (image422 a s) → exec (.c2y a) s = .next t →
    BuffersFit { t with outBase := bases } (firstSlots t 3) (cfaOf422 a t) →
    BuffersApart { t with outBase := bases } (firstSlots t 3) (cfaOf422 a t) →
    ∃ u, exec (.y2c a) { t with outBase := bases } = .next u ∧ doneFlag u.status = true ∧ CopiedImage s u
      ∧ (LegalSamples s 1 ∨ (s.slot 0).isFloat = true ∨ Config.layoutKeepsIllegalSamples = true → SameImage s u 1)
end

