-- ==== Sys2Proof/Laws/Arith.lean ====
section
/-!
SUPPORT. What `asr`, `clamp` and `wrap` do (`spec/00_scope.md` rules R8 to R11).
-/

namespace Sys2Proof.Laws

open Sys2Proof.Machine

theorem two_pow_pos (n : Nat) : (0 : Int) < 2 ^ n := by positivity

/-- `2^n` is twice `2^(n-1)` for `n >= 1`. -/
theorem two_pow_half {n : Nat} (h : 1 ≤ n) : (2 : Int) ^ n = 2 * 2 ^ (n - 1) := by
  obtain ⟨k, rfl⟩ : ∃ k, n = k + 1 := ⟨n - 1, by omega⟩
  simp [pow_succ, mul_comm]

/-- `asr(v, k)` is the floor: the one `q` with `q * 2^k <= v < (q + 1) * 2^k`. -/
theorem asr_bounds (v : Int) (k : Nat) : asr v k * 2 ^ k ≤ v ∧ v < asr v k * 2 ^ k + 2 ^ k := by
  have hp := two_pow_pos k
  have h1 := Int.mul_ediv_add_emod v (2 ^ k)
  have h2 := Int.emod_nonneg v (ne_of_gt hp)
  have h3 := Int.emod_lt_of_pos v hp
  unfold asr
  constructor <;> nlinarith

/-- A multiple of `2^k` comes out of the shift. -/
theorem asr_add_mul (q v : Int) (k : Nat) : asr (q * 2 ^ k + v) k = q + asr v k := by
  unfold asr
  rw [add_comm, Int.add_mul_ediv_right _ _ (ne_of_gt (two_pow_pos k)), add_comm]

/-- The legal range is the `2^n` numbers from `lo` on. -/
theorem hi_eq {s : Bool} {n : Nat} (h : 1 ≤ n) : hi s n = lo s n + 2 ^ n - 1 := by
  have := two_pow_half h
  cases s <;> simp [hi, lo]
  omega

theorem lo_le_zero (s : Bool) (n : Nat) : lo s n ≤ 0 := by
  have := two_pow_pos (n - 1)
  cases s <;> simp [lo]

theorem hi_nonneg (s : Bool) (n : Nat) : 0 ≤ hi s n := by
  have h1 := two_pow_pos (n - 1)
  have h2 := two_pow_pos n
  cases s <;> simp [hi] <;> omega

/-- Zero is legal for every type. -/
theorem legal_zero (s : Bool) (n : Nat) : legal s n 0 := ⟨lo_le_zero s n, hi_nonneg s n⟩

/-- `clamp` ends in the legal range. -/
theorem clamp_legal (v : Int) (s : Bool) (n : Nat) : legal s n (clamp v s n) := by
  have h1 := lo_le_zero s n
  have h2 := hi_nonneg s n
  unfold clamp
  split
  · exact ⟨le_refl _, by omega⟩
  · split
    · exact ⟨by omega, le_refl _⟩
    · exact ⟨by omega, by omega⟩

/-- `clamp` is the identity on legal values. -/
theorem clamp_of_legal {v : Int} {s : Bool} {n : Nat} (h : legal s n v) : clamp v s n = v := by
  unfold clamp
  rw [if_neg (by omega), if_neg (by omega)]

/-- `wrap` is congruent to its argument modulo `2^n`. -/
theorem wrap_emod (v : Int) (s : Bool) (n : Nat) : wrap v s n % 2 ^ n = v % 2 ^ n := by
  simp only [wrap]
  split
  · rw [Int.sub_emod, Int.emod_self, sub_zero, Int.emod_emod_of_dvd _ (dvd_refl _),
      Int.emod_emod_of_dvd _ (dvd_refl _)]
  · exact Int.emod_emod_of_dvd _ (dvd_refl _)

/-- `wrap` ends in the legal range. -/
theorem wrap_legal (v : Int) (s : Bool) {n : Nat} (h : 1 ≤ n) : legal s n (wrap v s n) := by
  have hp := two_pow_pos n
  have h0 := Int.emod_nonneg v (ne_of_gt hp)
  have h1 := Int.emod_lt_of_pos v hp
  have hh := hi_eq (s := s) h
  have hl := lo_le_zero s n
  have hn := hi_nonneg s n
  simp only [wrap]
  split <;> constructor <;> omega

/-- Two legal values congruent modulo `2^n` are equal. -/
theorem legal_unique {s : Bool} {n : Nat} (hn : 1 ≤ n) {u v : Int} (hu : legal s n u) (hv : legal s n v)
    (h : u % 2 ^ n = v % 2 ^ n) : u = v := by
  have hh := hi_eq (s := s) hn
  obtain ⟨k, hk⟩ : (2 ^ n : Int) ∣ u - v := Int.dvd_of_emod_eq_zero (by rw [Int.sub_emod, h]; simp)
  have hp := two_pow_pos n
  rcases lt_trichotomy k 0 with hk0 | rfl | hk0
  · nlinarith [hu.1, hu.2, hv.1, hv.2]
  · omega
  · nlinarith [hu.1, hu.2, hv.1, hv.2]

/-- `wrap` is the identity on legal values. -/
theorem wrap_of_legal {v : Int} {s : Bool} {n : Nat} (hn : 1 ≤ n) (h : legal s n v) : wrap v s n = v :=
  legal_unique hn (wrap_legal v s hn) h (wrap_emod v s n)

/-- `wrap` depends on its argument modulo `2^n` only. -/
theorem wrap_congr {u v : Int} {n : Nat} (s : Bool) (h : u % 2 ^ n = v % 2 ^ n) : wrap u s n = wrap v s n := by
  simp only [wrap, h]

/-- Adding before or after the wrap is the same modulo `2^n`. -/
theorem wrap_add_wrap (u v : Int) (s s' : Bool) (n : Nat) : wrap (wrap u s n + v) s' n = wrap (u + v) s' n :=
  wrap_congr s' (by rw [Int.add_emod, wrap_emod, ← Int.add_emod])

/-- Wrapping twice, with any signedness the first time, is wrapping once. -/
theorem wrap_wrap (v : Int) (s s' : Bool) (n : Nat) : wrap (wrap v s n) s' n = wrap v s' n :=
  wrap_congr s' (wrap_emod v s n)

end Sys2Proof.Laws
end

