-- ==== Sys2Proof/Laws/Memory.lean ====
section
/-!
SUPPORT. What the memory operations do, once: a byte read after a write (everywhere, for any memory), words read after a write,
and that every operation keeps the canonical form.
-/

namespace Sys2Proof.Laws

open Sys2Proof.Machine

/-! ### One byte -/

theorem memGet_memErase (m : Memory) (a b : Nat) :
    memGet (memErase m a) b = if b = a then Config.unlistedByte else memGet m b := by
  induction m with
  | nil => simp [memErase, memGet]
  | cons p m ih =>
    unfold memErase at ih ⊢
    by_cases hp : p.1 = a
    · subst hp
      simp only [List.filter_cons, bne_self_eq_false, Bool.false_eq_true, if_false]
      rw [ih]
      by_cases hb : b = p.1
      · simp [hb]
      · simp [hb, memGet, Ne.symm hb]
    · have hpa : (p.1 != a) = true := by simpa using hp
      simp only [List.filter_cons, hpa, if_true, memGet]
      by_cases hb : p.1 = b
      · subst hb
        simp [hp]
      · simp [hb, ih]

theorem memGet_memInsert (m : Memory) (a b : Nat) (v : Byte) (h : ∀ p ∈ m, p.1 ≠ a) :
    memGet (memInsert m a v) b = if b = a then v else memGet m b := by
  induction m with
  | nil =>
    by_cases hb : b = a
    · simp [memInsert, memGet, hb]
    · simp [memInsert, memGet, hb, Ne.symm hb]
  | cons p m ih =>
    have hp : p.1 ≠ a := h p (by simp)
    have hm : ∀ q ∈ m, q.1 ≠ a := fun q hq => h q (by simp [hq])
    unfold memInsert
    split
    · by_cases hb : b = a
      · simp [memGet, hb]
      · simp [memGet, hb, Ne.symm hb]
    · simp only [memGet, ih hm]
      by_cases hb : p.1 = b
      · subst hb
        simp [hp]
      · simp [hb]

/-- The one law of a byte write: it holds of every memory, canonical or not. -/
theorem memGet_memSet (m : Memory) (a b : Nat) (v : Byte) :
    memGet (memSet m a v) b = if b = a then v else memGet m b := by
  unfold memSet
  split
  · rename_i hv
    rw [memGet_memErase, hv]
  · rw [memGet_memInsert, memGet_memErase]
    · split <;> rfl
    · intro p hp
      simp only [memErase, List.mem_filter, bne_iff_ne, ne_eq] at hp
      exact hp.2

/-! ### The canonical form -/

theorem memErase_wf {m : Memory} (h : Memory.wf m) (a : Nat) : Memory.wf (memErase m a) :=
  ⟨h.1.filter _, fun p hp => h.2 p (List.mem_of_mem_filter hp)⟩

theorem mem_memInsert {m : Memory} {a : Nat} {v : Byte} {p : Host.Cell} :
    p ∈ memInsert m a v ↔ p = (a, v) ∨ p ∈ m := by
  induction m with
  | nil => simp [memInsert]
  | cons q m ih =>
    unfold memInsert
    split
    · simp
    · simp only [List.mem_cons, ih]
      tauto

theorem memInsert_wf {m : Memory} (h : Memory.wf m) {a : Nat} {v : Byte} (hv : v ≠ Config.unlistedByte)
    (ha : ∀ p ∈ m, p.1 ≠ a) : Memory.wf (memInsert m a v) := by
  refine ⟨?_, ?_⟩
  · induction m with
    | nil => simp [memInsert]
    | cons q m ih =>
      have hq := List.pairwise_cons.1 h.1
      have hm : Memory.wf m := ⟨hq.2, fun p hp => h.2 p (by simp [hp])⟩
      have hqa : q.1 ≠ a := ha q (by simp)
      unfold memInsert
      split
      · rename_i hlt
        refine List.pairwise_cons.2 ⟨?_, h.1⟩
        intro p hp
        rcases List.mem_cons.1 hp with rfl | hp
        · exact hlt
        · exact lt_trans hlt (hq.1 p hp)
      · rename_i hlt
        refine List.pairwise_cons.2 ⟨?_, ih hm (fun p hp => ha p (by simp [hp]))⟩
        intro p hp
        rcases mem_memInsert.1 hp with rfl | hp
        · show q.1 < a
          omega
        · exact hq.1 p hp
  · intro p hp
    rcases mem_memInsert.1 hp with rfl | hp
    · exact hv
    · exact h.2 p hp

/-- A byte write keeps the canonical form. -/
theorem memSet_wf {m : Memory} (h : Memory.wf m) (a : Nat) (v : Byte) : Memory.wf (memSet m a v) := by
  unfold memSet
  split
  · exact memErase_wf h a
  · refine memInsert_wf (memErase_wf h a) ‹_› ?_
    intro p hp
    simp only [memErase, List.mem_filter, bne_iff_ne, ne_eq] at hp
    exact hp.2

/-- A byte write lists no new address but its own. -/
theorem mem_memSet {m : Memory} {a : Nat} {v : Byte} {p : Host.Cell} (h : p ∈ memSet m a v) : p.1 = a ∨ p ∈ m := by
  unfold memSet at h
  split at h
  · exact .inr (List.mem_of_mem_filter h)
  · rcases mem_memInsert.1 h with rfl | h
    · exact .inl rfl
    · exact .inr (List.mem_of_mem_filter h)

theorem memWriteNat_wf {m : Memory} (h : Memory.wf m) (a k v : Nat) : Memory.wf (memWriteNat m a k v) := by
  induction k generalizing m a v with
  | zero => exact h
  | succ k ih => exact ih (memSet_wf h _ _) _ _

/-- `MemWrite` keeps the canonical form. -/
theorem memWrite_wf {m : Memory} (h : Memory.wf m) (a k : Nat) (v : Int) : Memory.wf (memWrite m a k v) :=
  memWriteNat_wf h _ _ _

theorem mem_memWriteNat {m : Memory} {a k v : Nat} {p : Host.Cell} (h : p ∈ memWriteNat m a k v) :
    (a ≤ p.1 ∧ p.1 < a + k) ∨ p ∈ m := by
  induction k generalizing m a v with
  | zero => exact .inr h
  | succ k ih =>
    rcases ih h with ⟨h1, h2⟩ | h
    · exact .inl ⟨by omega, by omega⟩
    · rcases mem_memSet h with h | h
      · exact .inl ⟨by omega, by omega⟩
      · exact .inr h

/-- `MemWrite` lists no new address outside its bytes. -/
theorem mem_memWrite {m : Memory} {a k : Nat} {v : Int} {p : Host.Cell} (h : p ∈ memWrite m a k v) :
    (a ≤ p.1 ∧ p.1 < a + k) ∨ p ∈ m := mem_memWriteNat h

/-! ### Words -/

theorem memGet_memWriteNat_outside (m : Memory) (a k v b : Nat) (h : b < a ∨ a + k ≤ b) :
    memGet (memWriteNat m a k v) b = memGet m b := by
  induction k generalizing m a v with
  | zero => rfl
  | succ k ih =>
    rw [memWriteNat, ih _ _ _ (by omega), memGet_memSet, if_neg (by omega)]

/-- `MemWrite` leaves every byte outside its `k` bytes alone. -/
theorem memGet_memWrite_outside (m : Memory) (a k : Nat) (v : Int) (b : Nat) (h : b < a ∨ a + k ≤ b) :
    memGet (memWrite m a k v) b = memGet m b := memGet_memWriteNat_outside _ _ _ _ _ h

/-- `MemRead` depends on its `k` bytes only. -/
theorem memRead_congr {m m' : Memory} {a k : Nat} (h : ∀ b, a ≤ b → b < a + k → memGet m b = memGet m' b) :
    memRead m a k = memRead m' a k := by
  induction k generalizing a with
  | zero => rfl
  | succ k ih =>
    simp only [memRead]
    rw [h a (le_refl a) (by omega), ih (fun b h1 h2 => h b (by omega) (by omega))]

theorem memRead_lt (m : Memory) (a k : Nat) : memRead m a k < 256 ^ k := by
  induction k generalizing a with
  | zero => simp [memRead]
  | succ k ih =>
    have h1 := ih (a + 1)
    have h2 : (memGet m a).toNat < 256 := (memGet m a).isLt
    simp only [memRead, pow_succ]
    omega

theorem memRead_memWriteNat (m : Memory) (a k v : Nat) : memRead (memWriteNat m a k v) a k = v % 256 ^ k := by
  induction k generalizing m a v with
  | zero => simp [memRead, Nat.mod_one]
  | succ k ih =>
    simp only [memRead, memWriteNat]
    rw [memGet_memWriteNat_outside _ _ _ _ _ (by omega), memGet_memSet, if_pos rfl, ih]
    rw [BitVec.toNat_ofNat, pow_succ' 256 k, Nat.mod_mul]

theorem two_pow_eight_mul (k : Nat) : (2 : Nat) ^ (8 * k) = 256 ^ k := by rw [pow_mul]; rfl

/-- `MemRead(a, k)` after `MemWrite(a, k, v)` is `v mod 2^(8k)` (rules R13, R79). -/
theorem memRead_memWrite_same (m : Memory) (a k : Nat) (v : Int) :
    (memRead (memWrite m a k v) a k : Int) = v % 2 ^ (8 * k) := by
  have hpos : (0 : Int) < 2 ^ (8 * k) := by positivity
  have h0 := Int.emod_nonneg v (ne_of_gt hpos)
  have h1 := Int.emod_lt_of_pos v hpos
  unfold memWrite
  rw [memRead_memWriteNat, ← two_pow_eight_mul, Nat.mod_eq_of_lt]
  · exact Int.toNat_of_nonneg h0
  · zify
    rwa [Int.toNat_of_nonneg h0]

/-- A word read outside the bytes a write stored. -/
theorem memRead_memWrite_outside (m : Memory) (a k b j : Nat) (v : Int) (h : b + j ≤ a ∨ a + k ≤ b) :
    memRead (memWrite m a k v) b j = memRead m b j :=
  memRead_congr fun c h1 h2 => memGet_memWrite_outside _ _ _ _ _ (by omega)

end Sys2Proof.Laws
end

