-- ==== Sys2Proof/Laws/Samples.lean ====
section
/-!
SUPPORT. What the element types and the sample primitives do (`spec/20_memory.md` rules R74 to R79).
-/

namespace Sys2Proof.Laws

open Sys2Proof.Machine

theorem bytes_pos (t : SampleType) : 1 ≤ t.bytes := by cases t <;> decide

/-- The value an element of type `t` can hold (rule R78). -/
abbrev holds (t : SampleType) (v : Int) : Prop := legal t.isSigned (8 * t.bytes) v

/-- Every element type of rule R74 has room for its depth. -/
theorem elementType_depth {f s : Bool} {d : Nat} {t : SampleType} (h : elementType f s d = some t) :
    1 ≤ d ∧ d ≤ 8 * t.bytes ∧ d ≤ 64 := by
  unfold elementType at h
  split at h <;> (repeat' split at h) <;> simp_all <;> (try subst h) <;> simp [SampleType.bytes] <;> omega

/-- An integer element type is signed as its component is (rule R74). -/
theorem elementType_signed {s : Bool} {d : Nat} {t : SampleType} (h : elementType false s d = some t) : t.isSigned = s := by
  unfold elementType at h
  split at h <;> (repeat' split at h) <;> simp_all <;> (try subst h) <;> rfl

/-- An integer component of depth 1 to 64 has an element type (rule R74). -/
theorem elementType_isSome {s : Bool} {d : Nat} (h1 : 1 ≤ d) (h2 : d ≤ 64) : ∃ t, elementType false s d = some t := by
  have h0 : ¬d = 0 := by omega
  cases s <;> simp only [elementType, h0, if_false] <;> (repeat' split) <;> exact ⟨_, rfl⟩

theorem elementTypeD_eq {f s : Bool} {d : Nat} {t : SampleType} (h : elementType f s d = some t) : elementTypeD f s d = t := by
  simp [elementTypeD, h]

theorem etypeD_eq {d : Slot} {t : SampleType} (h : etype d = some t) : etypeD d = t := elementTypeD_eq h

/-- A legal value of depth `n` fits every wider range of the same signedness. -/
theorem legal_mono {s : Bool} {n k : Nat} (h1 : 1 ≤ n) (h : n ≤ k) {v : Int} (hv : legal s n v) : legal s k v := by
  have hp1 : (2 : Int) ^ n ≤ 2 ^ k := pow_le_pow_right₀ (by norm_num) h
  have hp2 : (2 : Int) ^ (n - 1) ≤ 2 ^ (k - 1) := pow_le_pow_right₀ (by norm_num) (by omega)
  cases s <;> simp only [legal, lo, hi, if_true, Bool.false_eq_true, if_false] at hv ⊢ <;> omega

/-- A legal value of an integer component fits its element (rule R79). -/
theorem holds_of_legal {s : Bool} {n : Nat} {t : SampleType} (h : elementType false s n = some t) {v : Int}
    (hv : legal s n v) : holds t v := by
  have h1 := elementType_depth h
  have h2 := elementType_signed h
  unfold holds
  rw [h2]
  exact legal_mono h1.1 h1.2.1 hv

/-- The value of an element is the one value the element holds that is congruent to its bits. -/
theorem elementValue_eq_wrap (t : SampleType) (raw : Nat) (h : raw < 256 ^ t.bytes) :
    elementValue t raw = wrap raw t.isSigned (8 * t.bytes) := by
  have hb := bytes_pos t
  have hpow : ((256 ^ t.bytes : Nat) : Int) = 2 ^ (8 * t.bytes) := by rw [← two_pow_eight_mul]; push_cast; rfl
  have hlt : (raw : Int) < 2 ^ (8 * t.bytes) := by rw [← hpow]; exact_mod_cast h
  have hmod : (raw : Int) % 2 ^ (8 * t.bytes) = raw := Int.emod_eq_of_lt (by omega) hlt
  have hhalf := two_pow_half (n := 8 * t.bytes) (by omega)
  have hc : ((2 ^ (8 * t.bytes - 1) : Nat) : Int) = 2 ^ (8 * t.bytes - 1) := by push_cast; rfl
  simp only [elementValue, wrap, hmod]
  cases hs : t.isSigned
  · have hh : hi false (8 * t.bytes) = 2 ^ (8 * t.bytes) - 1 := rfl
    rw [if_neg (by simp), if_neg (by omega)]
  · have hh : hi true (8 * t.bytes) = 2 ^ (8 * t.bytes - 1) - 1 := rfl
    by_cases hle : 2 ^ (8 * t.bytes - 1) ≤ raw
    · rw [if_pos ⟨rfl, hle⟩, if_pos (by omega)]
    · rw [if_neg (by simp [hle]), if_neg (by omega)]

/-- A load gives a value its element holds. -/
theorem loadAt_holds (m : Memory) (t : SampleType) (a : Nat) : holds t (loadAt m t a) := by
  have hb := bytes_pos t
  unfold loadAt
  rw [elementValue_eq_wrap t _ (memRead_lt m a t.bytes)]
  exact wrap_legal _ _ (by omega)

/-- The element read back after a store of `K` bytes: the one value it holds that is congruent to what was stored. -/
theorem loadAt_memWrite_same (m : Memory) (t : SampleType) (a : Nat) (v : Int) :
    loadAt (memWrite m a t.bytes v) t a = wrap v t.isSigned (8 * t.bytes) := by
  unfold loadAt
  rw [elementValue_eq_wrap t _ (memRead_lt _ a t.bytes), memRead_memWrite_same]
  exact wrap_congr _ (Int.emod_emod_of_dvd _ (dvd_refl _))

/-- A value the element holds comes back as it was stored (rules R78, R79). -/
theorem loadAt_memWrite_of_holds (m : Memory) {t : SampleType} (a : Nat) {v : Int} (h : holds t v) :
    loadAt (memWrite m a t.bytes v) t a = v := by
  have hb := bytes_pos t
  rw [loadAt_memWrite_same, wrap_of_legal (by omega) h]

/-- An element whose bytes a store does not touch. -/
theorem loadAt_memWrite_outside (m : Memory) (t : SampleType) (a b k : Nat) (v : Int) (h : b + t.bytes ≤ a ∨ a + k ≤ b) :
    loadAt (memWrite m a k v) t b = loadAt m t b := by
  unfold loadAt
  rw [memRead_memWrite_outside _ _ _ _ _ _ h]

/-- A load depends on the bytes of its element only. -/
theorem loadAt_congr {m m' : Memory} {t : SampleType} {a : Nat}
    (h : ∀ b, a ≤ b → b < a + t.bytes → memGet m b = memGet m' b) : loadAt m t a = loadAt m' t a := by
  unfold loadAt
  rw [memRead_congr h]

/-- Reflection keeps a coordinate inside for one step beyond the edge (rules R76, R222). -/
theorem mirror_mem {i n : Int} (hn : 2 ≤ n) (h1 : -1 ≤ i) (h2 : i ≤ n) : 0 ≤ mirror i n ∧ mirror i n < n := by
  unfold mirror
  split
  · constructor <;> omega
  · split <;> constructor <;> omega

end Sys2Proof.Laws
end

