-- ==== Sys2Proof/Laws/Conversion.lean ====
section
/-!
SUPPORT. What the shared part of the conversion commands does (`spec/43_conversion_common.md`): the two outcomes of `convert`, and
what the commit leaves in the descriptors and in MEM: every sample of every output, and every byte outside the outputs.
-/

namespace Sys2Proof.Laws

open Sys2Proof.Machine

/-! ### The outcomes -/

/-- All that `convert` can do (rule R160): raise one error, or pass every check and commit. -/
theorem convert_cases {w : Word} {own : Option ErrorKind} {c : Conversion} {s t : State} (h : convert w own c s = .next t) :
    (∃ e, t = raised e w s)
      ∨ (own = none ∧ rangeOk s c = true ∧ overlapFree s c = true ∧ t = complete (commit s c)) := by
  unfold convert raise at h
  split at h
  · exact .inl ⟨_, by simpa using h.symm⟩
  · split at h
    · split at h
      · exact .inr ⟨rfl, ‹_›, ‹_›, by simpa using h.symm⟩
      · exact .inl ⟨_, by simpa using h.symm⟩
    · exact .inl ⟨_, by simpa using h.symm⟩

/-- With every check passed the command completes (rules R160, R166). -/
theorem convert_complete {w : Word} {c : Conversion} {s : State} (hr : rangeOk s c = true) (ho : overlapFree s c = true) :
    convert w none c s = .next (complete (commit s c)) := by
  simp [convert, hr, ho]

/-- A failing check of the command's own classes decides the error (rule R161). -/
theorem convert_own {w : Word} {e : ErrorKind} {c : Conversion} {s : State} : convert w (some e) c s = .next (raised e w s) := rfl

/-- Class V7 (rule R165). -/
theorem convert_range {w : Word} {c : Conversion} {s : State} (hr : rangeOk s c = false) :
    convert w none c s = .next (raised .outOfRange w s) := by
  simp [convert, raise, hr]

/-- Class V8 (rule R165). -/
theorem convert_overlap {w : Word} {c : Conversion} {s : State} (hr : rangeOk s c = true) (ho : overlapFree s c = false) :
    convert w none c s = .next (raised .bufferOverlap w s) := by
  simp [convert, raise, hr, ho]

/-- Class V1 (rule R152). -/
theorem withArrangement_none {w : Word} {a : Nat} {body : Positions → State → Outcome} {s : State} (h : 4 ≤ a) :
    withArrangement w a body s = .next (raised .unknownArrangement w s) := by
  match a, h with
  | a + 4, _ => rfl

/-- A code 0 to 3 selects its row of rule R151. -/
theorem withArrangement_some {w : Word} {a : Nat} {arr : Arrangement} (h : arrangementOf a = some arr)
    (body : Positions → State → Outcome) (s : State) : withArrangement w a body s = body (pos arr) s := by
  simp [withArrangement, h]

/-! ### The fields of a new descriptor (rule R164) -/

/-- The fields of an output fit their places in `FMT`. -/
abbrev fieldsFit (o : Output) : Prop := o.depth < 256 ∧ o.subX < 256 ∧ o.subY < 256

theorem ofNat_bit_of_ge {n i : Nat} (h : n < 256) (hi : 8 ≤ i) : n.testBit i = false :=
  Nat.testBit_lt_two_pow (lt_of_lt_of_le h (by simpa using Nat.pow_le_pow_right (n := 2) (by norm_num) hi))

theorem extract_byte (v : Word) (n start : Nat) (hn : n < 256)
    (h : ∀ i, i < 8 → v.getLsbD (start + i) = n.testBit i) : (v.extractLsb' start 8).toNat = n := by
  have hb : v.extractLsb' start 8 = BitVec.ofNat 8 n := by
    apply BitVec.eq_of_getLsbD_eq
    intro i hi
    rw [BitVec.getLsbD_extractLsb', BitVec.getLsbD_ofNat, h i hi]
  rw [hb, BitVec.toNat_ofNat]
  exact Nat.mod_eq_of_lt hn

theorem fmt_bits (o : Output) (i : Nat) (hi : i < 32) :
    o.fmt.getLsbD i =
      (o.depth.testBit i || (o.signed && decide (i = 8)) || (o.float && decide (i = 9)) || decide (i = 10)
        || (decide (16 ≤ i) && o.subX.testBit (i - 16)) || (decide (24 ≤ i) && o.subY.testBit (i - 24))) := by
  unfold Output.fmt
  have h8 : (0x100#32 : Word).getLsbD i = decide (i = 8) := by interval_cases i <;> rfl
  have h9 : (0x200#32 : Word).getLsbD i = decide (i = 9) := by interval_cases i <;> rfl
  have h10 : (0x400#32 : Word).getLsbD i = decide (i = 10) := by interval_cases i <;> rfl
  have hge : ∀ k, (!decide (i < k)) = decide (k ≤ i) := fun k => by
    by_cases hk : i < k
    · simp [hk]
    · simp [hk, not_lt.1 hk]
  have hlt : ∀ k, decide (i - k < 32) = true := fun k => by
    rw [decide_eq_true_eq]
    omega
  have hif : ∀ (b : Bool) (u : Word), (if b = true then u else 0#32).getLsbD i = (b && u.getLsbD i) := by
    intro b u
    cases b <;> simp
  simp only [BitVec.getLsbD_or, BitVec.getLsbD_shiftLeft, hif, h8, h9, h10, hge, hlt, BitVec.getLsbD_ofNat, hi, decide_true,
    Bool.true_and]

theorem newSlot_depth (b : Word) {o : Output} (h : fieldsFit o) : (newSlot b o).depth = o.depth := by
  refine extract_byte _ _ _ h.1 fun i hi => ?_
  rw [newSlot, fmt_bits o _ (by omega), Nat.zero_add]
  simp [show ¬i = 8 by omega, show ¬i = 9 by omega, show ¬i = 10 by omega, show ¬16 ≤ i by omega, show ¬24 ≤ i by omega]

theorem newSlot_subX (b : Word) {o : Output} (h : fieldsFit o) : (newSlot b o).subX = o.subX := by
  refine extract_byte _ _ _ h.2.1 fun i hi => ?_
  rw [newSlot, fmt_bits o _ (by omega), ofNat_bit_of_ge h.1 (by omega), show 16 + i - 16 = i by omega]
  simp [show ¬16 + i = 8 by omega, show ¬16 + i = 9 by omega, show ¬16 + i = 10 by omega, show ¬24 ≤ 16 + i by omega]

theorem newSlot_subY (b : Word) {o : Output} (h : fieldsFit o) : (newSlot b o).subY = o.subY := by
  refine extract_byte _ _ _ h.2.2 fun i hi => ?_
  rw [newSlot, fmt_bits o _ (by omega), ofNat_bit_of_ge h.1 (by omega), show 24 + i - 16 = 8 + i by omega,
    ofNat_bit_of_ge h.2.1 (by omega), show 24 + i - 24 = i by omega]
  simp [show ¬24 + i = 8 by omega, show ¬24 + i = 9 by omega, show ¬24 + i = 10 by omega]

theorem newSlot_signed (b : Word) {o : Output} (h : fieldsFit o) : (newSlot b o).signed = o.signed := by
  show o.fmt.getLsbD 8 = o.signed
  rw [fmt_bits o _ (by omega), ofNat_bit_of_ge h.1 (by omega)]
  simp

theorem newSlot_isFloat (b : Word) {o : Output} (h : fieldsFit o) : (newSlot b o).isFloat = o.float := by
  show o.fmt.getLsbD 9 = o.float
  rw [fmt_bits o _ (by omega), ofNat_bit_of_ge h.1 (by omega)]
  simp

/-- A commit marks every buffer it fills as the block's own (rule R47). -/
theorem newSlot_own (b : Word) {o : Output} : (newSlot b o).own = true := by
  show o.fmt.getLsbD 10 = true
  rw [fmt_bits o _ (by omega)]
  simp

/-- The reserved bits of a new `FMT` are 0 (rule R43). -/
theorem newSlot_reserved (b : Word) {o : Output} (h : fieldsFit o) : (newSlot b o).fmt &&& 0x0000F800#32 = 0#32 := by
  apply BitVec.eq_of_getLsbD_eq
  intro i hi
  have hm : (0x0000F800#32 : Word).getLsbD i = (decide (11 ≤ i) && decide (i < 16)) := by interval_cases i <;> rfl
  rw [BitVec.getLsbD_and, hm]
  rcases lt_or_ge i 11 with h1 | h1
  · simp [not_le.2 h1]
  rcases lt_or_ge i 16 with h2 | h2
  swap
  · simp [not_lt.2 h2]
  simp only [h1, h2, decide_true, Bool.and_true, BitVec.getLsbD_zero]
  show o.fmt.getLsbD i = false
  rw [fmt_bits o _ hi, ofNat_bit_of_ge h.1 (by omega)]
  simp [show ¬i = 8 by omega, show ¬i = 9 by omega, show ¬i = 10 by omega, show ¬16 ≤ i by omega, show ¬24 ≤ i by omega]

theorem etype_newSlot (b : Word) {o : Output} (h : fieldsFit o) : etype (newSlot b o) = elementType o.float o.signed o.depth := by
  unfold etype
  rw [newSlot_depth b h, newSlot_signed b h, newSlot_isFloat b h]

theorem etypeD_newSlot (b : Word) {o : Output} (h : fieldsFit o) :
    etypeD (newSlot b o) = elementTypeD o.float o.signed o.depth := by
  unfold etypeD
  rw [newSlot_depth b h, newSlot_signed b h, newSlot_isFloat b h]

theorem elemBytes_newSlot (b : Word) {o : Output} (h : fieldsFit o) : (newSlot b o).elemBytes = o.elemBytes := by
  unfold Slot.elemBytes Output.elemBytes
  rw [etypeD_newSlot b h]

theorem fits_iff {o : Output} : o.fits = true ↔ o.w < 2 ^ 32 ∧ o.h < 2 ^ 32 ∧ o.w * o.elemBytes < 2 ^ 32 := by
  simp [Output.fits, and_assoc]

theorem newSlot_width (b : Word) {o : Output} (h : o.fits = true) : (newSlot b o).width = o.w := by
  have := (fits_iff.1 h).1
  simp only [Slot.width, newSlot, BitVec.toNat_ofNat]
  exact Nat.mod_eq_of_lt this

theorem newSlot_height (b : Word) {o : Output} (h : o.fits = true) : (newSlot b o).height = o.h := by
  have := (fits_iff.1 h).2.1
  simp only [Slot.height, newSlot, BitVec.toNat_ofNat]
  exact Nat.mod_eq_of_lt this

theorem bytes_le (t : SampleType) : t.bytes ≤ 8 := by cases t <;> decide

/-- The samples of a new buffer are packed (rule R164). -/
theorem addrOf_newSlot (b : Word) {o : Output} (h : o.fits = true) (x y : Nat) :
    addrOf (newSlot b o) x y = ((b.toNat + (y * o.w + x) * o.elemBytes : Nat) : Int) := by
  have h1 : o.elemBytes % 2 ^ 32 = o.elemBytes := Nat.mod_eq_of_lt (lt_of_le_of_lt (bytes_le _) (by norm_num))
  have h2 : o.w * o.elemBytes % 2 ^ 32 = o.w * o.elemBytes := Nat.mod_eq_of_lt (fits_iff.1 h).2.2
  simp only [addrOf, newSlot, BitVec.toNat_ofNat, h1, h2]
  push_cast
  ring

/-! ### The stores of one component -/

/-- A slot whose samples lie packed from `base` on, `w` to a row, `k` bytes each. -/
structure Packed (d : Slot) (base w k : Nat) : Prop where
  addr : ∀ x y : Nat, (addrOf d x y).toNat = base + (y * w + x) * k
  bytes : d.elemBytes = k

theorem packed_newSlot (b : Word) {o : Output} (hf : o.fits = true) (h : fieldsFit o) :
    Packed (newSlot b o) b.toNat o.w o.elemBytes :=
  ⟨fun x y => by rw [addrOf_newSlot b hf]; rfl, elemBytes_newSlot b h⟩

theorem store_packed {d : Slot} {base w k : Nat} (hp : Packed d base w k) (m : Memory) (x y : Nat) (v : Int) :
    store m d x y v = memWrite m (base + (y * w + x) * k) k v := by
  unfold store
  rw [hp.addr, hp.bytes]

/-- A row's stores leave every byte outside the row alone. -/
theorem memGet_storeRow_outside {d : Slot} {base w k : Nat} (hp : Packed d base w k) (m : Memory) (P : Plane) (y n b : Nat)
    (h : b < base + y * w * k ∨ base + (y * w + n) * k ≤ b) : memGet (storeRow m d P y n) b = memGet m b := by
  induction n with
  | zero => rfl
  | succ n ih =>
    have e : (y * w + (n + 1)) * k = y * w * k + n * k + k := by ring
    have e2 : (y * w + n) * k = y * w * k + n * k := by ring
    rw [e] at h
    rw [storeRow, store_packed hp, memGet_memWrite_outside _ _ _ _ _ (by rw [e2]; omega), ih (by rw [e2]; omega)]

/-- A component's stores leave every byte outside its buffer alone. -/
theorem memGet_storePlane_outside {d : Slot} {base w k : Nat} (hp : Packed d base w k) (m : Memory) (P : Plane) (h b : Nat)
    (hb : b < base ∨ base + w * h * k ≤ b) : memGet (storePlane m d P w h) b = memGet m b := by
  induction h with
  | zero => rfl
  | succ h ih =>
    have e : w * (h + 1) * k = w * h * k + w * k := by ring
    have e2 : (h * w + w) * k = w * h * k + w * k := by ring
    have e3 : h * w * k = w * h * k := by ring
    rw [e] at hb
    rw [storePlane, memGet_storeRow_outside hp _ _ _ _ _ (by rw [e2, e3]; omega), ih (by omega)]

/-- The element at `(x, y)` after a row's stores. -/
theorem loadAt_storeRow {d : Slot} {base w : Nat} {t : SampleType} (hp : Packed d base w t.bytes) (m : Memory) (P : Plane)
    (y n x : Nat) (hx : x < n) :
    loadAt (storeRow m d P y n) t (base + (y * w + x) * t.bytes) = wrap (P x y) t.isSigned (8 * t.bytes) := by
  induction n with
  | zero => omega
  | succ n ih =>
    rw [storeRow, store_packed hp]
    rcases Nat.lt_succ_iff_lt_or_eq.1 hx with hlt | rfl
    · rw [loadAt_memWrite_outside _ _ _ _ _ _ (.inl ?_), ih hlt]
      have e1 : (y * w + x) * t.bytes + t.bytes = (y * w + (x + 1)) * t.bytes := by ring
      have : (y * w + (x + 1)) * t.bytes ≤ (y * w + n) * t.bytes := Nat.mul_le_mul_right _ (by omega)
      omega
    · exact loadAt_memWrite_same _ _ _ _

/-- The element at `(x, y)` after a component's stores. -/
theorem loadAt_storePlane {d : Slot} {base w : Nat} {t : SampleType} (hp : Packed d base w t.bytes) (m : Memory) (P : Plane)
    (h x y : Nat) (hx : x < w) (hy : y < h) :
    loadAt (storePlane m d P w h) t (base + (y * w + x) * t.bytes) = wrap (P x y) t.isSigned (8 * t.bytes) := by
  induction h with
  | zero => omega
  | succ h ih =>
    rw [storePlane]
    rcases Nat.lt_succ_iff_lt_or_eq.1 hy with hlt | rfl
    · rw [← ih hlt]
      refine loadAt_congr fun b _ h2 => memGet_storeRow_outside hp _ _ _ _ _ (.inl ?_)
      have e1 : (y * w + x) * t.bytes + t.bytes = (y * w + (x + 1)) * t.bytes := by ring
      have e2 : (y * w + (x + 1)) * t.bytes ≤ (h * w) * t.bytes := by
        apply Nat.mul_le_mul_right
        have e3 : y * w + w = (y + 1) * w := by ring
        have e4 : (y + 1) * w ≤ h * w := Nat.mul_le_mul_right _ hlt
        omega
      omega
    · exact loadAt_storeRow hp _ _ _ _ _ hx

/-! ### The stores of all components -/

theorem memGet_storeAll_outside {s : State} {os : List Output} (hf : ∀ o ∈ os, o.fits = true ∧ fieldsFit o) (m : Memory)
    (i b : Nat) (hb : ∀ f ∈ outFootprints s i os, b < f.1 ∨ f.2 ≤ b) :
    memGet (storeAll m (layOut s i os)) b = memGet m b := by
  induction os generalizing m i with
  | nil => rfl
  | cons o os ih =>
    have ho := hf o (by simp)
    simp only [outFootprints, List.forall_mem_cons] at hb
    simp only [layOut, storeAll]
    rw [ih (fun o h => hf o (by simp [h])) _ _ hb.2, newSlot_width _ ho.1, newSlot_height _ ho.1,
      memGet_storePlane_outside (packed_newSlot _ ho.1 ho.2) _ _ _ _ hb.1]

/-- Inside the buffer of output `n` the stores leave what that output's own stores left. -/
theorem memGet_storeAll_inside {s : State} {os : List Output} (hf : ∀ o ∈ os, o.fits = true ∧ fieldsFit o)
    (i : Nat) (ha : apart (outFootprints s i os) = true) (n : Nat) (o : Output) (ho : os[n]? = some o) (m : Memory) :
    ∃ m', ∀ b, s.out (i + n) ≤ b → b < s.out (i + n) + o.w * o.h * o.elemBytes →
      memGet (storeAll m (layOut s i os)) b
        = memGet (storePlane m' (newSlot (s.outBase.get (i + n)) o) o.plane o.w o.h) b := by
  induction os generalizing m i n with
  | nil => simp at ho
  | cons q os ih =>
    have hq := hf q (by simp)
    have hos : ∀ o ∈ os, o.fits = true ∧ fieldsFit o := fun o h => hf o (by simp [h])
    simp only [outFootprints, apart, Bool.and_eq_true, List.all_eq_true] at ha
    cases n with
    | zero =>
      obtain rfl : q = o := by simpa using ho
      refine ⟨m, fun b h1 h2 => ?_⟩
      simp only [layOut, storeAll, Nat.add_zero]
      rw [newSlot_width _ hq.1, newSlot_height _ hq.1]
      refine memGet_storeAll_outside hos _ _ _ fun f hfm => ?_
      have hm := ha.1 f hfm
      simp only [meets, Bool.not_eq_true', Bool.and_eq_false_iff, decide_eq_false_iff_not, not_lt] at hm
      simp only [Nat.add_zero] at h1 h2
      omega
    | succ n =>
      obtain ⟨m', hm'⟩ := ih hos (i + 1) ha.2 n (by simpa using ho)
        (storePlane m (newSlot (s.outBase.get i) q) q.plane (newSlot (s.outBase.get i) q).width
          (newSlot (s.outBase.get i) q).height)
      refine ⟨m', fun b h1 h2 => ?_⟩
      have e : i + (n + 1) = i + 1 + n := by omega
      rw [e] at h1 h2 ⊢
      exact hm' b h1 h2

/-- Every sample of every output, after all stores. -/
theorem loadAt_storeAll {s : State} {os : List Output} (hf : ∀ o ∈ os, o.fits = true ∧ fieldsFit o)
    (ha : apart (outFootprints s 0 os) = true) {n : Nat} {o : Output} (ho : os[n]? = some o) (m : Memory) {x y : Nat}
    (hx : x < o.w) (hy : y < o.h) :
    load (storeAll m (layOut s 0 os)) (newSlot (s.outBase.get n) o) x y
      = wrap (o.plane x y) (elementTypeD o.float o.signed o.depth).isSigned (8 * o.elemBytes) := by
  obtain ⟨m', hm'⟩ := memGet_storeAll_inside hf 0 ha n o ho m
  have hmem : o ∈ os := List.mem_of_getElem? ho
  obtain ⟨hfit, hff⟩ := hf o hmem
  have hp := packed_newSlot (s.outBase.get n) hfit hff
  simp only [Nat.zero_add] at hm'
  have hl := loadAt_storePlane (t := elementTypeD o.float o.signed o.depth) hp m' o.plane o.h x y hx hy
  unfold load
  rw [etypeD_newSlot _ hff, hp.addr]
  refine Eq.trans ?_ hl
  refine loadAt_congr fun b h1 h2 => hm' b (by unfold State.out; omega) ?_
  have e1 : (y * o.w + x) * o.elemBytes + o.elemBytes = (y * o.w + (x + 1)) * o.elemBytes := by ring
  have e2 : (y * o.w + (x + 1)) * o.elemBytes ≤ o.w * o.h * o.elemBytes := by
    apply Nat.mul_le_mul_right
    have e3 : y * o.w + o.w = o.w * (y + 1) := by ring
    have e4 : o.w * (y + 1) ≤ o.w * o.h := Nat.mul_le_mul_left _ hy
    omega
  have e5 : (elementTypeD o.float o.signed o.depth).bytes = o.elemBytes := rfl
  unfold State.out
  rw [e5] at h2
  omega

/-! ### The canonical form -/

theorem storeRow_wf {m : Memory} (hm : Memory.wf m) (d : Slot) (P : Plane) (y : Int) (n : Nat) :
    Memory.wf (storeRow m d P y n) := by
  induction n with
  | zero => exact hm
  | succ n ih => exact memWrite_wf ih _ _ _

theorem storePlane_wf {m : Memory} (hm : Memory.wf m) (d : Slot) (P : Plane) (w h : Nat) :
    Memory.wf (storePlane m d P w h) := by
  induction h with
  | zero => exact hm
  | succ h ih => exact storeRow_wf ih _ _ _ _

/-- The stores of a conversion keep the canonical form of MEM. -/
theorem storeAll_wf {m : Memory} (hm : Memory.wf m) (l : List (Slot × Plane)) : Memory.wf (storeAll m l) := by
  induction l generalizing m with
  | nil => exact hm
  | cons q l ih => exact ih (storePlane_wf hm _ _ _ _)

theorem mem_storeRow {d : Slot} {base w k : Nat} (hp : Packed d base w k) {m : Memory} {P : Plane} {y n : Nat} {p : Host.Cell}
    (h : p ∈ storeRow m d P y n) : (base + y * w * k ≤ p.1 ∧ p.1 < base + (y * w + n) * k) ∨ p ∈ m := by
  induction n with
  | zero => exact .inr h
  | succ n ih =>
    have e : (y * w + (n + 1)) * k = y * w * k + n * k + k := by ring
    have e2 : (y * w + n) * k = y * w * k + n * k := by ring
    rw [storeRow, store_packed hp] at h
    rw [e2] at ih
    rcases mem_memWrite h with h | h
    · rw [e2] at h
      exact .inl (by rw [e]; omega)
    · rcases ih h with h | h
      · exact .inl (by rw [e]; omega)
      · exact .inr h

theorem mem_storePlane {d : Slot} {base w k : Nat} (hp : Packed d base w k) {m : Memory} {P : Plane} {h : Nat} {p : Host.Cell}
    (hm : p ∈ storePlane m d P w h) : (base ≤ p.1 ∧ p.1 < base + w * h * k) ∨ p ∈ m := by
  induction h with
  | zero => exact .inr hm
  | succ h ih =>
    have e : w * (h + 1) * k = w * h * k + w * k := by ring
    have e2 : (h * w + w) * k = w * h * k + w * k := by ring
    have e3 : h * w * k = w * h * k := by ring
    rcases mem_storeRow hp hm with hm | hm
    · rw [e2, e3] at hm
      exact .inl (by rw [e]; omega)
    · rcases ih hm with hm | hm
      · exact .inl (by rw [e]; omega)
      · exact .inr hm

/-- The stores of a conversion list no new address outside its buffers. -/
theorem mem_storeAll {s : State} {os : List Output} (hf : ∀ o ∈ os, o.fits = true ∧ fieldsFit o) {m : Memory} {i : Nat}
    {p : Host.Cell} (h : p ∈ storeAll m (layOut s i os)) :
    (∃ f ∈ outFootprints s i os, f.1 ≤ p.1 ∧ p.1 < f.2) ∨ p ∈ m := by
  induction os generalizing m i with
  | nil => exact .inr h
  | cons o os ih =>
    have ho := hf o (by simp)
    simp only [layOut, storeAll] at h
    rcases ih (fun o h => hf o (by simp [h])) h with ⟨f, hfm, hb⟩ | h
    · exact .inl ⟨f, by simp [outFootprints, hfm], hb⟩
    · rw [newSlot_width _ ho.1, newSlot_height _ ho.1] at h
      rcases mem_storePlane (packed_newSlot _ ho.1 ho.2) h with h | h
      · exact .inl ⟨_, by simp only [outFootprints]; exact List.mem_cons_self, h⟩
      · exact .inr h

end Sys2Proof.Laws
end

