-- ==== Sys2Proof/Laws/State.lean ====
section
/-!
SUPPORT. One lemma per field per update, each true by `rfl`: what completing, error entry, its return, reset, the accessor's
effects, a commit and the host's next action leave in every field.
-/

namespace Sys2Proof.Laws

open Sys2Proof.Machine


/-! ### `complete` -/

@[simp] theorem complete_mem (s : State) : (complete s).mem = s.mem := rfl
@[simp] theorem complete_x (s : State) : (complete s).x = s.x := rfl
@[simp] theorem complete_y (s : State) : (complete s).y = s.y := rfl
@[simp] theorem complete_wdata (s : State) : (complete s).wdata = s.wdata := rfl
@[simp] theorem complete_rdata (s : State) : (complete s).rdata = s.rdata := rfl
@[simp] theorem complete_raddr (s : State) : (complete s).raddr = s.raddr := rfl
@[simp] theorem complete_status (s : State) : (complete s).status = statusDone s.status := rfl
@[simp] theorem complete_err (s : State) : (complete s).err = s.err := rfl
@[simp] theorem complete_errinfo (s : State) : (complete s).errinfo = s.errinfo := rfl
@[simp] theorem complete_ctrl (s : State) : (complete s).ctrl = s.ctrl := rfl
@[simp] theorem complete_imgW (s : State) : (complete s).imgW = s.imgW := rfl
@[simp] theorem complete_imgH (s : State) : (complete s).imgH = s.imgH := rfl
@[simp] theorem complete_imgDepth (s : State) : (complete s).imgDepth = s.imgDepth := rfl
@[simp] theorem complete_slots (s : State) : (complete s).slots = s.slots := rfl
@[simp] theorem complete_outBase (s : State) : (complete s).outBase = s.outBase := rfl
@[simp] theorem complete_memLast (s : State) : (complete s).memLast = s.memLast := rfl
@[simp] theorem complete_host (s : State) : (complete s).host = s.host := rfl
@[simp] theorem complete_replies (s : State) : (complete s).replies = s.replies := rfl

/-! ### Error entry (rule R290) -/

@[simp] theorem raised_mem (e : ErrorKind) (w : Word) (s : State) : (raised e w s).mem = s.mem := rfl
@[simp] theorem raised_x (e : ErrorKind) (w : Word) (s : State) : (raised e w s).x = s.x := rfl
@[simp] theorem raised_y (e : ErrorKind) (w : Word) (s : State) : (raised e w s).y = s.y := rfl
@[simp] theorem raised_wdata (e : ErrorKind) (w : Word) (s : State) : (raised e w s).wdata = s.wdata := rfl
@[simp] theorem raised_rdata (e : ErrorKind) (w : Word) (s : State) : (raised e w s).rdata = s.rdata := rfl
@[simp] theorem raised_raddr (e : ErrorKind) (w : Word) (s : State) : (raised e w s).raddr = s.raddr := rfl
@[simp] theorem raised_status (e : ErrorKind) (w : Word) (s : State) : (raised e w s).status = statusError s.status := rfl
@[simp] theorem raised_err (e : ErrorKind) (w : Word) (s : State) : (raised e w s).err = e.code := rfl
@[simp] theorem raised_errinfo (e : ErrorKind) (w : Word) (s : State) : (raised e w s).errinfo = w := rfl
@[simp] theorem raised_ctrl (e : ErrorKind) (w : Word) (s : State) : (raised e w s).ctrl = s.ctrl := rfl
@[simp] theorem raised_imgW (e : ErrorKind) (w : Word) (s : State) : (raised e w s).imgW = s.imgW := rfl
@[simp] theorem raised_imgH (e : ErrorKind) (w : Word) (s : State) : (raised e w s).imgH = s.imgH := rfl
@[simp] theorem raised_imgDepth (e : ErrorKind) (w : Word) (s : State) : (raised e w s).imgDepth = s.imgDepth := rfl
@[simp] theorem raised_slots (e : ErrorKind) (w : Word) (s : State) : (raised e w s).slots = s.slots := rfl
@[simp] theorem raised_outBase (e : ErrorKind) (w : Word) (s : State) : (raised e w s).outBase = s.outBase := rfl
@[simp] theorem raised_memLast (e : ErrorKind) (w : Word) (s : State) : (raised e w s).memLast = s.memLast := rfl
@[simp] theorem raised_host (e : ErrorKind) (w : Word) (s : State) : (raised e w s).host = s.host := rfl
@[simp] theorem raised_replies (e : ErrorKind) (w : Word) (s : State) : (raised e w s).replies = s.replies := rfl

/-! ### The return from the error state (rule R122) -/

@[simp] theorem errorCleared_mem (s : State) : (errorCleared s).mem = s.mem := rfl
@[simp] theorem errorCleared_x (s : State) : (errorCleared s).x = s.x := rfl
@[simp] theorem errorCleared_y (s : State) : (errorCleared s).y = s.y := rfl
@[simp] theorem errorCleared_wdata (s : State) : (errorCleared s).wdata = s.wdata := rfl
@[simp] theorem errorCleared_rdata (s : State) : (errorCleared s).rdata = s.rdata := rfl
@[simp] theorem errorCleared_raddr (s : State) : (errorCleared s).raddr = s.raddr := rfl
@[simp] theorem errorCleared_status (s : State) : (errorCleared s).status = statusCleared s.status := rfl
@[simp] theorem errorCleared_err (s : State) : (errorCleared s).err = 0#32 := rfl
@[simp] theorem errorCleared_errinfo (s : State) : (errorCleared s).errinfo = 0#32 := rfl
@[simp] theorem errorCleared_ctrl (s : State) : (errorCleared s).ctrl = s.ctrl := rfl
@[simp] theorem errorCleared_imgW (s : State) : (errorCleared s).imgW = s.imgW := rfl
@[simp] theorem errorCleared_imgH (s : State) : (errorCleared s).imgH = s.imgH := rfl
@[simp] theorem errorCleared_imgDepth (s : State) : (errorCleared s).imgDepth = s.imgDepth := rfl
@[simp] theorem errorCleared_slots (s : State) : (errorCleared s).slots = s.slots := rfl
@[simp] theorem errorCleared_outBase (s : State) : (errorCleared s).outBase = s.outBase := rfl
@[simp] theorem errorCleared_memLast (s : State) : (errorCleared s).memLast = s.memLast := rfl
@[simp] theorem errorCleared_host (s : State) : (errorCleared s).host = s.host := rfl
@[simp] theorem errorCleared_replies (s : State) : (errorCleared s).replies = s.replies := rfl

/-! ### Reset (rule R310) -/

@[simp] theorem resetWith_mem (l : Word) (m : Memory) : (State.resetWith l m).mem = m := rfl
@[simp] theorem resetWith_x (l : Word) (m : Memory) : (State.resetWith l m).x = 0#32 := rfl
@[simp] theorem resetWith_y (l : Word) (m : Memory) : (State.resetWith l m).y = 0#32 := rfl
@[simp] theorem resetWith_wdata (l : Word) (m : Memory) : (State.resetWith l m).wdata = 0#64 := rfl
@[simp] theorem resetWith_rdata (l : Word) (m : Memory) : (State.resetWith l m).rdata = 0#64 := rfl
@[simp] theorem resetWith_raddr (l : Word) (m : Memory) : (State.resetWith l m).raddr = 0#32 := rfl
@[simp] theorem resetWith_status (l : Word) (m : Memory) : (State.resetWith l m).status = 0#32 := rfl
@[simp] theorem resetWith_err (l : Word) (m : Memory) : (State.resetWith l m).err = 0#32 := rfl
@[simp] theorem resetWith_errinfo (l : Word) (m : Memory) : (State.resetWith l m).errinfo = 0#32 := rfl
@[simp] theorem resetWith_ctrl (l : Word) (m : Memory) : (State.resetWith l m).ctrl = 0#32 := rfl
@[simp] theorem resetWith_imgW (l : Word) (m : Memory) : (State.resetWith l m).imgW = 0#32 := rfl
@[simp] theorem resetWith_imgH (l : Word) (m : Memory) : (State.resetWith l m).imgH = 0#32 := rfl
@[simp] theorem resetWith_imgDepth (l : Word) (m : Memory) : (State.resetWith l m).imgDepth = 0#16 := rfl
@[simp] theorem resetWith_slots (l : Word) (m : Memory) : (State.resetWith l m).slots = ⟨Slot.zero, Slot.zero, Slot.zero, Slot.zero⟩ := rfl
@[simp] theorem resetWith_outBase (l : Word) (m : Memory) : (State.resetWith l m).outBase = ⟨0#32, 0#32, 0#32, 0#32⟩ := rfl
@[simp] theorem resetWith_memLast (l : Word) (m : Memory) : (State.resetWith l m).memLast = l := rfl
@[simp] theorem resetWith_host (l : Word) (m : Memory) : (State.resetWith l m).host = [] := rfl
@[simp] theorem resetWith_replies (l : Word) (m : Memory) : (State.resetWith l m).replies = [] := rfl

/-! ### Reset at the host's hand -/

@[simp] theorem resetBlock_mem (s : State) : (resetBlock s).mem = s.mem := rfl
@[simp] theorem resetBlock_x (s : State) : (resetBlock s).x = 0#32 := rfl
@[simp] theorem resetBlock_y (s : State) : (resetBlock s).y = 0#32 := rfl
@[simp] theorem resetBlock_wdata (s : State) : (resetBlock s).wdata = 0#64 := rfl
@[simp] theorem resetBlock_rdata (s : State) : (resetBlock s).rdata = 0#64 := rfl
@[simp] theorem resetBlock_raddr (s : State) : (resetBlock s).raddr = 0#32 := rfl
@[simp] theorem resetBlock_status (s : State) : (resetBlock s).status = 0#32 := rfl
@[simp] theorem resetBlock_err (s : State) : (resetBlock s).err = 0#32 := rfl
@[simp] theorem resetBlock_errinfo (s : State) : (resetBlock s).errinfo = 0#32 := rfl
@[simp] theorem resetBlock_ctrl (s : State) : (resetBlock s).ctrl = 0#32 := rfl
@[simp] theorem resetBlock_imgW (s : State) : (resetBlock s).imgW = 0#32 := rfl
@[simp] theorem resetBlock_imgH (s : State) : (resetBlock s).imgH = 0#32 := rfl
@[simp] theorem resetBlock_imgDepth (s : State) : (resetBlock s).imgDepth = 0#16 := rfl
@[simp] theorem resetBlock_slots (s : State) : (resetBlock s).slots = ⟨Slot.zero, Slot.zero, Slot.zero, Slot.zero⟩ := rfl
@[simp] theorem resetBlock_outBase (s : State) : (resetBlock s).outBase = ⟨0#32, 0#32, 0#32, 0#32⟩ := rfl
@[simp] theorem resetBlock_memLast (s : State) : (resetBlock s).memLast = s.memLast := rfl
@[simp] theorem resetBlock_host (s : State) : (resetBlock s).host = s.host := rfl
@[simp] theorem resetBlock_replies (s : State) : (resetBlock s).replies = s.replies := rfl

/-! ### `x[RADDR] <- a` -/

@[simp] theorem setAddr_mem (t : SampleType) (a : Nat) (s : State) : (setAddr t a s).mem = s.mem := rfl
@[simp] theorem setAddr_x (t : SampleType) (a : Nat) (s : State) : (setAddr t a s).x = s.x := rfl
@[simp] theorem setAddr_y (t : SampleType) (a : Nat) (s : State) : (setAddr t a s).y = s.y := rfl
@[simp] theorem setAddr_wdata (t : SampleType) (a : Nat) (s : State) : (setAddr t a s).wdata = s.wdata := rfl
@[simp] theorem setAddr_rdata (t : SampleType) (a : Nat) (s : State) : (setAddr t a s).rdata = s.rdata := rfl
@[simp] theorem setAddr_raddr (t : SampleType) (a : Nat) (s : State) : (setAddr t a s).raddr = BitVec.ofNat 32 a := rfl
@[simp] theorem setAddr_status (t : SampleType) (a : Nat) (s : State) : (setAddr t a s).status = s.status := rfl
@[simp] theorem setAddr_err (t : SampleType) (a : Nat) (s : State) : (setAddr t a s).err = s.err := rfl
@[simp] theorem setAddr_errinfo (t : SampleType) (a : Nat) (s : State) : (setAddr t a s).errinfo = s.errinfo := rfl
@[simp] theorem setAddr_ctrl (t : SampleType) (a : Nat) (s : State) : (setAddr t a s).ctrl = s.ctrl := rfl
@[simp] theorem setAddr_imgW (t : SampleType) (a : Nat) (s : State) : (setAddr t a s).imgW = s.imgW := rfl
@[simp] theorem setAddr_imgH (t : SampleType) (a : Nat) (s : State) : (setAddr t a s).imgH = s.imgH := rfl
@[simp] theorem setAddr_imgDepth (t : SampleType) (a : Nat) (s : State) : (setAddr t a s).imgDepth = s.imgDepth := rfl
@[simp] theorem setAddr_slots (t : SampleType) (a : Nat) (s : State) : (setAddr t a s).slots = s.slots := rfl
@[simp] theorem setAddr_outBase (t : SampleType) (a : Nat) (s : State) : (setAddr t a s).outBase = s.outBase := rfl
@[simp] theorem setAddr_memLast (t : SampleType) (a : Nat) (s : State) : (setAddr t a s).memLast = s.memLast := rfl
@[simp] theorem setAddr_host (t : SampleType) (a : Nat) (s : State) : (setAddr t a s).host = s.host := rfl
@[simp] theorem setAddr_replies (t : SampleType) (a : Nat) (s : State) : (setAddr t a s).replies = s.replies := rfl

/-! ### A load (rule R133) -/

@[simp] theorem loadElement_mem (t : SampleType) (a : Nat) (s : State) : (loadElement t a s).mem = s.mem := rfl
@[simp] theorem loadElement_x (t : SampleType) (a : Nat) (s : State) : (loadElement t a s).x = s.x := rfl
@[simp] theorem loadElement_y (t : SampleType) (a : Nat) (s : State) : (loadElement t a s).y = s.y := rfl
@[simp] theorem loadElement_wdata (t : SampleType) (a : Nat) (s : State) : (loadElement t a s).wdata = s.wdata := rfl
@[simp] theorem loadElement_rdata (t : SampleType) (a : Nat) (s : State) : (loadElement t a s).rdata = BitVec.ofInt 64 (loadAt s.mem t a) := rfl
@[simp] theorem loadElement_raddr (t : SampleType) (a : Nat) (s : State) : (loadElement t a s).raddr = BitVec.ofNat 32 a := rfl
@[simp] theorem loadElement_status (t : SampleType) (a : Nat) (s : State) : (loadElement t a s).status = s.status := rfl
@[simp] theorem loadElement_err (t : SampleType) (a : Nat) (s : State) : (loadElement t a s).err = s.err := rfl
@[simp] theorem loadElement_errinfo (t : SampleType) (a : Nat) (s : State) : (loadElement t a s).errinfo = s.errinfo := rfl
@[simp] theorem loadElement_ctrl (t : SampleType) (a : Nat) (s : State) : (loadElement t a s).ctrl = s.ctrl := rfl
@[simp] theorem loadElement_imgW (t : SampleType) (a : Nat) (s : State) : (loadElement t a s).imgW = s.imgW := rfl
@[simp] theorem loadElement_imgH (t : SampleType) (a : Nat) (s : State) : (loadElement t a s).imgH = s.imgH := rfl
@[simp] theorem loadElement_imgDepth (t : SampleType) (a : Nat) (s : State) : (loadElement t a s).imgDepth = s.imgDepth := rfl
@[simp] theorem loadElement_slots (t : SampleType) (a : Nat) (s : State) : (loadElement t a s).slots = s.slots := rfl
@[simp] theorem loadElement_outBase (t : SampleType) (a : Nat) (s : State) : (loadElement t a s).outBase = s.outBase := rfl
@[simp] theorem loadElement_memLast (t : SampleType) (a : Nat) (s : State) : (loadElement t a s).memLast = s.memLast := rfl
@[simp] theorem loadElement_host (t : SampleType) (a : Nat) (s : State) : (loadElement t a s).host = s.host := rfl
@[simp] theorem loadElement_replies (t : SampleType) (a : Nat) (s : State) : (loadElement t a s).replies = s.replies := rfl

/-! ### A store (rule R134) -/

@[simp] theorem storeElement_mem (t : SampleType) (a : Nat) (s : State) : (storeElement t a s).mem = memWrite s.mem a t.bytes s.wdata.toNat := rfl
@[simp] theorem storeElement_x (t : SampleType) (a : Nat) (s : State) : (storeElement t a s).x = s.x := rfl
@[simp] theorem storeElement_y (t : SampleType) (a : Nat) (s : State) : (storeElement t a s).y = s.y := rfl
@[simp] theorem storeElement_wdata (t : SampleType) (a : Nat) (s : State) : (storeElement t a s).wdata = s.wdata := rfl
@[simp] theorem storeElement_rdata (t : SampleType) (a : Nat) (s : State) : (storeElement t a s).rdata = s.rdata := rfl
@[simp] theorem storeElement_raddr (t : SampleType) (a : Nat) (s : State) : (storeElement t a s).raddr = BitVec.ofNat 32 a := rfl
@[simp] theorem storeElement_status (t : SampleType) (a : Nat) (s : State) : (storeElement t a s).status = s.status := rfl
@[simp] theorem storeElement_err (t : SampleType) (a : Nat) (s : State) : (storeElement t a s).err = s.err := rfl
@[simp] theorem storeElement_errinfo (t : SampleType) (a : Nat) (s : State) : (storeElement t a s).errinfo = s.errinfo := rfl
@[simp] theorem storeElement_ctrl (t : SampleType) (a : Nat) (s : State) : (storeElement t a s).ctrl = s.ctrl := rfl
@[simp] theorem storeElement_imgW (t : SampleType) (a : Nat) (s : State) : (storeElement t a s).imgW = s.imgW := rfl
@[simp] theorem storeElement_imgH (t : SampleType) (a : Nat) (s : State) : (storeElement t a s).imgH = s.imgH := rfl
@[simp] theorem storeElement_imgDepth (t : SampleType) (a : Nat) (s : State) : (storeElement t a s).imgDepth = s.imgDepth := rfl
@[simp] theorem storeElement_slots (t : SampleType) (a : Nat) (s : State) : (storeElement t a s).slots = s.slots := rfl
@[simp] theorem storeElement_outBase (t : SampleType) (a : Nat) (s : State) : (storeElement t a s).outBase = s.outBase := rfl
@[simp] theorem storeElement_memLast (t : SampleType) (a : Nat) (s : State) : (storeElement t a s).memLast = s.memLast := rfl
@[simp] theorem storeElement_host (t : SampleType) (a : Nat) (s : State) : (storeElement t a s).host = s.host := rfl
@[simp] theorem storeElement_replies (t : SampleType) (a : Nat) (s : State) : (storeElement t a s).replies = s.replies := rfl

/-! ### A commit (rule R166) -/

@[simp] theorem commit_mem (s : State) (c : Conversion) : (commit s c).mem = storeAll s.mem (layOut s 0 c.outputs) := rfl
@[simp] theorem commit_x (s : State) (c : Conversion) : (commit s c).x = s.x := rfl
@[simp] theorem commit_y (s : State) (c : Conversion) : (commit s c).y = s.y := rfl
@[simp] theorem commit_wdata (s : State) (c : Conversion) : (commit s c).wdata = s.wdata := rfl
@[simp] theorem commit_rdata (s : State) (c : Conversion) : (commit s c).rdata = s.rdata := rfl
@[simp] theorem commit_raddr (s : State) (c : Conversion) : (commit s c).raddr = s.raddr := rfl
@[simp] theorem commit_status (s : State) (c : Conversion) : (commit s c).status = s.status := rfl
@[simp] theorem commit_err (s : State) (c : Conversion) : (commit s c).err = s.err := rfl
@[simp] theorem commit_errinfo (s : State) (c : Conversion) : (commit s c).errinfo = s.errinfo := rfl
@[simp] theorem commit_ctrl (s : State) (c : Conversion) : (commit s c).ctrl = s.ctrl := rfl
@[simp] theorem commit_imgW (s : State) (c : Conversion) : (commit s c).imgW = BitVec.ofNat 32 c.imgW := rfl
@[simp] theorem commit_imgH (s : State) (c : Conversion) : (commit s c).imgH = BitVec.ofNat 32 c.imgH := rfl
@[simp] theorem commit_imgDepth (s : State) (c : Conversion) : (commit s c).imgDepth = BitVec.ofNat 16 c.outputs.length := rfl
@[simp] theorem commit_slots (s : State) (c : Conversion) : (commit s c).slots = committedSlots ((layOut s 0 c.outputs).map Prod.fst) := rfl
@[simp] theorem commit_outBase (s : State) (c : Conversion) : (commit s c).outBase = s.outBase := rfl
@[simp] theorem commit_memLast (s : State) (c : Conversion) : (commit s c).memLast = s.memLast := rfl
@[simp] theorem commit_host (s : State) (c : Conversion) : (commit s c).host = s.host := rfl
@[simp] theorem commit_replies (s : State) (c : Conversion) : (commit s c).replies = s.replies := rfl

/-! ### The host's next action placed -/

@[simp] theorem withFetchWord_mem (s : State) (nbits w : Nat) : (s.withFetchWord nbits w).mem = s.mem := rfl
@[simp] theorem withFetchWord_x (s : State) (nbits w : Nat) : (s.withFetchWord nbits w).x = s.x := rfl
@[simp] theorem withFetchWord_y (s : State) (nbits w : Nat) : (s.withFetchWord nbits w).y = s.y := rfl
@[simp] theorem withFetchWord_wdata (s : State) (nbits w : Nat) : (s.withFetchWord nbits w).wdata = s.wdata := rfl
@[simp] theorem withFetchWord_rdata (s : State) (nbits w : Nat) : (s.withFetchWord nbits w).rdata = s.rdata := rfl
@[simp] theorem withFetchWord_raddr (s : State) (nbits w : Nat) : (s.withFetchWord nbits w).raddr = s.raddr := rfl
@[simp] theorem withFetchWord_status (s : State) (nbits w : Nat) : (s.withFetchWord nbits w).status = s.status := rfl
@[simp] theorem withFetchWord_err (s : State) (nbits w : Nat) : (s.withFetchWord nbits w).err = s.err := rfl
@[simp] theorem withFetchWord_errinfo (s : State) (nbits w : Nat) : (s.withFetchWord nbits w).errinfo = s.errinfo := rfl
@[simp] theorem withFetchWord_ctrl (s : State) (nbits w : Nat) : (s.withFetchWord nbits w).ctrl = s.ctrl := rfl
@[simp] theorem withFetchWord_imgW (s : State) (nbits w : Nat) : (s.withFetchWord nbits w).imgW = s.imgW := rfl
@[simp] theorem withFetchWord_imgH (s : State) (nbits w : Nat) : (s.withFetchWord nbits w).imgH = s.imgH := rfl
@[simp] theorem withFetchWord_imgDepth (s : State) (nbits w : Nat) : (s.withFetchWord nbits w).imgDepth = s.imgDepth := rfl
@[simp] theorem withFetchWord_slots (s : State) (nbits w : Nat) : (s.withFetchWord nbits w).slots = s.slots := rfl
@[simp] theorem withFetchWord_outBase (s : State) (nbits w : Nat) : (s.withFetchWord nbits w).outBase = s.outBase := rfl
@[simp] theorem withFetchWord_memLast (s : State) (nbits w : Nat) : (s.withFetchWord nbits w).memLast = s.memLast := rfl
@[simp] theorem withFetchWord_host (s : State) (nbits w : Nat) : (s.withFetchWord nbits w).host = issuing nbits w :: s.host := rfl
@[simp] theorem withFetchWord_replies (s : State) (nbits w : Nat) : (s.withFetchWord nbits w).replies = s.replies := rfl

/-! ### Four like things -/

@[simp] theorem quad_get_zero {α : Type} (q : Quad α) : q.get 0 = q.i0 := rfl
@[simp] theorem quad_get_one {α : Type} (q : Quad α) : q.get 1 = q.i1 := rfl
@[simp] theorem quad_get_two {α : Type} (q : Quad α) : q.get 2 = q.i2 := rfl
@[simp] theorem quad_get_three {α : Type} (q : Quad α) : q.get 3 = q.i3 := rfl

/-- Reading index `j` after writing index `i`, both of 0 to 3. -/
theorem quad_get_set {α : Type} (q : Quad α) {i j : Nat} (hi : i < 4) (hj : j < 4) (v : α) :
    (q.set i v).get j = if j = i then v else q.get j := by
  interval_cases i <;> interval_cases j <;> rfl

/-! ### The flags of `STATUS` -/

@[simp] theorem doneFlag_statusDone (v : Word) : doneFlag (statusDone v) = true := by simp [doneFlag, statusDone]
@[simp] theorem errFlag_statusDone (v : Word) : errFlag (statusDone v) = errFlag v := by simp [errFlag, statusDone]
@[simp] theorem doneFlag_statusError (v : Word) : doneFlag (statusError v) = false := by simp [doneFlag, statusError]
@[simp] theorem errFlag_statusError (v : Word) : errFlag (statusError v) = true := by simp [errFlag, statusError]
@[simp] theorem doneFlag_statusCleared (v : Word) : doneFlag (statusCleared v) = true := by simp [doneFlag, statusCleared]
@[simp] theorem errFlag_statusCleared (v : Word) : errFlag (statusCleared v) = false := by simp [errFlag, statusCleared]

/-! ### Sizes and selections -/

theorem memSize_eq (s : State) : s.memSize = s.memLast.toNat + 1 := rfl
@[simp] theorem withFetchWord_step (s : State) (nbits w : Nat) :
    step (s.withFetchWord nbits w) = hostStep (issuing nbits w) s := rfl

end Sys2Proof.Laws
end

