-- ==== Sys2Proof/Laws/Exec.lean ====
section
/-!
SUPPORT. What the shared operations behind the meanings and the step can do, each said once: the accessor's `access`, the issue of
a command, the host's actions, and one step.
-/

namespace Sys2Proof.Laws

open Sys2Proof.Machine

/-- All that `access` can do (rule R130). -/
theorem access_cases {w : Word} {d : Slot} {coords : Option (Int × Int)} {act : SampleType → Nat → State → State}
    {s t : State} (h : access w d coords act s = .next t) :
    (etype d = none ∧ t = raised .unsupportedSampleType w s)
      ∨ (∃ ty, etype d = some ty ∧ coords = none ∧ t = raised .outOfRange w s)
      ∨ (∃ ty x y, etype d = some ty ∧ coords = some (x, y) ∧ inMem s (addrOf d x y) ty.bytes = false
          ∧ t = raised .outOfRange w s)
      ∨ (∃ ty x y, etype d = some ty ∧ coords = some (x, y) ∧ inMem s (addrOf d x y) ty.bytes = true
          ∧ t = complete (act ty (addrOf d x y).toNat s)) := by
  unfold access raise at h
  split at h
  · exact .inl ⟨‹_›, by simpa using h.symm⟩
  · rename_i ty hty
    split at h
    · exact .inr (.inl ⟨ty, hty, rfl, by simpa using h.symm⟩)
    · rename_i x y
      dsimp only at h
      split at h
      · exact .inr (.inr (.inr ⟨ty, x, y, hty, rfl, ‹_›, by simpa using h.symm⟩))
      · rename_i hin
        exact .inr (.inr (.inl ⟨ty, x, y, hty, rfl, by simpa using hin, by simpa using h.symm⟩))

/-- An admitted access completes (rules R77, R130). -/
theorem access_complete {w : Word} {d : Slot} {act : SampleType → Nat → State → State} {s : State} {ty : SampleType}
    {x y : Int} (ht : etype d = some ty) (hin : inMem s (addrOf d x y) ty.bytes = true) :
    access w d (some (x, y)) act s = .next (complete (act ty (addrOf d x y).toNat s)) := by
  simp [access, ht, hin]

/-- A slot without an element type (rules R74, R130). -/
theorem access_untyped {w : Word} {d : Slot} {coords : Option (Int × Int)} {act : SampleType → Nat → State → State}
    {s : State} (ht : etype d = none) : access w d coords act s = .next (raised .unsupportedSampleType w s) := by
  simp [access, raise, ht]

/-- An address outside MEM (rule R77). -/
theorem access_outside {w : Word} {d : Slot} {act : SampleType → Nat → State → State} {s : State} {ty : SampleType}
    {x y : Int} (ht : etype d = some ty) (hin : inMem s (addrOf d x y) ty.bytes = false) :
    access w d (some (x, y)) act s = .next (raised .outOfRange w s) := by
  simp [access, raise, ht, hin]

/-- A mirrored coordinate still outside (rule R141). -/
theorem access_unmirrored {w : Word} {d : Slot} {act : SampleType → Nat → State → State} {s : State} {ty : SampleType}
    (ht : etype d = some ty) : access w d none act s = .next (raised .outOfRange w s) := by
  simp [access, raise, ht]

theorem inMem_iff {s : State} {a : Int} {k : Nat} : inMem s a k = true ↔ 0 ≤ a ∧ a + k ≤ s.memSize := by
  simp [inMem]

/-- All that issuing a command word can do (rule R100). -/
theorem issue_cases {w : Word} {s : State} :
    (errFlag s.status = true ∧ w ≠ 0x00000001#32 ∧ issue w s = .next s)
      ∨ ((errFlag s.status = false ∨ w = 0x00000001#32)
          ∧ ((∃ i, decodeWord w = .ok i ∧ issue w s = exec i s)
            ∨ (∃ e, decodeWord w = .error e ∧ issue w s = .next (raised .illegalCommand w s)))) := by
  unfold issue raise
  by_cases h : errFlag s.status = true ∧ w ≠ 0x00000001#32
  · exact .inl ⟨h.1, h.2, if_pos h⟩
  · refine .inr ⟨?_, ?_⟩
    · by_cases hw : w = 0x00000001#32
      · exact .inr hw
      · refine .inl ?_
        by_contra hne
        exact h ⟨by simpa using hne, hw⟩
    · rw [if_neg h]
      cases hd : decodeWord w with
      | ok i => exact .inl ⟨i, rfl, rfl⟩
      | error e => exact .inr ⟨e, rfl, rfl⟩

/-- A step with no action waiting changes nothing. -/
theorem step_idle {s : State} (h : s.host = []) : step s = .next s := by simp [step, h]

/-- A step performs the host's next action. -/
theorem step_action {s : State} {act : HostAction} {rest : List HostAction} (h : s.host = act :: rest) :
    step s = hostStep act { s with host := rest } := by simp [step, h]

/-- All that one step can do. -/
theorem step_cases {s t : State} (h : step s = .next t) :
    (s.host = [] ∧ t = s)
      ∨ (∃ num rest, s.host = .regRead num :: rest
          ∧ t = { s with host := rest, replies := regRead { s with host := rest } num :: s.replies })
      ∨ (∃ num v rest, s.host = .regWrite num v :: rest ∧ num ≠ 0 ∧ t = regWrite { s with host := rest } num v)
      ∨ (∃ v rest, s.host = .regWrite 0 v :: rest ∧ issue (BitVec.ofInt 32 v) { s with host := rest } = .next t)
      ∨ (∃ a k rest, s.host = .memRead a k :: rest ∧ hostInMem s a k = true
          ∧ t = { s with host := rest, replies := memRead s.mem a k :: s.replies })
      ∨ (∃ a k v rest, s.host = .memWrite a k v :: rest ∧ hostInMem s a k = true
          ∧ t = { s with host := rest, mem := memWrite s.mem a k v })
      ∨ (∃ rest, s.host = .reset :: rest ∧ t = resetBlock { s with host := rest }) := by
  unfold step at h
  split at h
  · exact .inl ⟨‹_›, by simpa using h.symm⟩
  · rename_i act rest hs
    unfold hostStep at h
    split at h
    · exact .inr (.inl ⟨_, _, hs, by simpa using h.symm⟩)
    · split at h
      · rename_i hn
        subst hn
        exact .inr (.inr (.inr (.inl ⟨_, _, hs, h⟩)))
      · exact .inr (.inr (.inl ⟨_, _, _, hs, ‹_›, by simpa using h.symm⟩))
    · split at h
      · exact .inr (.inr (.inr (.inr (.inl ⟨_, _, _, hs, ‹_›, by simpa using h.symm⟩))))
      · simp at h
    · split at h
      · exact .inr (.inr (.inr (.inr (.inr (.inl ⟨_, _, _, _, hs, ‹_›, by simpa using h.symm⟩)))))
      · simp at h
    · exact .inr (.inr (.inr (.inr (.inr (.inr ⟨_, hs, by simpa using h.symm⟩)))))

end Sys2Proof.Laws
end

