-- ==== Sys2Proof/Laws/Layout.lean ====
section
/-!
SUPPORT. What a layout command stores of a sample (`spec/46_layout.md` rule R251, `spec/43_conversion_common.md` rule R170), whatever
the free constants of `Config` are.
-/

namespace Sys2Proof.Laws

open Sys2Proof.Machine

/-- A float's bit pattern is copied unchanged (rules R78, R251). -/
@[simp] theorem copiedSample_float {c0 : Slot} (h : c0.isFloat = true) (v : Int) : copiedSample c0 v = v := if_pos (.inl h)

/-- A legal sample is copied unchanged. -/
theorem copiedSample_of_legal {c0 : Slot} {v : Int} (h : legal c0.signed c0.depth v) : copiedSample c0 v = v := if_pos (.inr h)

/-- Under rule R251 every sample is copied unchanged. -/
theorem copiedSample_kept (h : Config.layoutKeepsIllegalSamples = true) (c0 : Slot) (v : Int) : copiedSample c0 v = v := by
  simp [copiedSample, h]

/-- Under rule R170 every integer sample is stored as a legal one. -/
theorem copiedSample_legal {c0 : Slot} (h : Config.layoutKeepsIllegalSamples = false) (hf : c0.isFloat = false)
    (hd : 1 ≤ c0.depth) (v : Int) : legal c0.signed c0.depth (copiedSample c0 v) := by
  by_cases hv : legal c0.signed c0.depth v
  · rwa [copiedSample_of_legal hv]
  · rw [copiedSample, if_neg (by simp [hf, hv]), h]
    exact wrap_legal _ _ hd

/-- What is stored is the sample, or a legal one: nothing else is left open. -/
theorem copiedSample_cases {c0 : Slot} (hd : 1 ≤ c0.depth) (v : Int) :
    copiedSample c0 v = v ∨ legal c0.signed c0.depth (copiedSample c0 v) := by
  rcases hk : Config.layoutKeepsIllegalSamples with _ | _
  · rcases hf : c0.isFloat with _ | _
    · exact .inr (copiedSample_legal hk hf hd v)
    · exact .inl (copiedSample_float hf v)
  · exact .inl (copiedSample_kept hk c0 v)

/-- Copying a copy changes nothing more, under the same type. -/
theorem copiedSample_idem {c0 c1 : Slot} (hs : c1.signed = c0.signed) (hn : c1.depth = c0.depth) (hf : c1.isFloat = c0.isFloat)
    (hd : 1 ≤ c0.depth) (v : Int) : copiedSample c1 (copiedSample c0 v) = copiedSample c0 v := by
  rcases copiedSample_cases hd v with h | h
  · rw [h]
    simpa [copiedSample, hs, hn, hf] using h
  · exact copiedSample_of_legal (by rwa [hs, hn])

end Sys2Proof.Laws
end

