-- ==== Sys2Proof/Laws/PerInstr.lean ====
section
/-!
SUPPORT. Statements about every command as syntax, one lemma per constructor.
-/

namespace Sys2Proof.Laws

/-- Bits 31:14 of the word of a well-formed command are 0 (`spec/30_encoding.md` rule R101). -/
def ZeroBits.Statement (i : Instr) : Prop := i.wellFormed = true → encode i &&& 0xFFFFC000#32 = 0#32

theorem wordC_zeroBits (op : Word) (hop : op &&& 0xFFFFC000#32 = 0#32) (c : Nat) (hc : slotNumberFits c = true) :
    wordC op c &&& 0xFFFFC000#32 = 0#32 := by
  have hc : c < 4 := by simpa [slotNumberFits] using hc
  rw [wordC, BitVec.and_comm, BitVec.and_or_distrib_left, BitVec.and_comm _ op, hop]
  interval_cases c <;> rfl

theorem wordA_zeroBits (op : Word) (hop : op &&& 0xFFFFC000#32 = 0#32) (a : Nat) (ha : arrCodeFits a = true) :
    wordA op a &&& 0xFFFFC000#32 = 0#32 := by
  have ha : a < 16 := by simpa [arrCodeFits] using ha
  rw [wordA, BitVec.and_comm, BitVec.and_or_distrib_left, BitVec.and_comm _ op, hop]
  interval_cases a <;> rfl

theorem ZeroBits.nop : ZeroBits.Statement .nop := fun _ => rfl
theorem ZeroBits.errclr : ZeroBits.Statement .errclr := fun _ => rfl
theorem ZeroBits.addr (c : Nat) : ZeroBits.Statement (.addr c) := wordC_zeroBits _ rfl c
theorem ZeroBits.lds (c : Nat) : ZeroBits.Statement (.lds c) := wordC_zeroBits _ rfl c
theorem ZeroBits.sts (c : Nat) : ZeroBits.Statement (.sts c) := wordC_zeroBits _ rfl c
theorem ZeroBits.typeof (c : Nat) : ZeroBits.Statement (.typeof c) := wordC_zeroBits _ rfl c
theorem ZeroBits.maddr (c : Nat) : ZeroBits.Statement (.maddr c) := wordC_zeroBits _ rfl c
theorem ZeroBits.ldm (c : Nat) : ZeroBits.Statement (.ldm c) := wordC_zeroBits _ rfl c
theorem ZeroBits.bpos (a : Nat) : ZeroBits.Statement (.bpos a) := wordA_zeroBits _ rfl a
theorem ZeroBits.bparse : ZeroBits.Statement .bparse := fun _ => rfl
theorem ZeroBits.c2p : ZeroBits.Statement .c2p := fun _ => rfl
theorem ZeroBits.c2ps (a : Nat) : ZeroBits.Statement (.c2ps a) := wordA_zeroBits _ rfl a
theorem ZeroBits.p2c : ZeroBits.Statement .p2c := fun _ => rfl
theorem ZeroBits.p2cs (a : Nat) : ZeroBits.Statement (.p2cs a) := wordA_zeroBits _ rfl a
theorem ZeroBits.c2y (a : Nat) : ZeroBits.Statement (.c2y a) := wordA_zeroBits _ rfl a
theorem ZeroBits.y2c (a : Nat) : ZeroBits.Statement (.y2c a) := wordA_zeroBits _ rfl a
theorem ZeroBits.rctF : ZeroBits.Statement .rctF := fun _ => rfl
theorem ZeroBits.rctI : ZeroBits.Statement .rctI := fun _ => rfl
theorem ZeroBits.rctdF : ZeroBits.Statement .rctdF := fun _ => rfl
theorem ZeroBits.rctdI : ZeroBits.Statement .rctdI := fun _ => rfl
theorem ZeroBits.rctxF (a : Nat) : ZeroBits.Statement (.rctxF a) := wordA_zeroBits _ rfl a
theorem ZeroBits.rctxI (a : Nat) : ZeroBits.Statement (.rctxI a) := wordA_zeroBits _ rfl a
theorem ZeroBits.ycgcoF : ZeroBits.Statement .ycgcoF := fun _ => rfl
theorem ZeroBits.ycgcoI : ZeroBits.Statement .ycgcoI := fun _ => rfl
theorem ZeroBits.ycgcodF : ZeroBits.Statement .ycgcodF := fun _ => rfl
theorem ZeroBits.ycgcodI : ZeroBits.Statement .ycgcodI := fun _ => rfl
theorem ZeroBits.ydgcocgxF (a : Nat) : ZeroBits.Statement (.ydgcocgxF a) := wordA_zeroBits _ rfl a
theorem ZeroBits.ydgcocgxI (a : Nat) : ZeroBits.Statement (.ydgcocgxI a) := wordA_zeroBits _ rfl a
theorem ZeroBits.rct422F : ZeroBits.Statement .rct422F := fun _ => rfl
theorem ZeroBits.rct422I : ZeroBits.Statement .rct422I := fun _ => rfl

end Sys2Proof.Laws
end

