-- ==== Sys2Proof/Tests/Slice0.lean ====
section
/-!
SUPPORT. The model's own tests: the words of `spec/95_test_vectors.md` section 2, what `WellFormed` refuses, a vector or two of
section 3 for every command, and for every statement with hypotheses a concrete case that meets them (`witness_…`).
-/

namespace Sys2Proof.Tests

open Sys2Proof.Machine Sys2Proof.Claims

/-! ### Small states -/

/-- The registers after reset, MEM of 64 KiB holding the bytes given. -/
def blank (mem : Memory) : State := State.resetWith 0xFFFF#32 mem

/-- The memory with `k`-byte numbers written at the addresses given. -/
def memOf (entries : List (Nat × Nat × Int)) : Memory := entries.foldl (fun m e => memWrite m e.1 e.2.1 e.2.2) []

/-- A slot from its six registers, as SLOT writes them (rule R110). -/
def slotOf (base bpp bpr w h fmt : Nat) : Slot :=
  ⟨BitVec.ofNat 32 base, BitVec.ofNat 32 bpp, BitVec.ofNat 32 bpr, BitVec.ofNat 32 w, BitVec.ofNat 32 h, BitVec.ofNat 32 fmt⟩

/-- The slot of section 3.2: 10 bits unsigned, 8 x 4. -/
def tenBit : Slot := slotOf 0x100 2 16 8 4 0x0A

/-- The coordinates `(x, y)` on slot `d` as C0. -/
def looking (x y : Int) (d : Slot) (mem : Memory) : State :=
  { blank mem with x := BitVec.ofInt 32 x, y := BitVec.ofInt 32 y, slots := ⟨d, Slot.zero, Slot.zero, Slot.zero⟩ }

/-- An image in the slots given, to be converted into buffers at 0x100, 0x140, 0x180, 0x1C0. -/
def image (cs count : Nat) (slots : List Slot) (mem : Memory) : State :=
  { blank mem with
    ctrl := BitVec.ofNat 32 cs
    imgDepth := BitVec.ofNat 16 count
    slots := ⟨slots.getD 0 Slot.zero, slots.getD 1 Slot.zero, slots.getD 2 Slot.zero, slots.getD 3 Slot.zero⟩
    outBase := ⟨0x100#32, 0x140#32, 0x180#32, 0x1C0#32⟩ }

/-- Planes of one sample each, given as `FMT`, element size and sample. -/
def pixels (cs : Nat) (cells : List (Nat × Nat × Int)) : State :=
  image cs cells.length (cells.zipIdx.map fun p => slotOf (0x10 * p.2) p.1.2.1 p.1.2.1 1 1 p.1.1)
    (memOf (cells.zipIdx.map fun p => (0x10 * p.2, p.1.2.1, p.1.2.2)))

/-- 8 bits unsigned, subsampling 1, 1. -/
abbrev u8 : Nat := 0x01010008

/-- 9 bits unsigned, subsampling 1, 1. -/
abbrev u9 : Nat := 0x01010009

/-- Setup A of section 3.11 with the samples of E4: a 4 x 2 CFA image of 8 bits unsigned at 0. -/
def cfa42 : State := image 0 1 [slotOf 0 1 4 4 2 8] (memOf [(0, 4, 0x281E140A), (4, 4, 0x50463C32)])

/-- A 2 x 2 CFA image at 0, its samples in raster order. -/
def cfa22 (cs fmt k : Nat) (v00 v10 v01 v11 : Int) : State :=
  image cs 1 [slotOf 0 k (2 * k) 2 2 fmt] (memOf [(0, k, v00), (k, k, v10), (2 * k, k, v01), (3 * k, k, v11)])

/-- A 4:2:2 image of one cell `(g0, g1, r, b)` or `(Y, Y, Cb, Cr)`. -/
def cell422 (cs fmt fmtC kC : Nat) (a b c d : Int) : State :=
  image cs 3 [slotOf 0 1 2 2 1 fmt, slotOf 0x10 kC kC 1 1 fmtC, slotOf 0x20 kC kC 1 1 fmtC]
    (memOf [(0, 1, a), (1, 1, b), (0x10, kC, c), (0x20, kC, d)])

/-- The state after a command. -/
def after (i : Instr) (s : State) : State :=
  match exec i s with
  | .next t => t
  | _ => s

/-- The state after a step. -/
def afterStep (s : State) : State :=
  match step s with
  | .next t => t
  | _ => s

/-- What `f` shows of the next state of a command. -/
def seen {α : Type} (i : Instr) (s : State) (f : State → α) : Option α :=
  match exec i s with
  | .next t => some (f t)
  | _ => none

/-- `STATUS`, `ERR`, `ERRINFO`. -/
def flags (s : State) : Word × Word × Word := (s.status, s.err, s.errinfo)

/-- The samples of slot `c`, row by row. -/
def rows (s : State) (c : Nat) : List (List Int) :=
  (List.range (s.slot c).height).map fun (y : Nat) => (List.range (s.slot c).width).map fun (x : Nat) => load s.mem (s.slot c) x y

/-- The samples of every component of the image. -/
def picture (s : State) : List (List (List Int)) := (List.range s.imgDepth.toNat).map (rows s)

/-! ### `WellFormed` refuses what a field cannot hold (rules R103, R104) -/

theorem test_wellFormed_refuses_slot_4 : (Instr.lds 4).wellFormed = false := by decide
theorem test_wellFormed_refuses_arrangement_16 : (Instr.bpos 16).wellFormed = false := by decide
theorem test_wellFormed_takes_the_largest : (Instr.lds 3).wellFormed = true ∧ (Instr.rctxF 15).wellFormed = true := by decide

/-! ### Every command's word, from section 2 -/

theorem test_decode_nop : decodeWord 0x00000000#32 = .ok .nop := by decide
theorem test_decode_errclr : decodeWord 0x00000001#32 = .ok .errclr := by decide
theorem test_decode_addr : decodeWord 0x00003010#32 = .ok (.addr 3) := by decide
theorem test_decode_lds : decodeWord 0x00001011#32 = .ok (.lds 1) := by decide
theorem test_decode_sts : decodeWord 0x00002012#32 = .ok (.sts 2) := by decide
theorem test_decode_typeof : decodeWord 0x00001013#32 = .ok (.typeof 1) := by decide
theorem test_decode_maddr : decodeWord 0x00000014#32 = .ok (.maddr 0) := by decide
theorem test_decode_ldm : decodeWord 0x00003015#32 = .ok (.ldm 3) := by decide
theorem test_decode_bpos : decodeWord 0x00000320#32 = .ok (.bpos 3) := by decide
theorem test_decode_bparse : decodeWord 0x00000021#32 = .ok .bparse := by decide
theorem test_decode_c2p : decodeWord 0x00000030#32 = .ok .c2p := by decide
theorem test_decode_c2ps : decodeWord 0x00000131#32 = .ok (.c2ps 1) := by decide
theorem test_decode_p2c : decodeWord 0x00000032#32 = .ok .p2c := by decide
theorem test_decode_p2cs : decodeWord 0x00000333#32 = .ok (.p2cs 3) := by decide
theorem test_decode_c2y : decodeWord 0x00000134#32 = .ok (.c2y 1) := by decide
theorem test_decode_y2c : decodeWord 0x00000235#32 = .ok (.y2c 2) := by decide
theorem test_decode_rctF : decodeWord 0x00000040#32 = .ok .rctF := by decide
theorem test_decode_rctI : decodeWord 0x00000041#32 = .ok .rctI := by decide
theorem test_decode_rctdF : decodeWord 0x00000042#32 = .ok .rctdF := by decide
theorem test_decode_rctdI : decodeWord 0x00000043#32 = .ok .rctdI := by decide
theorem test_decode_rctxF : decodeWord 0x00000144#32 = .ok (.rctxF 1) := by decide
theorem test_decode_rctxI : decodeWord 0x00000145#32 = .ok (.rctxI 1) := by decide
theorem test_decode_ycgcoF : decodeWord 0x00000046#32 = .ok .ycgcoF := by decide
theorem test_decode_ycgcoI : decodeWord 0x00000047#32 = .ok .ycgcoI := by decide
theorem test_decode_ycgcodF : decodeWord 0x00000048#32 = .ok .ycgcodF := by decide
theorem test_decode_ycgcodI : decodeWord 0x00000049#32 = .ok .ycgcodI := by decide
theorem test_decode_ydgcocgxF : decodeWord 0x0000024A#32 = .ok (.ydgcocgxF 2) := by decide
theorem test_decode_ydgcocgxI : decodeWord 0x0000024B#32 = .ok (.ydgcocgxI 2) := by decide
theorem test_decode_rct422F : decodeWord 0x0000004C#32 = .ok .rct422F := by decide
theorem test_decode_rct422I : decodeWord 0x0000004D#32 = .ok .rct422I := by decide
theorem test_decode_arr_15 : decodeWord 0x00000F4A#32 = .ok (.ydgcocgxF 15) := by decide
theorem test_decode_no_such_opcode :
    decodeWord 0x02#32 = .error .noSuchOpcode
      ∧ decodeWord 0x16#32 = .error .noSuchOpcode
      ∧ decodeWord 0x22#32 = .error .noSuchOpcode
      ∧ decodeWord 0x36#32 = .error .noSuchOpcode
      ∧ decodeWord 0x4E#32 = .error .noSuchOpcode
      ∧ decodeWord 0xFF#32 = .error .noSuchOpcode :=
  ⟨by decide, by decide, by decide, by decide, by decide, by decide⟩
theorem test_decode_nonzero_field :
    decodeWord 0x00010000#32 = .error .nonZeroField
      ∧ decodeWord 0x80000000#32 = .error .nonZeroField
      ∧ decodeWord 0x00004010#32 = .error .nonZeroField
      ∧ decodeWord 0x00000130#32 = .error .nonZeroField
      ∧ decodeWord 0x00001040#32 = .error .nonZeroField
      ∧ decodeWord 0x00001021#32 = .error .nonZeroField
      ∧ decodeWord 0x00001001#32 = .error .nonZeroField :=
  ⟨by decide, by decide, by decide, by decide, by decide, by decide, by decide⟩

/-! ### Vectors of section 3 -/

theorem test_nop_after_reset : seen .nop State.reset flags = some (1#32, 0#32, 0#32) := by decide
theorem test_errclr_clears :
    seen .errclr { State.reset with status := 2#32, err := 1#32, errinfo := 0x30#32 } flags = some (1#32, 0#32, 0#32) := by decide
theorem test_typeof_ignores_other_bits :
    seen (.typeof 0) (looking 0 0 (slotOf 0 0 0 0 0 0x01010408) []) (·.rdata) = some 1#64 := by decide
theorem test_typeof_float48 :
    seen (.typeof 0) (looking 0 0 (slotOf 0 0 0 0 0 0x330) []) flags = some (2#32, 3#32, 0x13#32) := by decide
theorem test_addr_outside_the_component : seen (.addr 0) (looking (-1) 4 tenBit []) (·.raddr) = some 0x13E#32 := by decide
theorem test_addr_negative :
    seen (.addr 0) (looking (-129) 0 tenBit []) flags = some (2#32, 6#32, 0x10#32) := by decide
theorem test_lds_sign_extends :
    seen (.lds 0) (looking 0 0 (slotOf 0x100 2 16 8 4 0x10C) (memOf [(0x100, 2, 0xF800)])) (·.rdata)
      = some 0xFFFFFFFFFFFFF800#64 := by decide
theorem test_lds_top_of_mem :
    seen (.lds 0) (looking 0 0 (slotOf 0xFFFF 2 16 8 4 0x0A) []) flags = some (2#32, 6#32, 0x11#32) := by decide
theorem test_sts_low_bytes :
    seen (.sts 0) { looking 3 2 tenBit [] with wdata := 0x123456789ABC03FF#64 }
      (fun t => (t.raddr, t.mem, t.rdata)) = some (0x126#32, [(0x126, 0xFF#8), (0x127, 0x03#8)], 0#64) := by decide
theorem test_maddr_mirrors : seen (.maddr 0) (looking (-1) 4 tenBit []) (·.raddr) = some 0x122#32 := by decide
theorem test_maddr_one_reflection_only :
    seen (.maddr 0) (looking 15 0 tenBit []) flags = some (2#32, 6#32, 0x14#32) := by decide
theorem test_ldm :
    seen (.ldm 0) (looking (-1) 4 tenBit (memOf [(0x122, 2, 0x155)])) (fun t => (t.rdata, t.raddr))
      = some (0x155#64, 0x122#32) := by decide
theorem test_ldm_empty_component :
    seen (.ldm 0) (looking 0 0 (slotOf 0 1 1 0 1 8) []) flags = some (2#32, 6#32, 0x15#32) := by decide
theorem test_bpos_bggr : seen (.bpos 3) State.reset (·.rdata) = some 0x27#64 := by decide
theorem test_bpos_arr_4 : seen (.bpos 4) State.reset flags = some (2#32, 4#32, 0x420#32) := by decide
theorem test_bparse_gbrg : seen .bparse { State.reset with wdata := 0x67726267#64 } (·.rdata) = some 2#64 := by decide
theorem test_bparse_capitals :
    seen .bparse { State.reset with wdata := 0x47425247#64 } flags = some (2#32, 4#32, 0x21#32) := by decide
theorem test_c2p :
    seen .c2p cfa42 picture = some [[[10, 30]], [[20, 40]], [[50, 70]], [[60, 80]]] := by decide
theorem test_c2p_descriptors :
    seen .c2p cfa42 (fun t => (t.slots, t.imgW, t.imgH)) = some (⟨slotOf 0x100 1 2 2 1 0x01010408, slotOf 0x140 1 2 2 1 0x01010408,
      slotOf 0x180 1 2 2 1 0x01010408, slotOf 0x1C0 1 2 2 1 0x01010408⟩, 2#32, 1#32) := by decide
theorem test_c2ps_gbrg :
    seen (.c2ps 2) cfa42 picture = some [[[50, 70]], [[10, 30]], [[60, 80]], [[20, 40]]] := by decide
/-- Section 3.10: a float32 element is copied as its 32-bit pattern, here that of -1.0 (rule R133). -/
theorem test_c2ps_float_pattern :
    seen (.c2ps 1) (cfa22 0 0x320 4 0xBF800000 0 0 1) (fun t => (memRead t.mem 0x100 4, t.slots.i0))
      = some (0xBF800000, slotOf 0x100 4 4 1 1 0x01010720) := by decide
theorem test_p2c :
    seen .p2c (pixels 0 [(u8, 1, 10), (u8, 1, 20), (u8, 1, 30), (u8, 1, 40)]) picture = some [[[10, 20], [30, 40]]] := by decide
theorem test_p2c_subsampling :
    seen .p2c (pixels 0 [(u8, 1, 10), (u8, 1, 20), (u8, 1, 30), (8, 1, 40)]) flags = some (2#32, 2#32, 0x32#32) := by decide
theorem test_p2cs_grbg :
    seen (.p2cs 0) (pixels 0 [(u8, 1, 20), (u8, 1, 10), (u8, 1, 60), (u8, 1, 50)]) picture
      = some [[[10, 20], [50, 60]]] := by decide
/-- A sample outside the legal range does not stop the command (rule R170); what is stored is free between R251 and R170. -/
theorem test_p2cs_illegal_sample_completes :
    seen (.p2cs 0) (pixels 0 [(0x01010007, 1, 200), (0x01010007, 1, 10), (0x01010007, 1, 60), (0x01010007, 1, 50)]) flags
      = some (1#32, 0#32, 0#32) := by decide
theorem test_copiedSample_illegal :
    copiedSample (slotOf 0 1 1 1 1 7) 200
      = if Config.layoutKeepsIllegalSamples then 200 else wrap (Config.layoutLegalSample false 7 200) false 7 :=
  if_neg (by decide)
theorem test_c2y_rggb :
    seen (.c2y 1) cfa42 picture = some [[[20, 50, 40, 70]], [[10, 30]], [[60, 80]]] := by decide
theorem test_y2c_rggb :
    seen (.y2c 1) (cell422 0 u8 0x01020008 1 20 50 10 60) picture = some [[[10, 20], [50, 60]]] := by decide
theorem test_rctF_signed_luma :
    seen .rctF (pixels 0 [(0x01010108, 1, -128), (0x01010108, 1, 127), (0x01010108, 1, -128)]) picture
      = some [[[-1]], [[1]], [[1]]] := by decide
theorem test_rctF_float :
    seen .rctF (pixels 0 [(0x01010320, 4, 0), (0x01010320, 4, 0), (0x01010320, 4, 0)]) flags
      = some (2#32, 3#32, 0x40#32) := by decide
theorem test_rctI_clamps :
    seen .rctI (pixels 0 [(u8, 1, 0), (u9, 2, 511), (u9, 2, 511)]) picture = some [[[128]], [[0]], [[128]]] := by decide
theorem test_rctI_chroma_depth :
    seen .rctI (pixels 0 [(u8, 1, 0), (u8, 1, 0), (u8, 1, 0)]) flags = some (2#32, 2#32, 0x41#32) := by decide
theorem test_rctdF :
    seen .rctdF (pixels 0 [(u8, 1, 255), (u8, 1, 0), (u8, 1, 255), (u8, 1, 0)]) picture
      = some [[[127]], [[129]], [[384]], [[1]]] := by decide
theorem test_rctdI_clamps :
    seen .rctdI (pixels 0 [(u8, 1, 0), (u9, 2, 511), (u9, 2, 511), (u9, 2, 511)]) picture
      = some [[[128]], [[1]], [[0]], [[128]]] := by decide
theorem test_ycgcoF :
    seen .ycgcoF (pixels 0 [(u8, 1, 0), (u8, 1, 0), (u8, 1, 255)]) picture = some [[[63]], [[129]], [[1]]] := by decide
theorem test_ycgcoI_clamps :
    seen .ycgcoI (pixels 0 [(u8, 1, 255), (u9, 2, 0), (u9, 2, 0)]) picture = some [[[255]], [[127]], [[255]]] := by decide
theorem test_ycgcodF :
    seen .ycgcodF (pixels 0 [(u8, 1, 0), (u8, 1, 255), (u8, 1, 0), (u8, 1, 255)]) picture
      = some [[[127]], [[256]], [[1]], [[511]]] := by decide
theorem test_ycgcodI_clamps :
    seen .ycgcodI (pixels 0 [(u8, 1, 255), (u9, 2, 0), (u9, 2, 0), (u9, 2, 0)]) picture
      = some [[[255]], [[0]], [[255]], [[255]]] := by decide
theorem test_rct422F_wraps :
    seen .rct422F (cell422 0 u8 0x01020008 1 0 255 255 255) picture = some [[[127, 126]], [[511]], [[511]]] := by decide
theorem test_rct422I_wraps :
    seen .rct422I (cell422 0 u8 0x01020009 2 127 126 511 511) picture = some [[[0, 255]], [[255]], [[255]]] := by decide
theorem test_rctxF_rggb :
    seen (.rctxF 1) (cfa22 0 8 1 255 0 255 0) picture = some [[[127, 128], [383, 511]]] := by decide
theorem test_rctxF_signedness :
    seen (.rctxF 1) (cfa22 0 0x108 1 0 0 0 0) flags = some (2#32, 3#32, 0x144#32) := by decide
theorem test_rctxI_clamps :
    seen (.rctxI 1) (cfa22 0 9 2 511 511 511 511) picture = some [[[127, 0], [0, 127]]] := by decide
theorem test_rctxI_depth_1 :
    seen (.rctxI 1) (cfa22 0 1 1 0 0 0 0) flags = some (2#32, 5#32, 0x145#32) := by decide
theorem test_ydgcocgxF_rggb :
    seen (.ydgcocgxF 1) (cfa22 0 8 1 1 2 3 4) picture = some [[[3, 256], [253, 257]]] := by decide
theorem test_ydgcocgxI_clamps :
    seen (.ydgcocgxI 1) (cfa22 0 9 2 511 511 511 511) picture = some [[[0, 0], [253, 255]]] := by decide

/-! ### The host: program P3 of section 4, a word that is no command, and the interface functions -/

theorem test_illegal_word :
    flags (afterStep (State.reset.withFetchWord 32 0x00010000)) = (2#32, 8#32, 0x00010000#32) := by decide
theorem test_ignored_while_error :
    flags (afterStep { State.reset with status := 2#32, err := 1#32, errinfo := 0x30#32, host := [.regWrite 0 0x1001] })
      = (2#32, 1#32, 0x30#32) := by decide
theorem test_decodeTableWord : decodeTableWord 32 0x0000024A = some (.ydgcocgxF 2) ∧ decodeTableWord 32 0x00000130 = none := by
  decide
theorem test_withFetchWord : (afterStep (State.reset.withFetchWord 32 0x00000120)).rdata = 0xE4#64 := by decide
theorem test_host_memory_outside : step { State.reset with host := [.memRead 0xFFFF 2] } = .fault .hostActionOutsideMem := rfl

/-! ### Witnesses: cases that meet the hypotheses of the statements, clause by clause at the boundary values -/

/-- A state that no reset leaves: an error is recorded and the image is C2P's output. -/
def busy : State := { after .c2p cfa42 with status := 2#32, err := 6#32, errinfo := 0x00000130#32 }

/-- `s` whose host does `act` and then a NOP. -/
def doing (s : State) (act : HostAction) : State := { s with host := [act, .regWrite 0 0] }

theorem witness_HostResetClearsRegisters : (doing busy .reset).host = .reset :: [.regWrite 0 0] := rfl

theorem witness_StepKeepsInvariant :
    Inv (doing cfa42 (.regWrite 0 0x30))
      ∧ step (doing cfa42 (.regWrite 0 0x30)) = .next (afterStep (doing cfa42 (.regWrite 0 0x30))) := ⟨by decide, rfl⟩

theorem witness_StepKeepsInvariant_error :
    Inv { cfa42 with status := 2#32, err := 6#32, errinfo := 0x30#32, host := [.regWrite 0x25 0xFFFFFFFF] }
      ∧ step { cfa42 with status := 2#32, err := 6#32, errinfo := 0x30#32, host := [.regWrite 0x25 0xFFFFFFFF] }
        = .next (afterStep { cfa42 with status := 2#32, err := 6#32, errinfo := 0x30#32, host := [.regWrite 0x25 0xFFFFFFFF] }) :=
  ⟨by decide, rfl⟩

theorem witness_StepRecordsFittingErrors :
    recordsFittingErrors (doing { cfa42 with status := 2#32, err := 6#32, errinfo := 0x30#32 } (.regWrite 0 1))
      ∧ step (doing { cfa42 with status := 2#32, err := 6#32, errinfo := 0x30#32 } (.regWrite 0 1))
        = .next (afterStep (doing { cfa42 with status := 2#32, err := 6#32, errinfo := 0x30#32 } (.regWrite 0 1))) :=
  ⟨fun _ => ⟨.outOfRange, by decide, rfl⟩, rfl⟩

theorem witness_DecodeInvertsEncode : (Instr.ydgcocgxI 15).wellFormed = true := by decide

theorem witness_EncodeInvertsDecode : decodeWord 0x00000F4B#32 = .ok (.ydgcocgxI 15) := by decide

theorem witness_UnmatchedWordsRaiseIllegalCommand :
    (doing cfa42 (.regWrite 0 0x130)).host = .regWrite 0 0x130 :: [.regWrite 0 0]
      ∧ errFlag (doing cfa42 (.regWrite 0 0x130)).status = false
      ∧ ∀ r ∈ opcodeTable, BitVec.ofInt 32 0x130 &&& r.format.mask ≠ r.pattern := by
  refine ⟨rfl, by decide, ?_⟩
  simp [opcodeTable, unitRows, layoutRows, liftingRows, Format.mask]

theorem witness_StepRunsDecodedCommand :
    (doing cfa42 (.regWrite 0 0x30)).host = .regWrite 0 0x30 :: [.regWrite 0 0]
      ∧ decodeWord (BitVec.ofInt 32 0x30) = .ok .c2p ∧ errFlag (doing cfa42 (.regWrite 0 0x30)).status = false :=
  ⟨rfl, by decide, by decide⟩

theorem witness_StepRunsDecodedCommand_errclr :
    (doing busy (.regWrite 0 1)).host = .regWrite 0 1 :: [.regWrite 0 0]
      ∧ decodeWord (BitVec.ofInt 32 1) = .ok .errclr ∧ errFlag (doing busy (.regWrite 0 1)).status = true :=
  ⟨rfl, by decide, by decide⟩

theorem witness_CommandsIgnoredWhileErrorRecorded :
    errFlag busy.status = true ∧ BitVec.ofInt 32 0x1001 ≠ 0x00000001#32 ∧ 0xFFFF + 1 ≤ busy.memSize := by decide

theorem witness_CommandsIgnoredWhileErrorRecorded_actions :
    (doing busy (.regWrite 0 0x1001)).host = .regWrite 0 0x1001 :: [.regWrite 0 0]
      ∧ (doing busy (.regWrite 0x43 (-1))).host = .regWrite 0x43 (-1) :: [.regWrite 0 0]
      ∧ (doing busy (.regRead 0x03)).host = .regRead 0x03 :: [.regWrite 0 0]
      ∧ (doing busy (.memRead 0xFFFF 1)).host = .memRead 0xFFFF 1 :: [.regWrite 0 0]
      ∧ (doing busy (.memWrite 0xFFFF 1 256)).host = .memWrite 0xFFFF 1 256 :: [.regWrite 0 0] := ⟨rfl, rfl, rfl, rfl, rfl⟩

theorem witness_NopCompletes : (doing busy (.regWrite 0 0)).host = .regWrite 0 0 :: [.regWrite 0 0] ∧ errFlag busy.status = true :=
  ⟨rfl, by decide⟩

theorem witness_ErrclrCompletes : (doing busy (.regWrite 0 1)).host = .regWrite 0 1 :: [.regWrite 0 0] := rfl

/-- Rows of rule R74 by the lower five and the upper five. -/
theorem witness_ElementTypeAndLoad_low :
    [0x101, 0x108, 0x001, 0x008, 0x109, 0x110, 0x009, 0x010, 0x111, 0x120].map (fun f =>
        (typeRows.filter (fun r => r.describes (slotOf 0 0 0 0 0 f))).map TypeRow.code)
      = [[0], [0], [1], [1], [2], [2], [3], [3], [4], [4]] := by decide

theorem witness_ElementTypeAndLoad_high :
    [0x011, 0x020, 0x121, 0x140, 0x021, 0x040, 0x320, 0x340].map (fun f =>
        (typeRows.filter (fun r => r.describes (slotOf 0 0 0 0 0 f))).map TypeRow.code)
      = [[5], [5], [6], [6], [7], [7], [8], [9]] := by decide

theorem witness_ElementTypeAndLoad_load :
    (⟨false, true, 9, 16, 2, 2⟩ : TypeRow).describes (slotOf 0x100 2 16 8 4 0x10C)
      ∧ load (memOf [(0x100, 2, 0xF800)]) (slotOf 0x100 2 16 8 4 0x10C) 0 0 = -2048 := by decide

/-- The words of the accessor statements at the largest slot number, and of BPOS at the largest code. -/
theorem witness_StandsFor :
    StandsFor (0x00000013#32 ||| BitVec.ofNat 32 3 <<< 12) (.typeof 3)
      ∧ StandsFor (0x00000020#32 ||| BitVec.ofNat 32 15 <<< 8) (.bpos 15) := by decide

theorem witness_untyped :
    untyped (slotOf 0 0 0 0 0 0x000) ∧ untyped (slotOf 0 0 0 0 0 0x041) ∧ untyped (slotOf 0 0 0 0 0 0x220)
      ∧ untyped (slotOf 0 0 0 0 0 0x330) := by decide

/-- The row of rule R74 that `tenBit` meets. -/
def tenBitRow : TypeRow := ⟨false, false, 9, 16, 3, 2⟩

theorem witness_AddrCompletes :
    tenBitRow ∈ typeRows ∧ tenBitRow.describes ((looking 0 0 (slotOf 0xFFFE 2 16 8 4 0x0A) []).slot 0)
      ∧ inside (looking 0 0 (slotOf 0xFFFE 2 16 8 4 0x0A) []) (plainAddr (looking 0 0 (slotOf 0xFFFE 2 16 8 4 0x0A) []) 0) 2
      ∧ inside (looking (-128) 0 tenBit []) (plainAddr (looking (-128) 0 tenBit []) 0) 2 := by decide

theorem witness_AddrCompletes_outside :
    tenBitRow.describes ((looking 0 0 (slotOf 0xFFFF 2 16 8 4 0x0A) []).slot 0)
      ∧ ¬inside (looking 0 0 (slotOf 0xFFFF 2 16 8 4 0x0A) []) (plainAddr (looking 0 0 (slotOf 0xFFFF 2 16 8 4 0x0A) []) 0) 2
      ∧ ¬inside (looking (-129) 0 tenBit []) (plainAddr (looking (-129) 0 tenBit []) 0) 2 := by decide

theorem witness_AddrCompletes_untyped : untyped ((looking (-129) 0 (slotOf 0x100 2 16 8 4 0) []).slot 0) := by decide

theorem witness_LdsCompletes :
    tenBitRow ∈ typeRows ∧ tenBitRow.describes ((looking 3 2 tenBit (memOf [(0x126, 2, 0x3FF)])).slot 0)
      ∧ inside (looking 3 2 tenBit (memOf [(0x126, 2, 0x3FF)])) (plainAddr (looking 3 2 tenBit (memOf [(0x126, 2, 0x3FF)])) 0) 2
      ∧ pattern64 tenBitRow (memRead (memOf [(0x126, 2, 0x3FF)]) 0x126 2) = 0x3FF#64 := by decide

theorem witness_StsCompletes :
    tenBitRow ∈ typeRows ∧ tenBitRow.describes ((looking 3 2 tenBit []).slot 0)
      ∧ inside (looking 3 2 tenBit []) (plainAddr (looking 3 2 tenBit []) 0) tenBitRow.bytes := by decide

theorem witness_MaddrCompletes :
    tenBitRow ∈ typeRows ∧ tenBitRow.describes ((looking 14 (-3) tenBit []).slot 0)
      ∧ mirrorInside (looking (-7) 6 tenBit []) 0 ∧ mirroredAddr (looking (-7) 6 tenBit []) 0 = 0x10E
      ∧ mirrorInside (looking 14 (-3) tenBit []) 0
      ∧ inside (looking 14 (-3) tenBit []) (mirroredAddr (looking 14 (-3) tenBit []) 0) tenBitRow.bytes := by decide

theorem witness_MaddrCompletes_outside_mem :
    tenBitRow.describes ((looking 8 0 (slotOf 0xFFF3 2 16 8 4 0x0A) []).slot 0)
      ∧ mirrorInside (looking 8 0 (slotOf 0xFFF3 2 16 8 4 0x0A) []) 0
      ∧ ¬inside (looking 8 0 (slotOf 0xFFF3 2 16 8 4 0x0A) []) (mirroredAddr (looking 8 0 (slotOf 0xFFF3 2 16 8 4 0x0A) []) 0) 2 := by
  decide

theorem witness_MaddrCompletes_outside_component :
    ¬mirrorInside (looking 15 0 tenBit []) 0 ∧ ¬mirrorInside (looking (-8) 0 tenBit []) 0
      ∧ ¬mirrorInside (looking 0 0 (slotOf 0x100 2 16 0 4 0x0A) []) 0
      ∧ ¬mirrorInside (looking (-1) 0 (slotOf 0x100 2 16 1 4 0x0A) []) 0 := by decide

theorem witness_LdmCompletes :
    tenBitRow ∈ typeRows ∧ tenBitRow.describes ((looking (-1) 4 tenBit []).slot 0) ∧ mirrorInside (looking (-1) 4 tenBit []) 0
      ∧ inside (looking (-1) 4 tenBit []) (mirroredAddr (looking (-1) 4 tenBit []) 0) tenBitRow.bytes := by decide

theorem witness_MirrorReflectsOnce : (mirror (-3) 4, mirror 6 4, mirror 7 4, mirror 0 1) = (3, 0, -1, 0) := by decide

theorem witness_UnknownArrangementComesFirst : (4 ≤ 4 ∧ 4 < 16) ∧ 4 ≤ 15 ∧ 15 < 16 := by decide

theorem witness_BparseCompletes :
    0x0000000167627267#64 ≠ 0x67627267#64 ∧ 0x0000000167627267#64 ≠ 0x62676772#64 ∧ 0x0000000167627267#64 ≠ 0x67726267#64
      ∧ 0x0000000167627267#64 ≠ 0x72676762#64 := by decide

theorem witness_C2pConverts :
    CfaSizes cfa42 ∧ ¬untyped (cfa42.slot 0) ∧ BuffersFit cfa42 [cfa42.slot 0] (planesOf rasterPhases cfa42)
      ∧ BuffersApart cfa42 [cfa42.slot 0] (planesOf rasterPhases cfa42) := by decide

theorem witness_C2psConverts :
    3 < 4 ∧ CfaSizes cfa42 ∧ ¬untyped (cfa42.slot 0) ∧ BuffersFit cfa42 [cfa42.slot 0] (planesOf (phasesOf 3) cfa42)
      ∧ BuffersApart cfa42 [cfa42.slot 0] (planesOf (phasesOf 3) cfa42) := by decide

/-- Four planes of one sample, 8 bits unsigned. -/
def fourPlanes : State := pixels 0 [(u8, 1, 100), (u8, 1, 110), (u8, 1, 120), (u8, 1, 130)]

theorem witness_P2cConverts :
    EqualSizes fourPlanes 4 ∧ EqualFormats fourPlanes 4
      ∧ (∀ c : Nat, c < 4 → (fourPlanes.slot c).subX = 1 ∧ (fourPlanes.slot c).subY = 1)
      ∧ ¬untyped (fourPlanes.slot 0) ∧ BuffersFit fourPlanes (firstSlots fourPlanes 4) (cfaOf rasterPhases fourPlanes)
      ∧ BuffersApart fourPlanes (firstSlots fourPlanes 4) (cfaOf rasterPhases fourPlanes) := by decide

theorem witness_P2csConverts :
    2 < 4 ∧ EqualSizes fourPlanes 4 ∧ EqualFormats fourPlanes 4
      ∧ (∀ c : Nat, c < 4 → (fourPlanes.slot c).subX = 1 ∧ (fourPlanes.slot c).subY = 1)
      ∧ ¬untyped (fourPlanes.slot 0) ∧ BuffersFit fourPlanes (firstSlots fourPlanes 4) (cfaOf (phasesOf 2) fourPlanes)
      ∧ BuffersApart fourPlanes (firstSlots fourPlanes 4) (cfaOf (phasesOf 2) fourPlanes) := by decide

theorem witness_C2yConverts :
    1 < 4 ∧ CfaSizes cfa42 ∧ ¬untyped (cfa42.slot 0) ∧ BuffersFit cfa42 [cfa42.slot 0] (image422 1 cfa42)
      ∧ BuffersApart cfa42 [cfa42.slot 0] (image422 1 cfa42) := by decide

/-- A 4:2:2 image of one cell, 8 bits unsigned. -/
def green422 : State := cell422 0 u8 0x01020008 1 0 255 255 255

theorem witness_Y2cConverts :
    1 < 4 ∧ Shape422 green422 ∧ EqualFormats green422 3 ∧ ¬untyped (green422.slot 0)
      ∧ BuffersFit green422 (firstSlots green422 3) (cfaOf422 1 green422)
      ∧ BuffersApart green422 (firstSlots green422 3) (cfaOf422 1 green422) := by decide

/-- Three planes of one sample, 31 bits unsigned: the deepest a forward command takes. -/
def threePlanes : State :=
  pixels 0 [(0x0101001F, 4, 2147483647), (0x0101001F, 4, 0), (0x0101001F, 4, 2147483647)]

theorem witness_RctForwardConverts :
    ForwardInput threePlanes 3 ∧ BuffersFit threePlanes (firstSlots threePlanes 3) (rctOuts threePlanes)
      ∧ BuffersApart threePlanes (firstSlots threePlanes 3) (rctOuts threePlanes) := by decide

/-- A luma and two or three chroma planes of one sample. -/
def lumaChroma (n : Nat) : State := pixels 0 ([(u8, 1, 255), (u9, 2, 0), (u9, 2, 511), (u9, 2, 256)].take n)

theorem witness_RctInverseConverts :
    InverseInput (lumaChroma 3) 3 ∧ BuffersFit (lumaChroma 3) (firstSlots (lumaChroma 3) 3) (rctBack (lumaChroma 3))
      ∧ BuffersApart (lumaChroma 3) (firstSlots (lumaChroma 3) 3) (rctBack (lumaChroma 3)) := by decide

theorem witness_RctdForwardConverts :
    ForwardInput fourPlanes 4 ∧ BuffersFit fourPlanes (firstSlots fourPlanes 4) (rctdOuts fourPlanes)
      ∧ BuffersApart fourPlanes (firstSlots fourPlanes 4) (rctdOuts fourPlanes) := by decide

theorem witness_RctdInverseConverts :
    InverseInput (lumaChroma 4) 4 ∧ BuffersFit (lumaChroma 4) (firstSlots (lumaChroma 4) 4) (rctdBack (lumaChroma 4))
      ∧ BuffersApart (lumaChroma 4) (firstSlots (lumaChroma 4) 4) (rctdBack (lumaChroma 4)) := by decide

theorem witness_YcgcoForwardConverts :
    ForwardInput threePlanes 3 ∧ BuffersFit threePlanes (firstSlots threePlanes 3) (ycgcoOuts threePlanes)
      ∧ BuffersApart threePlanes (firstSlots threePlanes 3) (ycgcoOuts threePlanes) := by decide

theorem witness_YcgcoInverseConverts :
    InverseInput (lumaChroma 3) 3 ∧ BuffersFit (lumaChroma 3) (firstSlots (lumaChroma 3) 3) (ycgcoBack (lumaChroma 3))
      ∧ BuffersApart (lumaChroma 3) (firstSlots (lumaChroma 3) 3) (ycgcoBack (lumaChroma 3)) := by decide

theorem witness_YcgcodForwardConverts :
    ForwardInput fourPlanes 4 ∧ BuffersFit fourPlanes (firstSlots fourPlanes 4) (ycgcodOuts fourPlanes)
      ∧ BuffersApart fourPlanes (firstSlots fourPlanes 4) (ycgcodOuts fourPlanes) := by decide

theorem witness_YcgcodInverseConverts :
    InverseInput (lumaChroma 4) 4 ∧ BuffersFit (lumaChroma 4) (firstSlots (lumaChroma 4) 4) (ycgcodBack (lumaChroma 4))
      ∧ BuffersApart (lumaChroma 4) (firstSlots (lumaChroma 4) 4) (ycgcodBack (lumaChroma 4)) := by decide

theorem witness_Rct422ForwardConverts :
    Shape422 green422 ∧ EqualFormats green422 3 ∧ ForwardDepth green422
      ∧ BuffersFit green422 (firstSlots green422 3) (rct422Outs green422)
      ∧ BuffersApart green422 (firstSlots green422 3) (rct422Outs green422) := by decide

/-- What RCT422.F makes of it. -/
def luma422 : State := cell422 0 u8 0x01020009 2 127 126 511 511

theorem witness_Rct422InverseConverts :
    Shape422 luma422 ∧ InverseTypes luma422 3 ∧ BuffersFit luma422 (firstSlots luma422 3) (rct422Back luma422)
      ∧ BuffersApart luma422 (firstSlots luma422 3) (rct422Back luma422) := by decide

theorem witness_RctxForwardConverts :
    3 < 4 ∧ GridInput cfa42 1 31 ∧ BuffersFit cfa42 [cfa42.slot 0] (gridOut cfa42 (nOf cfa42 + 1) (rctxSamples cfa42 3))
      ∧ BuffersApart cfa42 [cfa42.slot 0] (gridOut cfa42 (nOf cfa42 + 1) (rctxSamples cfa42 3)) := by decide

/-- A transformed CFA image of 32 bits, the deepest an inverse command takes. -/
def grid22 : State := cfa22 0 0x20 4 1 2 3 4294967295

theorem witness_RctxInverseConverts :
    0 < 4 ∧ GridInput grid22 2 32 ∧ BuffersFit grid22 [grid22.slot 0] (gridOut grid22 (nOf grid22 - 1) (rctxRestored grid22 0))
      ∧ BuffersApart grid22 [grid22.slot 0] (gridOut grid22 (nOf grid22 - 1) (rctxRestored grid22 0)) := by decide

theorem witness_YdgcocgxForwardConverts :
    2 < 4 ∧ GridInput cfa42 1 31 ∧ BuffersFit cfa42 [cfa42.slot 0] (gridOut cfa42 (nOf cfa42 + 1) (ydgcocgxSamples cfa42 2))
      ∧ BuffersApart cfa42 [cfa42.slot 0] (gridOut cfa42 (nOf cfa42 + 1) (ydgcocgxSamples cfa42 2)) := by decide

theorem witness_YdgcocgxInverseConverts :
    2 < 4 ∧ GridInput grid22 2 32 ∧ BuffersFit grid22 [grid22.slot 0] (gridOut grid22 (nOf grid22 - 1) (ydgcocgxRestored grid22 2))
      ∧ BuffersApart grid22 [grid22.slot 0] (gridOut grid22 (nOf grid22 - 1) (ydgcocgxRestored grid22 2)) := by decide

theorem witness_LiftPassInverts :
    ((2 : Int) ≤ 2 ∧ (2 : Int) % 2 = 0 ∧ 1 ≤ 9)
      ∧ ∀ x y : Int, 0 ≤ x → x < 2 → 0 ≤ y → y < 2 → legal true 9 ((fun x _ : Int => 255 - 511 * x) x y) := by
  refine ⟨by decide, fun x y h0 h1 _ _ => ?_⟩
  rcases (by omega : x = 0 ∨ x = 1) with rfl | rfl <;> simp [legal, lo, hi]

theorem witness_ConversionsStoreLegalSamples_lifting :
    exec .rctI (lumaChroma 3) = .next (after .rctI (lumaChroma 3)) ∧ errFlag (lumaChroma 3).status = false
      ∧ errFlag (after .rctI (lumaChroma 3)).status = false := ⟨rfl, by decide, by decide⟩

theorem witness_ConversionsStoreLegalSamples_layout :
    exec .c2p cfa42 = .next (after .c2p cfa42) ∧ errFlag cfa42.status = false ∧ errFlag (after .c2p cfa42).status = false
      ∧ (cfa42.slot 0).isFloat = false ∧ LegalSamples cfa42 cfa42.imgDepth.toNat := ⟨rfl, by decide, by decide, by decide, by decide⟩

/-- The first of the checks that fails has this code: every check before it holds. -/
def FailsFirst (code : Nat) : List (Prop × Nat) → Prop
  | [] => False
  | (check, k) :: rest => (¬check ∧ k = code) ∨ (check ∧ FailsFirst code rest)

/-- `s` with other output buffers. -/
def outTo (s : State) (b0 b1 : Word) : State := { s with outBase := ⟨b0, b1, 0x180#32, 0x1C0#32⟩ }

/-- `s` with another number of components. -/
def counting (s : State) (n : Nat) : State := { s with imgDepth := BitVec.ofNat 16 n }

/-- Setup A of section 3.11 with other sizes and another `FMT`. -/
def cfaWith (w h fmt : Nat) : State := image 0 1 [slotOf 0 1 4 w h fmt] []

/-- The checks of C2PS with the code `a`. -/
def c2psChecks (a : Nat) (s : State) : List (Prop × Nat) := arrangementCheck a :: cfaChecks s (planesOf (phasesOf a) s)

theorem witness_LayoutChecksInOrder_arrangement : FailsFirst 4 (c2psChecks 4 (cfaWith 3 2 0)) := .inl ⟨by decide, rfl⟩

theorem witness_LayoutChecksInOrder_cfa_count : FailsFirst 1 (c2psChecks 3 (counting cfa42 0)) :=
  .inr ⟨by decide, .inl ⟨by decide, rfl⟩⟩

theorem witness_LayoutChecksInOrder_cfa_sizes : FailsFirst 1 (c2psChecks 0 (cfaWith 3 2 8)) ∧ FailsFirst 1 (c2psChecks 0 (cfaWith 2 0 8)) :=
  ⟨.inr ⟨by decide, .inl ⟨by decide, rfl⟩⟩, .inr ⟨by decide, .inl ⟨by decide, rfl⟩⟩⟩

theorem witness_LayoutChecksInOrder_cfa_type : FailsFirst 3 (c2psChecks 0 (cfaWith 4 2 0x41)) :=
  .inr ⟨by decide, .inr ⟨by decide, .inl ⟨by decide, rfl⟩⟩⟩

theorem witness_LayoutChecksInOrder_cfa_range : FailsFirst 6 (c2psChecks 0 (outTo cfa42 0xFFFF#32 0x140#32)) :=
  .inr ⟨by decide, .inr ⟨by decide, .inr ⟨by decide, .inl ⟨by decide, rfl⟩⟩⟩⟩

theorem witness_LayoutChecksInOrder_cfa_overlap : FailsFirst 7 (c2psChecks 0 (outTo cfa42 7#32 0x140#32)) :=
  .inr ⟨by decide, .inr ⟨by decide, .inr ⟨by decide, .inr ⟨by decide, .inl ⟨by decide, rfl⟩⟩⟩⟩⟩

/-- The checks of P2C. -/
def p2cChecks (s : State) : List (Prop × Nat) := planeChecks s (cfaOf rasterPhases s)

theorem witness_LayoutChecksInOrder_planes_count : FailsFirst 1 (p2cChecks (counting fourPlanes 3)) := .inl ⟨by decide, rfl⟩

theorem witness_LayoutChecksInOrder_planes_formats :
    FailsFirst 2 (p2cChecks (pixels 0 [(u8, 1, 1), (u8, 1, 2), (u8, 1, 3), (8, 1, 4)]))
      ∧ FailsFirst 2 (p2cChecks (pixels 0 [(u8, 1, 1), (u8, 1, 2), (u8, 1, 3), (0x01010108, 1, 4)])) :=
  ⟨.inr ⟨by decide, .inl ⟨by decide, rfl⟩⟩, .inr ⟨by decide, .inl ⟨by decide, rfl⟩⟩⟩

theorem witness_LayoutChecksInOrder_planes_type :
    FailsFirst 3 (p2cChecks (pixels 0 [(0x01010000, 1, 1), (0x01010000, 1, 2), (0x01010000, 1, 3), (0x01010000, 1, 4)])) :=
  .inr ⟨by decide, .inr ⟨by decide, .inl ⟨by decide, rfl⟩⟩⟩

theorem witness_LayoutChecksInOrder_planes_range : FailsFirst 6 (p2cChecks (outTo fourPlanes 0xFFFD#32 0x140#32)) :=
  .inr ⟨by decide, .inr ⟨by decide, .inr ⟨by decide, .inl ⟨by decide, rfl⟩⟩⟩⟩

theorem witness_LayoutChecksInOrder_planes_overlap : FailsFirst 7 (p2cChecks (outTo fourPlanes 0x30#32 0x140#32)) :=
  .inr ⟨by decide, .inr ⟨by decide, .inr ⟨by decide, .inr ⟨by decide, .inl ⟨by decide, rfl⟩⟩⟩⟩⟩

/-- The checks of Y2C rggb. -/
def y2cChecks (s : State) : List (Prop × Nat) := copy422Checks s (cfaOf422 1 s)

/-- `green422` with other registers in C1. -/
def green422With (c1 : Slot) : State := { green422 with slots := { green422.slots with i1 := c1 } }

theorem witness_LayoutChecksInOrder_422_sizes : FailsFirst 1 (y2cChecks (green422With (slotOf 0x10 1 1 2 1 0x01020008))) :=
  .inl ⟨by decide, rfl⟩

theorem witness_LayoutChecksInOrder_422_subsampling : FailsFirst 2 (y2cChecks (green422With (slotOf 0x10 1 1 1 1 u8))) :=
  .inr ⟨by decide, .inl ⟨by decide, rfl⟩⟩

theorem witness_LayoutChecksInOrder_422_type : FailsFirst 3 (y2cChecks (cell422 0 0x01010000 0x01020000 1 0 0 0 0)) :=
  .inr ⟨by decide, .inr ⟨by decide, .inl ⟨by decide, rfl⟩⟩⟩

theorem witness_LayoutChecksInOrder_422_range : FailsFirst 6 (y2cChecks (outTo green422 0xFFFD#32 0x140#32)) :=
  .inr ⟨by decide, .inr ⟨by decide, .inr ⟨by decide, .inl ⟨by decide, rfl⟩⟩⟩⟩

theorem witness_LayoutChecksInOrder_422_overlap : FailsFirst 7 (y2cChecks (outTo green422 0x20#32 0x140#32)) :=
  .inr ⟨by decide, .inr ⟨by decide, .inr ⟨by decide, .inr ⟨by decide, .inl ⟨by decide, rfl⟩⟩⟩⟩⟩

/-- The checks of RCT.F. -/
def rctFChecks (s : State) : List (Prop × Nat) := forwardChecks s 3 (EqualSizes s 3) True (rctOuts s)

/-- Three planes of one sample with the formats given. -/
def planes3 (f0 f1 f2 k : Nat) : State := pixels 0 [(f0, k, 1), (f1, k, 2), (f2, k, 4)]

theorem witness_PlanarChecksInOrder_forward_count : FailsFirst 1 (rctFChecks fourPlanes) := .inl ⟨by decide, rfl⟩

theorem witness_PlanarChecksInOrder_forward_formats : FailsFirst 2 (rctFChecks (planes3 8 8 10 1)) :=
  .inr ⟨by decide, .inl ⟨by decide, rfl⟩⟩

theorem witness_PlanarChecksInOrder_forward_types :
    FailsFirst 3 (rctFChecks (planes3 0 0 0 1)) ∧ FailsFirst 3 (rctFChecks (planes3 0x320 0x320 0x320 4)) :=
  ⟨.inr ⟨by decide, .inr ⟨by decide, .inl ⟨by decide, rfl⟩⟩⟩, .inr ⟨by decide, .inr ⟨by decide, .inl ⟨by decide, rfl⟩⟩⟩⟩

theorem witness_PlanarChecksInOrder_forward_depth : FailsFirst 5 (rctFChecks (planes3 0x20 0x20 0x20 4)) :=
  .inr ⟨by decide, .inr ⟨by decide, .inr ⟨by decide, .inl ⟨by decide, rfl⟩⟩⟩⟩

theorem witness_PlanarChecksInOrder_forward_range : FailsFirst 6 (rctFChecks (outTo threePlanes 0x100#32 0xFFFD#32)) :=
  .inr ⟨by decide, .inr ⟨by decide, .inr ⟨by decide, .inr ⟨by decide, .inl ⟨by decide, rfl⟩⟩⟩⟩⟩

theorem witness_PlanarChecksInOrder_forward_overlap : FailsFirst 7 (rctFChecks (outTo threePlanes 0x100#32 0x103#32)) :=
  .inr ⟨by decide, .inr ⟨by decide, .inr ⟨by decide, .inr ⟨by decide, .inr ⟨by decide, .inl ⟨by decide, rfl⟩⟩⟩⟩⟩⟩

/-- The checks of RCT.I. -/
def rctIChecks (s : State) : List (Prop × Nat) := inverseChecks s 3 (EqualSizes s 3) True (rctBack s)

theorem witness_PlanarChecksInOrder_inverse_count : FailsFirst 1 (rctIChecks (lumaChroma 4)) := .inl ⟨by decide, rfl⟩

/-- Lines 10 and 11 of section 3.11: the chroma's depth, and its signedness with `CS = 0`. -/
theorem witness_PlanarChecksInOrder_inverse_formats :
    FailsFirst 2 (rctIChecks (planes3 8 8 8 1)) ∧ FailsFirst 2 (rctIChecks (planes3 8 0x109 0x109 2)) :=
  ⟨.inr ⟨by decide, .inl ⟨by decide, rfl⟩⟩, .inr ⟨by decide, .inl ⟨by decide, rfl⟩⟩⟩

theorem witness_PlanarChecksInOrder_inverse_types : FailsFirst 3 (rctIChecks (planes3 64 65 65 8)) :=
  .inr ⟨by decide, .inr ⟨by decide, .inl ⟨by decide, rfl⟩⟩⟩

theorem witness_PlanarChecksInOrder_inverse_depth : FailsFirst 5 (rctIChecks (planes3 32 33 33 8)) :=
  .inr ⟨by decide, .inr ⟨by decide, .inr ⟨by decide, .inl ⟨by decide, rfl⟩⟩⟩⟩

theorem witness_PlanarChecksInOrder_inverse_range : FailsFirst 6 (rctIChecks (outTo (lumaChroma 3) 0x100#32 0x10000#32)) :=
  .inr ⟨by decide, .inr ⟨by decide, .inr ⟨by decide, .inr ⟨by decide, .inl ⟨by decide, rfl⟩⟩⟩⟩⟩

theorem witness_PlanarChecksInOrder_inverse_overlap : FailsFirst 7 (rctIChecks (outTo (lumaChroma 3) 0x100#32 0x21#32)) :=
  .inr ⟨by decide, .inr ⟨by decide, .inr ⟨by decide, .inr ⟨by decide, .inr ⟨by decide, .inl ⟨by decide, rfl⟩⟩⟩⟩⟩⟩

/-- The checks of RCT422.F, and of RCT422.I. -/
def rct422FChecks (s : State) : List (Prop × Nat) := forwardChecks s 3 (Sizes422 s) (Subsampling422 s) (rct422Outs s)

@[inherit_doc rct422FChecks]
def rct422IChecks (s : State) : List (Prop × Nat) := inverseChecks s 3 (Sizes422 s) (Subsampling422 s) (rct422Back s)

theorem witness_PlanarChecksInOrder_422_sizes :
    FailsFirst 1 (rct422FChecks (green422With (slotOf 0x10 1 1 2 1 0x01020008))) := .inl ⟨by decide, rfl⟩

theorem witness_PlanarChecksInOrder_422_subsampling :
    FailsFirst 2 (rct422FChecks (green422With (slotOf 0x10 1 1 1 1 u8)))
      ∧ FailsFirst 2 (rct422IChecks (cell422 0 u8 u9 2 1 2 3 4)) :=
  ⟨.inr ⟨by decide, .inl ⟨by decide, rfl⟩⟩, .inr ⟨by decide, .inl ⟨by decide, rfl⟩⟩⟩

theorem witness_PlanarChecksInOrder_422_buffers :
    FailsFirst 6 (rct422FChecks (outTo green422 0xFFFF#32 0x140#32))
      ∧ FailsFirst 7 (rct422IChecks (outTo luma422 0x21#32 0x140#32)) :=
  ⟨.inr ⟨by decide, .inr ⟨by decide, .inr ⟨by decide, .inr ⟨by decide, .inl ⟨by decide, rfl⟩⟩⟩⟩⟩,
    .inr ⟨by decide, .inr ⟨by decide, .inr ⟨by decide, .inr ⟨by decide, .inr ⟨by decide, .inl ⟨by decide, rfl⟩⟩⟩⟩⟩⟩⟩

/-- The checks of RCTX.F, and of RCTX.I, with the code `a`. -/
def rctxFChecks (a : Nat) (s : State) : List (Prop × Nat) :=
  arrangementCheck a :: gridChecks s (nOf s ≤ 31) (gridOut s (nOf s + 1) (rctxSamples s a))

@[inherit_doc rctxFChecks]
def rctxIChecks (a : Nat) (s : State) : List (Prop × Nat) :=
  arrangementCheck a :: gridChecks s (2 ≤ nOf s ∧ nOf s ≤ 32) (gridOut s (nOf s - 1) (rctxRestored s a))

theorem witness_CfaGridChecksInOrder_arrangement : FailsFirst 4 (rctxFChecks 15 cfa42) := .inl ⟨by decide, rfl⟩

theorem witness_CfaGridChecksInOrder_sizes : FailsFirst 1 (rctxFChecks 1 (cfaWith 4 3 8)) :=
  .inr ⟨by decide, .inl ⟨by decide, rfl⟩⟩

/-- Line 15 of section 3.11: signed samples with `CS = 0`. -/
theorem witness_CfaGridChecksInOrder_type : FailsFirst 3 (rctxFChecks 1 (cfaWith 4 2 0x108)) :=
  .inr ⟨by decide, .inr ⟨by decide, .inl ⟨by decide, rfl⟩⟩⟩

/-- Lines 17, 18 and 20 of section 3.11: the limits of the depth. -/
theorem witness_CfaGridChecksInOrder_depth :
    FailsFirst 5 (rctxFChecks 1 (cfaWith 4 2 0x20)) ∧ FailsFirst 5 (rctxIChecks 1 (cfaWith 4 2 0x01))
      ∧ FailsFirst 5 (rctxIChecks 1 (cfaWith 4 2 0x21)) :=
  ⟨.inr ⟨by decide, .inr ⟨by decide, .inr ⟨by decide, .inl ⟨by decide, rfl⟩⟩⟩⟩,
    .inr ⟨by decide, .inr ⟨by decide, .inr ⟨by decide, .inl ⟨by decide, rfl⟩⟩⟩⟩,
    .inr ⟨by decide, .inr ⟨by decide, .inr ⟨by decide, .inl ⟨by decide, rfl⟩⟩⟩⟩⟩

theorem witness_CfaGridChecksInOrder_range : FailsFirst 6 (rctxFChecks 1 (outTo cfa42 0xFFF1#32 0#32)) :=
  .inr ⟨by decide, .inr ⟨by decide, .inr ⟨by decide, .inr ⟨by decide, .inl ⟨by decide, rfl⟩⟩⟩⟩⟩

theorem witness_CfaGridChecksInOrder_overlap : FailsFirst 7 (rctxIChecks 1 (outTo grid22 15#32 0#32)) :=
  .inr ⟨by decide, .inr ⟨by decide, .inr ⟨by decide, .inr ⟨by decide, .inr ⟨by decide, .inl ⟨by decide, rfl⟩⟩⟩⟩⟩⟩

theorem witness_CfaGridChecksInOrder_odd :
    1 < 4 ∧ ((image 0 1 [slotOf 0 1 4 3 2 8] []).slot 0).width % 2 = 1 ∧ ((image 0 1 [slotOf 0 1 4 4 3 8] []).slot 0).height % 2 = 1
      ∧ ((image 0 1 [slotOf 0 1 4 0 2 8] []).slot 0).width = 0 := by decide

theorem witness_HostRegisterInterface :
    [0x04, 0x0A, 0x12, 0x20, 0x25, 0x3D, 0x40, 0x43].map keptBits
        = [1, 0xFFFFFFFFFFFFFFFF, 0xFFFF, 0xFFFFFFFF, 0xFFFF07FF, 0xFFFF07FF, 0xFFFFFFFF, 0xFFFFFFFF]
      ∧ [0x00, 0x01, 0x0B, 0x0C, 0x26, 0x3E, 0x3F, 0x44].map keptBits = [0, 0, 0, 0, 0, 0, 0, 0] := by decide

/-- Values below, in and above the legal range, from `spec/00_scope.md` rule R8 and `spec/95_test_vectors.md` E7 and 3.7. -/
theorem witness_ArithmeticAndCellInversion :
    asr (-3) 1 = -2 ∧ asr (-120 + 4) 3 = -15 ∧ wrap 382 false 8 = 126 ∧ wrap 254 true 8 = -2
      ∧ clamp (-127) false 8 = 0 ∧ clamp 383 false 8 = 255 ∧ clamp (-255) true 8 = -128 := by decide

/-- The host writes the last two bytes of MEM and reads them. -/
def writeThenRead : State := { cfa42 with host := [.memWrite 0xFFFE 2 0x1BEEF, .memRead 0xFFFE 2, .regWrite 0 0] }

theorem witness_HostMemoryWriteThenRead :
    writeThenRead.host = .memWrite 0xFFFE 2 0x1BEEF :: .memRead 0xFFFE 2 :: [.regWrite 0 0]
      ∧ 1 ≤ 2 ∧ 0xFFFE + 2 ≤ writeThenRead.memSize := ⟨rfl, by decide, by decide⟩

/-- The bases of a second command: clear of the first one's buffers. -/
def nextBases : Quad Word := ⟨0x200#32, 0x240#32, 0x280#32, 0x2C0#32⟩

/-- The state before the inverse command. -/
def turned (F : Instr) (s : State) : State := { after F s with outBase := nextBases }

theorem witness_ThreePlaneRoundTrip :
    ForwardInput threePlanes 3 ∧ LegalSamples threePlanes 3
      ∧ BuffersFit threePlanes (firstSlots threePlanes 3) (rctOuts threePlanes)
      ∧ BuffersApart threePlanes (firstSlots threePlanes 3) (rctOuts threePlanes) ∧ exec .rctF threePlanes = .next (after .rctF threePlanes)
      ∧ BuffersFit (turned .rctF threePlanes) (firstSlots (after .rctF threePlanes) 3) (rctBack (after .rctF threePlanes))
      ∧ BuffersApart (turned .rctF threePlanes) (firstSlots (after .rctF threePlanes) 3) (rctBack (after .rctF threePlanes)) :=
  ⟨by decide, by decide, by decide, by decide, rfl, by decide, by decide⟩

theorem witness_FourPlaneRoundTrip :
    ForwardInput fourPlanes 4 ∧ LegalSamples fourPlanes 4
      ∧ BuffersFit fourPlanes (firstSlots fourPlanes 4) (rctdOuts fourPlanes)
      ∧ BuffersApart fourPlanes (firstSlots fourPlanes 4) (rctdOuts fourPlanes) ∧ exec .ycgcodF fourPlanes = .next (after .ycgcodF fourPlanes)
      ∧ BuffersFit (turned .ycgcodF fourPlanes) (firstSlots (after .ycgcodF fourPlanes) 4) (rctdBack (after .ycgcodF fourPlanes))
      ∧ BuffersApart (turned .ycgcodF fourPlanes) (firstSlots (after .ycgcodF fourPlanes) 4)
        (rctdBack (after .ycgcodF fourPlanes)) :=
  ⟨by decide, by decide, by decide, by decide, rfl, by decide, by decide⟩

theorem witness_Rct422RoundTrip :
    Shape422 green422 ∧ EqualFormats green422 3 ∧ ForwardDepth green422 ∧ LegalSamples green422 3
      ∧ BuffersFit green422 (firstSlots green422 3) (rct422Outs green422)
      ∧ BuffersApart green422 (firstSlots green422 3) (rct422Outs green422) ∧ exec .rct422F green422 = .next (after .rct422F green422)
      ∧ BuffersFit (turned .rct422F green422) (firstSlots (after .rct422F green422) 3) (rct422Back (after .rct422F green422))
      ∧ BuffersApart (turned .rct422F green422) (firstSlots (after .rct422F green422) 3)
        (rct422Back (after .rct422F green422)) :=
  ⟨by decide, by decide, by decide, by decide, by decide, by decide, rfl, by decide, by decide⟩

theorem witness_GridRoundTrip :
    1 < 4 ∧ GridInput cfa42 1 31 ∧ LegalSamples cfa42 1 ∧ exec (.rctxF 1) cfa42 = .next (after (.rctxF 1) cfa42)
      ∧ BuffersFit cfa42 [cfa42.slot 0] (gridOut cfa42 (nOf cfa42 + 1) (fun _ _ => 0))
      ∧ BuffersApart cfa42 [cfa42.slot 0] (gridOut cfa42 (nOf cfa42 + 1) (fun _ _ => 0))
      ∧ BuffersFit (turned (.rctxF 1) cfa42) [(after (.rctxF 1) cfa42).slot 0]
        (gridOut (after (.rctxF 1) cfa42) (nOf cfa42) (fun _ _ => 0))
      ∧ BuffersApart (turned (.rctxF 1) cfa42) [(after (.rctxF 1) cfa42).slot 0]
        (gridOut (after (.rctxF 1) cfa42) (nOf cfa42) (fun _ _ => 0)) :=
  ⟨by decide, by decide, by decide, rfl, by decide, by decide, by decide, by decide⟩

theorem witness_PlanesRoundTrip :
    2 < 4 ∧ LegalSamples cfa42 1 ∧ CfaSizes cfa42 ∧ ¬untyped (cfa42.slot 0) ∧ BuffersFit cfa42 [cfa42.slot 0] (planesOf rasterPhases cfa42)
      ∧ BuffersApart cfa42 [cfa42.slot 0] (planesOf rasterPhases cfa42) ∧ exec (.c2ps 2) cfa42 = .next (after (.c2ps 2) cfa42)
      ∧ BuffersFit (turned (.c2ps 2) cfa42) (firstSlots (after (.c2ps 2) cfa42) 4) (cfaOf rasterPhases (after (.c2ps 2) cfa42))
      ∧ BuffersApart (turned (.c2ps 2) cfa42) (firstSlots (after (.c2ps 2) cfa42) 4)
        (cfaOf rasterPhases (after (.c2ps 2) cfa42)) :=
  ⟨by decide, by decide, by decide, by decide, by decide, by decide, rfl, by decide, by decide⟩

theorem witness_Layout422RoundTrip :
    1 < 4 ∧ LegalSamples cfa42 1 ∧ CfaSizes cfa42 ∧ ¬untyped (cfa42.slot 0) ∧ BuffersFit cfa42 [cfa42.slot 0] (image422 1 cfa42)
      ∧ BuffersApart cfa42 [cfa42.slot 0] (image422 1 cfa42) ∧ exec (.c2y 1) cfa42 = .next (after (.c2y 1) cfa42)
      ∧ BuffersFit (turned (.c2y 1) cfa42) (firstSlots (after (.c2y 1) cfa42) 3) (cfaOf422 1 (after (.c2y 1) cfa42))
      ∧ BuffersApart (turned (.c2y 1) cfa42) (firstSlots (after (.c2y 1) cfa42) 3) (cfaOf422 1 (after (.c2y 1) cfa42)) :=
  ⟨by decide, by decide, by decide, by decide, by decide, by decide, rfl, by decide, by decide⟩

end Sys2Proof.Tests
end

/-!
The integer arithmetic and the host's memory interface of `spec/00_scope.md`. First one rule per model operation, in the order of
the definitions they speak of; then the two obligations, assembled from these rules and those of `Sys2Proof/Laws/`.
-/

namespace Sys2Proof.Proofs

open Sys2Proof Sys2Proof.Machine Sys2Proof.Laws

/-! ### `lo`, `hi` and `clamp` (rules R10, R11) -/

theorem lo_le_hi (s : Bool) (n : Nat) : lo s n ≤ hi s n := (lo_le_zero s n).trans (hi_nonneg s n)

theorem clamp_of_lt_lo {v : Int} {s : Bool} {n : Nat} (h : v < lo s n) : clamp v s n = lo s n := if_pos h

theorem clamp_of_hi_lt {v : Int} {s : Bool} {n : Nat} (h : hi s n < v) : clamp v s n = hi s n := by
  have hlo : ¬v < lo s n := ((lo_le_hi s n).trans_lt h).not_gt
  rw [clamp, if_neg hlo, if_pos h]

/-! ### The cell arithmetic (rules R185 to R193)

Each forward average is one sample plus the shift of the differences, so the inverse, which is given the differences, takes that
same shift off again. -/

/-- The green average is the second green plus half the difference, floored. -/
theorem split_ga (g1 g2 : Int) : (split g1 g2).ga = g2 + asr (split g1 g2).d 1 := by
  have hsum : g1 + g2 = g2 * 2 ^ 1 + (g1 - g2) := by ring
  simp only [split, hsum, asr_add_mul]

/-- The luma of RCT is the green plus a quarter of the sum of the two chromas, floored. -/
theorem rctForward_y (r g b : Int) :
    (rctForward r g b).y = g + asr ((rctForward r g b).c1 + (rctForward r g b).c2) 2 := by
  have hsum : r + 2 * g + b = g * 2 ^ 2 + ((b - g) + (r - g)) := by ring
  simp only [rctForward, hsum, asr_add_mul]

theorem merge_split (g1 g2 : Int) : merge (split g1 g2).d (split g1 g2).ga = { g1 := g1, g2 := g2 } := by
  have hd : (split g1 g2).d = g1 - g2 := rfl
  simp only [merge, split_ga, hd, Greens.mk.injEq]
  constructor <;> ring

theorem rctInverse_rctForward (r g b : Int) :
    rctInverse (rctForward r g b).y (rctForward r g b).c1 (rctForward r g b).c2 = { r := r, g := g, b := b } := by
  have hcb : (rctForward r g b).c1 = b - g := rfl
  have hcr : (rctForward r g b).c2 = r - g := rfl
  simp only [rctInverse, rctForward_y, hcb, hcr, add_sub_cancel_right, sub_add_cancel]

/-- YCgCo is two lifting steps, each undone by the subtraction of the shift it added. -/
theorem ycgcoInverse_ycgcoForward (r g b : Int) :
    ycgcoInverse (ycgcoForward r g b).y (ycgcoForward r g b).c1 (ycgcoForward r g b).c2 = { r := r, g := g, b := b } := by
  simp only [ycgcoInverse, ycgcoForward, add_sub_cancel_right, sub_add_cancel, add_sub_cancel]

/-! ### Host memory actions (rules R13, R84) -/

theorem hostInMem_iff {s : State} {a k : Nat} : hostInMem s a k = true ↔ 1 ≤ k ∧ a + k ≤ s.memSize := by
  simp [hostInMem]

theorem step_memWrite {s : State} {a k : Nat} {v : Int} {rest : List HostAction} (h : s.host = .memWrite a k v :: rest)
    (hin : hostInMem s a k = true) : step s = .next { s with host := rest, mem := memWrite s.mem a k v } :=
  (step_action h).trans (if_pos hin)

theorem step_memRead {s : State} {a k : Nat} {rest : List HostAction} (h : s.host = .memRead a k :: rest)
    (hin : hostInMem s a k = true) : step s = .next { s with host := rest, replies := memRead s.mem a k :: s.replies } :=
  (step_action h).trans (if_pos hin)

/-- The number a read returns after a write of the same bytes. -/
theorem memRead_memWrite_toNat (m : Memory) (a k : Nat) (v : Int) :
    memRead (memWrite m a k v) a k = (v % 2 ^ (8 * k)).toNat := by
  rw [← memRead_memWrite_same m a k v, Int.toNat_natCast]

/-! ### The obligations -/

/-- Settles O53: the two steps one after the other; the read meets the memory the write left, in a MEM of the same size. -/
theorem hostMemoryWriteThenRead : Obligations.HostMemoryWriteThenRead := by
  intro s a k v rest hhost hk hfit
  have hin : hostInMem s a k = true := hostInMem_iff.2 ⟨hk, hfit⟩
  refine ⟨_, _, step_memWrite hhost hin, step_memRead rfl hin, ?_, rfl, ?_⟩
  · rw [memRead_memWrite_toNat]
  · exact fun b hb => memGet_memWrite_outside s.mem a k v b hb

/-- Settles O54: the bounds of `asr`, the range of `wrap`, the three cases of `clamp` and the three inversions, each a rule
above or of `Laws/Arith`. -/
theorem arithmeticAndCellInversion : Obligations.ArithmeticAndCellInversion := by
  refine ⟨?asr, fun _ => ⟨rfl, rfl, rfl, rfl⟩, fun v sg n hn => ⟨wrap_legal v sg hn, wrap_emod v sg n⟩, fun _ _ => rfl,
    fun _ _ _ => ⟨clamp_of_lt_lo, clamp_of_hi_lt, fun h1 h2 => clamp_of_legal ⟨h1, h2⟩⟩,
    merge_split, rctInverse_rctForward, ycgcoInverse_ycgcoForward⟩
  case asr =>
    intro v k
    rw [add_mul, one_mul]
    exact asr_bounds v k

end Sys2Proof.Proofs

/-!
The registers of `spec/10_state.md`: what a register number reads after a write to the same or to another number, and what reset
leaves in every register.
-/

namespace Sys2Proof.Proofs

open Sys2Proof Sys2Proof.Machine Sys2Proof.Laws Sys2Proof.Claims

/-! ### Four like things and the fields of a slot -/

theorem quad_get_const {α : Type} (a : α) : (n : Nat) → (⟨a, a, a, a⟩ : Quad α).get n = a
  | 0 | 1 | 2 | _ + 3 => rfl

theorem quad_get_set_same {α : Type} (q : Quad α) (a : α) : (n : Nat) → (q.set n a).get n = a
  | 0 | 1 | 2 | _ + 3 => rfl

theorem getField_zero (f : SlotField) : Slot.zero.getField f = 0#32 := by cases f <;> rfl

/-- What a field of a slot keeps of a written value (rule R43: `FMT` drops its reserved bits). -/
def fieldWritten (v : Word) : SlotField → Word
  | .fmt => fmtWritten v
  | _ => v

theorem getField_setField (d : Slot) (v : Word) (f g : SlotField) :
    (d.setField v f).getField g = if g = f then fieldWritten v f else d.getField g := by
  cases f <;> cases g <;> rfl

/-! ### The register map (rule R54) -/

/-- The bits a write keeps, by register: `keptBits` of its number (`regOf_some`). -/
def keptOf : Reg → Nat
  | .cmd | .status | .err | .errinfo | .rdata | .raddr => 0
  | .ctrl => 1
  | .x | .y | .imgW | .imgH | .outBase _ => 0xFFFFFFFF
  | .wdata => 0xFFFFFFFFFFFFFFFF
  | .imgDepth => 0xFFFF
  | .slot _ .fmt => 0xFFFF07FF
  | .slot _ _ => 0xFFFFFFFF

/-- The number of a register in the map: the inverse of `regOf` (`regOf_some`). -/
def numberOf : Reg → Nat
  | .cmd => 0x00
  | .status => 0x01
  | .err => 0x02
  | .errinfo => 0x03
  | .ctrl => 0x04
  | .x => 0x08
  | .y => 0x09
  | .wdata => 0x0A
  | .rdata => 0x0B
  | .raddr => 0x0C
  | .imgW => 0x10
  | .imgH => 0x11
  | .imgDepth => 0x12
  | .slot c .base => 0x20 + 8 * c
  | .slot c .bpp => 0x21 + 8 * c
  | .slot c .bpr => 0x22 + 8 * c
  | .slot c .w => 0x23 + 8 * c
  | .slot c .h => 0x24 + 8 * c
  | .slot c .fmt => 0x25 + 8 * c
  | .outBase i => 0x40 + i

/-- The index of a register, where it has one, is one of 0 to 3 (rules R36, R48). -/
def indexFits : Reg → Bool
  | .slot c _ => c < 4
  | .outBase i => i < 4
  | _ => true

theorem regOf_of_ge {num : Nat} (h : 0x44 ≤ num) : regOf num = none := by
  unfold regOf
  simp (disch := omega) only [if_neg]

theorem keptBits_of_ge {num : Nat} (h : 0x44 ≤ num) : keptBits num = 0 := by
  unfold keptBits
  simp (disch := omega) only [if_neg]

/-- Every number below the end of the map either names a register whose number it is, or is not assigned and keeps nothing. -/
theorem regOf_table : ∀ num < 0x44,
    (∀ r ∈ regOf num, numberOf r = num ∧ indexFits r = true ∧ keptBits num = keptOf r)
      ∧ (regOf num = none → keptBits num = 0) := by decide

theorem lt_of_regOf {num : Nat} {r : Reg} (h : regOf num = some r) : num < 0x44 := by
  by_contra hge
  rw [regOf_of_ge (not_lt.1 hge)] at h
  cases h

theorem regOf_some {num : Nat} {r : Reg} (h : regOf num = some r) :
    numberOf r = num ∧ indexFits r = true ∧ keptBits num = keptOf r :=
  (regOf_table num (lt_of_regOf h)).1 r h

theorem keptBits_of_unassigned {num : Nat} (h : regOf num = none) : keptBits num = 0 := by
  rcases lt_or_ge num 0x44 with hlt | hge
  · exact (regOf_table num hlt).2 h
  · exact keptBits_of_ge hge

/-- The numbers that read 0 in every state: `CMD` and those rule R54 does not assign. -/
theorem regOf_of_reads_zero : ∀ num < 0x44,
    (num = 0 ∨ (0x05 ≤ num ∧ num ≤ 0x07) ∨ (0x0D ≤ num ∧ num ≤ 0x0F) ∨ (0x13 ≤ num ∧ num ≤ 0x1F)
      ∨ (0x20 ≤ num ∧ num < 0x40 ∧ 6 ≤ num % 8) ∨ 0x44 ≤ num) →
    regOf num = none ∨ regOf num = some .cmd := by decide

/-! ### Reading and writing by register (rule R31) -/

theorem regRead_some {num : Nat} {r : Reg} (h : regOf num = some r) (s : State) : regRead s num = readReg s r := by
  simp only [regRead, h]

theorem regRead_none {num : Nat} (h : regOf num = none) (s : State) : regRead s num = 0 := by
  simp only [regRead, h]

theorem regWrite_some {num : Nat} {r : Reg} (h : regOf num = some r) (s : State) (v : Int) :
    regWrite s num v = writeReg s v r := by
  simp only [regWrite, h]

theorem regWrite_none {num : Nat} (h : regOf num = none) (s : State) (v : Int) : regWrite s num v = s := by
  simp only [regWrite, h]

/-- The low `n` bits of a written value, as the host's number. -/
theorem toNat_ofInt_eq_and {n : Nat} (hn : n ≤ 64) (v : Int) :
    (BitVec.ofInt n v).toNat = (v % 2 ^ 64).toNat &&& (2 ^ n - 1) := by
  have hdvd : (2 : Int) ^ n ∣ 2 ^ 64 := pow_dvd_pow 2 hn
  have hnonneg : 0 ≤ v % 2 ^ 64 := Int.emod_nonneg v (by norm_num)
  rw [BitVec.toNat_ofInt, Nat.and_two_pow_sub_one_eq_mod]
  zify
  rw [Int.toNat_of_nonneg hnonneg, Int.emod_emod_of_dvd v hdvd, Int.toNat_of_nonneg (Int.emod_nonneg v (by positivity))]

theorem toNat_fieldWritten (v : Int) (c : Nat) (f : SlotField) :
    (fieldWritten (BitVec.ofInt 32 v) f).toNat = (v % 2 ^ 64).toNat &&& keptOf (.slot c f) := by
  have h32 := toNat_ofInt_eq_and (n := 32) (by norm_num) v
  cases f
  case fmt =>
    rw [fieldWritten, fmtWritten, BitVec.toNat_and, h32, Nat.and_assoc]
    rfl
  all_goals exact h32

/-- A register that keeps bits reads back the low bits it keeps. -/
theorem readReg_writeReg_same (s : State) (v : Int) {r : Reg} (h : keptOf r ≠ 0) :
    readReg (writeReg s v r) r = (v % 2 ^ 64).toNat &&& keptOf r := by
  have h32 := toNat_ofInt_eq_and (n := 32) (by norm_num) v
  cases r with
  | cmd | status | err | errinfo | rdata | raddr => exact absurd rfl h
  | x | y | imgW | imgH => exact h32
  | wdata | imgDepth => exact toNat_ofInt_eq_and (by norm_num) v
  | ctrl =>
    simp only [writeReg, readReg, ctrlWritten, BitVec.toNat_and, h32, Nat.and_assoc]
    rfl
  | slot c f => rw [writeReg, readReg, quad_get_set_same, getField_setField, if_pos rfl, toNat_fieldWritten v c]
  | outBase i => rw [writeReg, readReg, quad_get_set_same]; exact h32

/-- A register that keeps no bits is not changed by a write (rule R54). -/
theorem writeReg_of_kept_zero (s : State) (v : Int) {r : Reg} (h : keptOf r = 0) : writeReg s v r = s := by
  cases r with
  | cmd | status | err | errinfo | rdata | raddr => rfl
  | ctrl | x | y | wdata | imgW | imgH | imgDepth | outBase => simp [keptOf] at h
  | slot c f => cases f <;> simp [keptOf] at h

/-- A write to one register leaves every other register alone. -/
theorem readReg_writeReg_ne (s : State) (v : Int) {r q : Reg} (hr : indexFits r = true) (hq : indexFits q = true)
    (hne : q ≠ r) : readReg (writeReg s v r) q = readReg s q := by
  cases r with
  | cmd | status | err | errinfo | rdata | raddr => rfl
  | ctrl | x | y | wdata | imgW | imgH | imgDepth => cases q <;> first | rfl | exact absurd rfl hne
  | slot c f =>
    cases q with
    | slot c' f' =>
      have hc : c < 4 := by simpa [indexFits] using hr
      have hc' : c' < 4 := by simpa [indexFits] using hq
      simp only [writeReg, readReg, quad_get_set _ hc hc']
      split
      · subst c'
        rw [getField_setField, if_neg fun hf => hne (by rw [hf])]
      · rfl
    | _ => rfl
  | outBase i =>
    cases q with
    | outBase j =>
      have hi : i < 4 := by simpa [indexFits] using hr
      have hj : j < 4 := by simpa [indexFits] using hq
      rw [writeReg, readReg, quad_get_set _ hi hj, if_neg fun hij => hne (by rw [hij])]
      rfl
    | _ => rfl

@[simp] theorem writeReg_mem (s : State) (v : Int) (r : Reg) : (writeReg s v r).mem = s.mem := by cases r <;> rfl
@[simp] theorem writeReg_memLast (s : State) (v : Int) (r : Reg) : (writeReg s v r).memLast = s.memLast := by cases r <;> rfl
@[simp] theorem writeReg_host (s : State) (v : Int) (r : Reg) : (writeReg s v r).host = s.host := by cases r <;> rfl
@[simp] theorem writeReg_replies (s : State) (v : Int) (r : Reg) : (writeReg s v r).replies = s.replies := by cases r <;> rfl

/-! ### Reading and writing by number -/

theorem regRead_regWrite_same (s : State) {num : Nat} (v : Int) (h : keptBits num ≠ 0) :
    regRead (regWrite s num v) num = (v % 2 ^ 64).toNat &&& keptBits num := by
  cases hreg : regOf num with
  | none => exact absurd (keptBits_of_unassigned hreg) h
  | some r =>
    obtain ⟨-, -, hkept⟩ := regOf_some hreg
    rw [regRead_some hreg, regWrite_some hreg, hkept]
    exact readReg_writeReg_same s v (hkept ▸ h)

theorem regWrite_of_kept_zero (s : State) {num : Nat} (v : Int) (h : keptBits num = 0) : regWrite s num v = s := by
  cases hreg : regOf num with
  | none => exact regWrite_none hreg s v
  | some r =>
    obtain ⟨-, -, hkept⟩ := regOf_some hreg
    rw [regWrite_some hreg]
    exact writeReg_of_kept_zero s v (hkept ▸ h)

theorem regRead_regWrite_ne (s : State) {num other : Nat} (v : Int) (h : other ≠ num) :
    regRead (regWrite s num v) other = regRead s other := by
  cases hother : regOf other with
  | none => rw [regRead_none hother, regRead_none hother]
  | some q =>
    cases hnum : regOf num with
    | none => rw [regWrite_none hnum]
    | some r =>
      obtain ⟨hr, hfitr, -⟩ := regOf_some hnum
      obtain ⟨hq, hfitq, -⟩ := regOf_some hother
      have hne : q ≠ r := fun hqr => h (by rw [← hq, ← hr, hqr])
      rw [regRead_some hother, regRead_some hother, regWrite_some hnum, readReg_writeReg_ne s v hfitr hfitq hne]

/-- A write by number is a write to a register, or changes nothing. -/
theorem regWrite_cases (s : State) (num : Nat) (v : Int) : regWrite s num v = s ∨ ∃ r, regWrite s num v = writeReg s v r := by
  cases hreg : regOf num with
  | none => exact .inl (regWrite_none hreg s v)
  | some r => exact .inr ⟨r, regWrite_some hreg s v⟩

/-- A register write changes neither MEM nor a field of the model's own. -/
theorem regWrite_frame (s : State) (num : Nat) (v : Int) :
    (regWrite s num v).mem = s.mem ∧ (regWrite s num v).host = s.host ∧ (regWrite s num v).replies = s.replies
      ∧ (regWrite s num v).memLast = s.memLast := by
  rcases regWrite_cases s num v with h | ⟨r, h⟩ <;> rw [h] <;> simp

theorem step_regWrite {s : State} {num : Nat} {v : Int} {rest : List HostAction} (h : s.host = .regWrite num v :: rest)
    (hnum : num ≠ 0) : step s = .next (regWrite { s with host := rest } num v) :=
  (step_action h).trans (if_neg hnum)

theorem step_regRead {s : State} {num : Nat} {rest : List HostAction} (h : s.host = .regRead num :: rest) :
    step s = .next { s with host := rest, replies := regRead s num :: s.replies } := step_action h

/-! ### Reset (rules R55, R310) -/

theorem readReg_resetWith (memLast : Word) (mem : Memory) (r : Reg) : readReg (State.resetWith memLast mem) r = 0 := by
  cases r with
  | slot c f =>
    simp only [readReg, resetWith_slots, quad_get_const, getField_zero]
    rfl
  | outBase i =>
    simp only [readReg, resetWith_outBase, quad_get_const]
    rfl
  | _ => rfl

/-! ### The obligations -/

/-- Settles O52: the laws of reading and writing by number, each from the law of the register the number names. -/
theorem hostRegisterInterface : Obligations.HostRegisterInterface := by
  intro s num v
  obtain ⟨hmem, hhost, hreplies, hmemLast⟩ := regWrite_frame s num v
  refine ⟨fun _ => step_regWrite, fun _ => step_regRead, regRead_regWrite_same s v, regWrite_of_kept_zero s v,
    fun _ => regRead_regWrite_ne s v, fun _ => by rw [hmem], hhost, hreplies, hmemLast, fun hzero => ?_⟩
  rcases lt_or_ge num 0x44 with hlt | hge
  · rcases regOf_of_reads_zero num hlt hzero with hnone | hcmd
    · exact regRead_none hnone s
    · exact regRead_some hcmd s
  · exact regRead_none (regOf_of_ge hge) s

/-- Settles O1, by the register a number names. -/
theorem resetRegistersReadZero : Obligations.ResetRegistersReadZero := by
  intro memLast mem num
  cases hreg : regOf num with
  | none => exact regRead_none hreg _
  | some r => rw [regRead_some hreg, readReg_resetWith]

end Sys2Proof.Proofs

/-!
How a command ends (`spec/43_conversion_common.md` rules R160 to R167, `spec/60_exceptions.md` rules R290 to R295), said once for
all thirty: it raises one error of its row of rule R295, or it has its effect and completes.
-/

namespace Sys2Proof.Proofs

open Sys2Proof Sys2Proof.Machine Sys2Proof.Laws Sys2Proof.Claims

/-! ### The flags and the reserved bits of `STATUS`, `CTRL` and `FMT` (rules R35, R43, R49) -/

theorem statusDone_reserved (v : Word) : statusDone v &&& 0xFFFFFFFC#32 = v &&& 0xFFFFFFFC#32 := by
  simp [statusDone, BitVec.and_or_distrib_right]

theorem statusError_reserved (v : Word) : statusError v &&& 0xFFFFFFFC#32 = v &&& 0xFFFFFFFC#32 := by
  simp [statusError, BitVec.and_assoc, BitVec.and_or_distrib_right]

theorem statusCleared_reserved (v : Word) : statusCleared v &&& 0xFFFFFFFC#32 = v &&& 0xFFFFFFFC#32 := by
  simp [statusCleared, BitVec.and_assoc, BitVec.and_or_distrib_right]

theorem ctrlWritten_reserved (v : Word) : ctrlWritten v &&& 0xFFFFFFFE#32 = 0#32 := by
  simp [ctrlWritten, BitVec.and_assoc]

theorem fmtWritten_reserved (v : Word) : fmtWritten v &&& 0x0000F800#32 = 0#32 := by
  simp [fmtWritten, BitVec.and_assoc]

theorem fmtReserved_zero : fmtReserved Slot.zero := rfl

theorem fmtReserved_setField {d : Slot} (h : fmtReserved d) (v : Word) (f : SlotField) : fmtReserved (d.setField v f) := by
  cases f with
  | fmt => exact fmtWritten_reserved v
  | _ => exact h

/-- A commit fills the slots from `ds` and then with zero (rule R166). -/
theorem fmtReserved_getD {ds : List Slot} (h : ∀ d ∈ ds, fmtReserved d) (n : Nat) : fmtReserved (ds.getD n Slot.zero) := by
  rcases lt_or_ge n ds.length with hlt | hge
  · rw [List.getD_eq_getElem _ _ hlt]
    exact h _ (List.getElem_mem hlt)
  · rw [List.getD_eq_default _ _ hge]
    exact fmtReserved_zero

theorem layOut_reserved {s : State} {os : List Output} (h : ∀ o ∈ os, fieldsFit o) (n : Nat) :
    ∀ d ∈ (layOut s n os).map Prod.fst, fmtReserved d := by
  induction os generalizing n with
  | nil => simp [layOut]
  | cons o os ih =>
    rw [layOut, List.map_cons, List.forall_mem_cons]
    exact ⟨newSlot_reserved _ (h o (by simp)), ih (fun o ho => h o (by simp [ho])) (n + 1)⟩

theorem code_ne_zero (e : ErrorKind) : e.code ≠ 0#32 := by cases e <;> decide

theorem code_le (e : ErrorKind) : e.code.toNat ≤ 8 := by cases e <;> decide

/-! ### MEM inside its size (rule R70) -/

/-- Bytes written inside MEM keep its canonical form inside `MEM_SIZE`. -/
theorem memInside_memWrite {s : State} (h : memInside s) {a k : Nat} (hfit : a + k ≤ s.memSize) (v : Int) :
    Memory.wf (memWrite s.mem a k v) ∧ ∀ p ∈ memWrite s.mem a k v, p.1 < s.memSize := by
  obtain ⟨hwf, hlt⟩ := h
  refine ⟨memWrite_wf hwf a k v, fun p hp => ?_⟩
  rcases mem_memWrite hp with hbytes | hold
  · omega
  · exact hlt p hold

theorem rangeOk_iff {s : State} {c : Conversion} : rangeOk s c = true ↔
    (∀ d ∈ c.inputs, (footprint d).2 ≤ s.memSize) ∧ (∀ o ∈ c.outputs, o.fits = true)
      ∧ ∀ f ∈ outFootprints s 0 c.outputs, f.2 ≤ s.memSize := by
  simp [rangeOk, and_assoc]

/-- Every output of the conversion fits its fields of `FMT`. -/
abbrev outputsFit (c : Conversion) : Prop := ∀ o ∈ c.outputs, fieldsFit o

/-- The stores of a conversion keep MEM's canonical form inside `MEM_SIZE` (rule R165). -/
theorem memInside_commit {s : State} {c : Conversion} (h : memInside s) (hfields : outputsFit c) (hrange : rangeOk s c = true) :
    memInside (commit s c) := by
  obtain ⟨hwf, hlt⟩ := h
  obtain ⟨-, hfits, hinside⟩ := rangeOk_iff.1 hrange
  refine ⟨storeAll_wf hwf _, fun p hp => ?_⟩
  rcases mem_storeAll (fun o ho => ⟨hfits o ho, hfields o ho⟩) hp with ⟨f, hf, -, hpf⟩ | hold
  · exact hpf.trans_le (hinside f hf)
  · exact hlt p hold

theorem fmtsReserved_commit {s : State} {c : Conversion} (hfields : outputsFit c) : fmtsReserved (commit s c) :=
  have hget := fmtReserved_getD (layOut_reserved (s := s) hfields 0)
  ⟨hget 0, hget 1, hget 2, hget 3⟩

/-! ### How a command ends -/

/-- What a command may do before it sets `DONE`: write MEM, `RDATA`, `RADDR`, the image registers and the slots and nothing else,
keeping the reserved bits of the slots and the form of MEM. -/
structure Effect (s u : State) : Prop where
  fmts : fmtsReserved s → fmtsReserved u
  mem : memInside s → memInside u
  status : u.status = s.status := by rfl
  err : u.err = s.err := by rfl
  errinfo : u.errinfo = s.errinfo := by rfl
  x : u.x = s.x := by rfl
  y : u.y = s.y := by rfl
  wdata : u.wdata = s.wdata := by rfl
  ctrl : u.ctrl = s.ctrl := by rfl
  outBase : u.outBase = s.outBase := by rfl
  memLast : u.memLast = s.memLast := by rfl
  host : u.host = s.host := by rfl
  replies : u.replies = s.replies := by rfl

theorem effect_refl (s : State) : Effect s s := { fmts := id, mem := id }

theorem effect_rdata (s : State) (v : DWord) : Effect s { s with rdata := v } := { fmts := id, mem := id }

theorem effect_setAddr (t : SampleType) (a : Nat) (s : State) : Effect s (setAddr t a s) := { fmts := id, mem := id }

theorem effect_loadElement (t : SampleType) (a : Nat) (s : State) : Effect s (loadElement t a s) := { fmts := id, mem := id }

theorem effect_storeElement (t : SampleType) {a : Nat} {s : State} (h : a + t.bytes ≤ s.memSize) :
    Effect s (storeElement t a s) :=
  { fmts := id, mem := fun hmem => memInside_memWrite hmem h _ }

theorem effect_commit {s : State} {c : Conversion} (hfields : outputsFit c) (hrange : rangeOk s c = true) :
    Effect s (commit s c) :=
  { fmts := fun _ => fmtsReserved_commit hfields, mem := fun hmem => memInside_commit hmem hfields hrange }

/-- The command with the word `w` raises one of the errors `es`, or has its effect and completes (rules R160, R290). -/
def EndsIn (w : Word) (es : List ErrorKind) (s : State) (o : Outcome) : Prop :=
  (∃ e ∈ es, o = .next (raised e w s)) ∨ ∃ u, Effect s u ∧ o = .next (complete u)

section
variable {w : Word} {es : List ErrorKind} {s : State}

theorem EndsIn.raise {e : ErrorKind} (h : e ∈ es) : EndsIn w es s (.next (raised e w s)) := .inl ⟨e, h, rfl⟩

theorem EndsIn.complete {u : State} (h : Effect s u) : EndsIn w es s (.next (complete u)) := .inr ⟨u, h, rfl⟩

/-! ### The shared operations behind the commands -/

/-- An access ends in one of its two errors, or in the command's own effect at an address inside MEM (rule R130). -/
theorem access_ends {d : Slot} {coords : Option (Int × Int)} {act : SampleType → Nat → State → State}
    (heffect : ∀ t a, a + t.bytes ≤ s.memSize → Effect s (act t a s)) :
    EndsIn w [.unsupportedSampleType, .outOfRange] s (access w d coords act s) := by
  cases htype : etype d with
  | none => rw [access_untyped htype]; exact .raise (by decide)
  | some t =>
    rcases coords with _ | ⟨x, y⟩
    · rw [access_unmirrored htype]; exact .raise (by decide)
    · cases hin : inMem s (addrOf d x y) t.bytes with
      | false => rw [access_outside htype hin]; exact .raise (by decide)
      | true =>
        rw [access_complete htype hin]
        obtain ⟨hnonneg, hle⟩ := inMem_iff.1 hin
        exact .complete (heffect t _ (by omega))

/-- A conversion ends in an error of its own checks, in one of the two buffer errors, or in its commit (rule R161). -/
theorem convert_ends {own : Option ErrorKind} {c : Conversion} (hown : ∀ e, own = some e → e ∈ es)
    (hrange : .outOfRange ∈ es) (hoverlap : .bufferOverlap ∈ es) (hfields : own = none → outputsFit c) :
    EndsIn w es s (convert w own c s) := by
  cases hcheck : own with
  | some e => exact .raise (hown e hcheck)
  | none =>
    cases hr : rangeOk s c with
    | false => rw [convert_range hr]; exact .raise hrange
    | true =>
      cases ho : overlapFree s c with
      | false => rw [convert_overlap hr ho]; exact .raise hoverlap
      | true => rw [convert_complete hr ho]; exact .complete (effect_commit (hfields hcheck) hr)

theorem withArrangement_ends {a : Nat} {body : Positions → State → Outcome} (hcode : .unknownArrangement ∈ es)
    (hbody : ∀ p, EndsIn w es s (body p s)) : EndsIn w es s (withArrangement w a body s) := by
  unfold withArrangement
  split
  · exact .raise hcode
  · exact hbody _

end

/-! ### The commands' own checks -/

/-- One check of a chain (rule R161): it fails with an error of the list, or the rest of the chain decides. -/
theorem check_mem {es : List ErrorKind} {p : Prop} [Decidable p] {e₀ : ErrorKind} {rest : Option ErrorKind} (h : e₀ ∈ es)
    (hrest : ∀ e, rest = some e → e ∈ es) : ∀ e, (if p then some e₀ else rest) = some e → e ∈ es := by
  intro e he
  split at he
  · cases he
    exact h
  · exact hrest e he

theorem none_mem {es : List ErrorKind} : ∀ e, (none : Option ErrorKind) = some e → e ∈ es := nofun

theorem check_eq_none {p : Prop} [Decidable p] {e₀ : ErrorKind} {rest : Option ErrorKind} :
    (if p then some e₀ else rest) = none ↔ ¬p ∧ rest = none := by
  split <;> simp_all

theorem mem_copyErrors {e : ErrorKind} (several arranged : Bool)
    (h : e ∈ [ErrorKind.invalidDimensions, .unsupportedSampleType, .outOfRange, .bufferOverlap]) :
    e ∈ copyErrors several arranged :=
  List.mem_append_left _ (List.mem_append_left _ h)

theorem inconsistentComponents_mem_copyErrors (arranged : Bool) : .inconsistentComponents ∈ copyErrors true arranged := by
  cases arranged <;> decide

theorem unknownArrangement_mem_copyErrors (several : Bool) : .unknownArrangement ∈ copyErrors several true := by
  cases several <;> decide

theorem cfaError_mem (s : State) (depths : Bool) : ∀ e, cfaError s depths = some e → e ∈ gridErrors :=
  check_mem (by decide) <| check_mem (by decide) <| check_mem (by decide) <| check_mem (by decide) none_mem

theorem cfaCopyError_mem (s : State) (arranged : Bool) : ∀ e, cfaCopyError s = some e → e ∈ copyErrors false arranged :=
  have hmem := fun {e} => mem_copyErrors (e := e) false arranged
  check_mem (hmem (by decide)) <| check_mem (hmem (by decide)) <| check_mem (hmem (by decide)) none_mem

theorem planesCopyError_mem (s : State) (arranged : Bool) : ∀ e, planesCopyError s = some e → e ∈ copyErrors true arranged :=
  have hmem := fun {e} => mem_copyErrors (e := e) true arranged
  check_mem (hmem (by decide)) <| check_mem (hmem (by decide)) <|
    check_mem (inconsistentComponents_mem_copyErrors arranged) <| check_mem (hmem (by decide)) none_mem

theorem copy422Error_mem (s : State) (arranged : Bool) : ∀ e, copy422Error s = some e → e ∈ copyErrors true arranged :=
  have hmem := fun {e} => mem_copyErrors (e := e) true arranged
  check_mem (hmem (by decide)) <| check_mem (hmem (by decide)) <|
    check_mem (inconsistentComponents_mem_copyErrors arranged) <| check_mem (hmem (by decide)) none_mem

theorem forwardError_mem (s : State) (ins : List Slot) (sizes subs : Bool) :
    ∀ e, forwardError s ins sizes subs = some e → e ∈ planarErrors :=
  check_mem (by decide) <| check_mem (by decide) <| check_mem (by decide) <| check_mem (by decide) <|
    check_mem (by decide) none_mem

theorem inverseError_mem (s : State) (ins : List Slot) (sizes subs : Bool) :
    ∀ e, inverseError s ins sizes subs = some e → e ∈ planarErrors :=
  check_mem (by decide) <| check_mem (by decide) <| check_mem (by decide) <| check_mem (by decide) <|
    check_mem (by decide) none_mem

/-- Class V6 of a grid command has passed (rule R224). -/
theorem depths_of_cfaError {s : State} {depths : Bool} (h : cfaError s depths = none) : depths = true := by
  simp only [cfaError, check_eq_none] at h
  obtain ⟨-, -, -, hdepths, -⟩ := h
  simpa using hdepths

/-- Class V6 of a forward planar command has passed (rule R183). -/
theorem depth_of_forwardError {s : State} {ins : List Slot} {sizes subs : Bool} (h : forwardError s ins sizes subs = none) :
    (s.slot 0).depth + 1 ≤ 32 := by
  simp only [forwardError, check_eq_none] at h
  obtain ⟨-, -, -, -, hdepth, -⟩ := h
  exact not_lt.1 hdepth

/-! ### The fields of the outputs fit `FMT` (rules R43, R164) -/

theorem slot_depth_lt (d : Slot) : d.depth < 256 := (d.fmt.extractLsb' 0 8).isLt

theorem fieldsFit_of_sub {o : Output} (hdepth : o.depth < 256) (hx : o.subX = 1 ∨ o.subX = 2) (hy : o.subY = 1) : fieldsFit o :=
  ⟨hdepth, by omega, by omega⟩

theorem fieldsFit_copyOutput (c0 : Slot) (w h : Nat) {subX : Nat} (P : Plane) (hx : subX = 1 ∨ subX = 2) :
    fieldsFit (copyOutput c0 w h subX 1 P) := fieldsFit_of_sub (slot_depth_lt c0) hx rfl

theorem fieldsFit_lumaOutput (s : State) (w h : Nat) (P : Plane) : fieldsFit (lumaOutput s w h P) :=
  fieldsFit_of_sub (slot_depth_lt (s.slot 0)) (.inl rfl) rfl

theorem fieldsFit_chromaOutput {s : State} (w h : Nat) {subX : Nat} (P : Plane) (hdepth : (s.slot 0).depth + 1 ≤ 32)
    (hx : subX = 1 ∨ subX = 2) : fieldsFit (chromaOutput s w h subX P) :=
  fieldsFit_of_sub (hdepth.trans_lt (by decide)) hx rfl

theorem fieldsFit_inverseOutput (s : State) (w h : Nat) {subX : Nat} (P : Plane) (hx : subX = 1 ∨ subX = 2) :
    fieldsFit (inverseOutput s w h subX P) := fieldsFit_of_sub (slot_depth_lt (s.slot 0)) hx rfl

section
variable (s : State) (p : Positions)

theorem cfaToPlanes_fits : outputsFit (cfaToPlanes p s) := by
  simp only [outputsFit, cfaToPlanes, List.forall_mem_cons]
  exact ⟨fieldsFit_copyOutput _ _ _ _ (.inl rfl), fieldsFit_copyOutput _ _ _ _ (.inl rfl),
    fieldsFit_copyOutput _ _ _ _ (.inl rfl), fieldsFit_copyOutput _ _ _ _ (.inl rfl), nofun⟩

theorem planesToCfa_fits : outputsFit (planesToCfa p s) :=
  List.forall_mem_singleton.2 (fieldsFit_copyOutput _ _ _ _ (.inl rfl))

theorem cfaTo422_fits : outputsFit (cfaTo422 p s) := by
  simp only [outputsFit, cfaTo422, List.forall_mem_cons]
  exact ⟨fieldsFit_copyOutput _ _ _ _ (.inl rfl), fieldsFit_copyOutput _ _ _ _ (.inr rfl),
    fieldsFit_copyOutput _ _ _ _ (.inr rfl), nofun⟩

theorem cfaFrom422_fits : outputsFit (cfaFrom422 p s) :=
  List.forall_mem_singleton.2 (fieldsFit_copyOutput _ _ _ _ (.inl rfl))

theorem inverse3_fits (f : Int → Int → Int → Rgb) : outputsFit (inverse3 f s) := by
  simp only [outputsFit, inverse3, planarConversion, clampedOutput, List.forall_mem_cons]
  exact ⟨fieldsFit_inverseOutput _ _ _ _ (.inl rfl), fieldsFit_inverseOutput _ _ _ _ (.inl rfl),
    fieldsFit_inverseOutput _ _ _ _ (.inl rfl), nofun⟩

theorem inverse4_fits (f : Int → Int → Int → Rgb) : outputsFit (inverse4 f s) := by
  simp only [outputsFit, inverse4, planarConversion, clampedOutput, List.forall_mem_cons]
  exact ⟨fieldsFit_inverseOutput _ _ _ _ (.inl rfl), fieldsFit_inverseOutput _ _ _ _ (.inl rfl),
    fieldsFit_inverseOutput _ _ _ _ (.inl rfl), fieldsFit_inverseOutput _ _ _ _ (.inl rfl), nofun⟩

theorem inverse422_fits : outputsFit (inverse422 s) := by
  simp only [outputsFit, inverse422, planarConversion, clampedOutput, List.forall_mem_cons]
  exact ⟨fieldsFit_inverseOutput _ _ _ _ (.inl rfl), fieldsFit_inverseOutput _ _ _ _ (.inr rfl),
    fieldsFit_inverseOutput _ _ _ _ (.inr rfl), nofun⟩

theorem cfaInverse_fits (f : Grid → Plane → Plane) : outputsFit (cfaInverse f s p) :=
  List.forall_mem_singleton.2 (fieldsFit_of_sub ((Nat.sub_le _ _).trans_lt (slot_depth_lt (s.slot 0))) (.inl rfl) rfl)

variable {s}

theorem cfaForward_fits (f : Grid → Plane → Plane) (hdepth : (s.slot 0).depth ≤ 31) : outputsFit (cfaForward f s p) :=
  List.forall_mem_singleton.2 (fieldsFit_of_sub (Nat.lt_of_le_of_lt (Nat.succ_le_succ hdepth) (by decide)) (.inl rfl) rfl)

theorem forward3_fits (f : Int → Int → Int → Ycc) (hdepth : (s.slot 0).depth + 1 ≤ 32) : outputsFit (forward3 f s) := by
  simp only [outputsFit, forward3, planarConversion, List.forall_mem_cons]
  exact ⟨fieldsFit_lumaOutput _ _ _ _, fieldsFit_chromaOutput _ _ _ hdepth (.inl rfl),
    fieldsFit_chromaOutput _ _ _ hdepth (.inl rfl), nofun⟩

theorem forward4_fits (f : Int → Int → Int → Ycc) (hdepth : (s.slot 0).depth + 1 ≤ 32) : outputsFit (forward4 f s) := by
  simp only [outputsFit, forward4, planarConversion, List.forall_mem_cons]
  exact ⟨fieldsFit_lumaOutput _ _ _ _, fieldsFit_chromaOutput _ _ _ hdepth (.inl rfl),
    fieldsFit_chromaOutput _ _ _ hdepth (.inl rfl), fieldsFit_chromaOutput _ _ _ hdepth (.inl rfl), nofun⟩

theorem forward422_fits (hdepth : (s.slot 0).depth + 1 ≤ 32) : outputsFit (forward422 s) := by
  simp only [outputsFit, forward422, planarConversion, List.forall_mem_cons]
  exact ⟨fieldsFit_lumaOutput _ _ _ _, fieldsFit_chromaOutput _ _ _ hdepth (.inr rfl),
    fieldsFit_chromaOutput _ _ _ hdepth (.inr rfl), nofun⟩

end

/-! ### The families of commands -/

section
variable {w : Word} {s : State}

/-- A layout command with the checks `own` (rules R252 to R259). -/
theorem layout_ends {own : Option ErrorKind} {c : Conversion} (several arranged : Bool)
    (hown : ∀ e, own = some e → e ∈ copyErrors several arranged) (hfits : outputsFit c) :
    EndsIn w (copyErrors several arranged) s (convert w own c s) :=
  convert_ends hown (mem_copyErrors several arranged (by decide)) (mem_copyErrors several arranged (by decide)) fun _ => hfits

/-- A layout command of format A (rules R253, R256, R258, R259). -/
theorem arrangedLayout_ends {own : State → Option ErrorKind} {c : Positions → State → Conversion} (several : Bool) (a : Nat)
    (hown : ∀ e, own s = some e → e ∈ copyErrors several true) (hfits : ∀ p, outputsFit (c p s)) :
    EndsIn w (copyErrors several true) s (withArrangement w a (fun p s => convert w (own s) (c p s) s) s) :=
  withArrangement_ends (unknownArrangement_mem_copyErrors several) fun p => layout_ends several true hown (hfits p)

/-- A forward planar command (rule R183). -/
theorem forward_ends {ins : List Slot} {sizes subs : Bool} {c : Conversion}
    (hfits : (s.slot 0).depth + 1 ≤ 32 → outputsFit c) :
    EndsIn w planarErrors s (convert w (forwardError s ins sizes subs) c s) :=
  convert_ends (forwardError_mem s ins sizes subs) (by decide) (by decide) fun hnone => hfits (depth_of_forwardError hnone)

/-- An inverse planar command (rule R183). -/
theorem inverse_ends {ins : List Slot} {sizes subs : Bool} {c : Conversion} (hfits : outputsFit c) :
    EndsIn w planarErrors s (convert w (inverseError s ins sizes subs) c s) :=
  convert_ends (inverseError_mem s ins sizes subs) (by decide) (by decide) fun _ => hfits

/-- A CFA-grid command (rule R224). -/
theorem grid_ends {depths : Bool} {c : Conversion} (hfits : depths = true → outputsFit c) :
    EndsIn w gridErrors s (convert w (cfaError s depths) c s) :=
  convert_ends (cfaError_mem s depths) (by decide) (by decide) fun hnone => hfits (depths_of_cfaError hnone)

theorem gridForward_ends (a : Nat) (f : Grid → Plane → Plane) :
    EndsIn w gridErrors s (withArrangement w a
      (fun p s => convert w (cfaError s (cfaForwardDepths s)) (cfaForward f s p) s) s) :=
  withArrangement_ends (by decide) fun p => grid_ends fun hdepths => cfaForward_fits p f (of_decide_eq_true hdepths)

theorem gridInverse_ends (a : Nat) (f : Grid → Plane → Plane) :
    EndsIn w gridErrors s (withArrangement w a
      (fun p s => convert w (cfaError s (cfaInverseDepths s)) (cfaInverse f s p) s) s) :=
  withArrangement_ends (by decide) fun p => grid_ends fun _ => cfaInverse_fits s p f

end

/-! ### The commands -/

theorem execAddr_ends (c : Nat) (s : State) : EndsIn (encode (.addr c)) (mayRaise (.addr c)) s (execAddr c s) :=
  access_ends fun t a _ => effect_setAddr t a s

theorem execMaddr_ends (c : Nat) (s : State) : EndsIn (encode (.maddr c)) (mayRaise (.maddr c)) s (execMaddr c s) :=
  access_ends fun t a _ => effect_setAddr t a s

theorem execLds_ends (c : Nat) (s : State) : EndsIn (encode (.lds c)) (mayRaise (.lds c)) s (execLds c s) :=
  access_ends fun t a _ => effect_loadElement t a s

theorem execLdm_ends (c : Nat) (s : State) : EndsIn (encode (.ldm c)) (mayRaise (.ldm c)) s (execLdm c s) :=
  access_ends fun t a _ => effect_loadElement t a s

theorem execSts_ends (c : Nat) (s : State) : EndsIn (encode (.sts c)) (mayRaise (.sts c)) s (execSts c s) :=
  access_ends fun t _ hfit => effect_storeElement t hfit

theorem execTypeof_ends (c : Nat) (s : State) : EndsIn (encode (.typeof c)) (mayRaise (.typeof c)) s (execTypeof c s) := by
  unfold execTypeof
  split
  · exact .raise (List.mem_singleton_self _)
  · exact .complete (effect_rdata s _)

theorem execBpos_ends (a : Nat) (s : State) : EndsIn (encode (.bpos a)) (mayRaise (.bpos a)) s (execBpos a s) := by
  unfold execBpos
  split
  · exact .raise (List.mem_singleton_self _)
  · exact .complete (effect_rdata s _)

theorem execBparse_ends (s : State) : EndsIn (encode .bparse) (mayRaise .bparse) s (execBparse s) := by
  unfold execBparse
  split
  · exact .raise (List.mem_singleton_self _)
  · exact .complete (effect_rdata s _)

/-- How every command but ERRCLR ends: in one error its row of rule R295 has, or in its effect with `DONE` set. -/
theorem exec_ends {i : Instr} (hi : i ≠ .errclr) (s : State) : EndsIn (encode i) (mayRaise i) s (exec i s) := by
  cases i with
  | nop => exact .complete (effect_refl s)
  | errclr => exact absurd rfl hi
  | addr c => exact execAddr_ends c s
  | lds c => exact execLds_ends c s
  | sts c => exact execSts_ends c s
  | maddr c => exact execMaddr_ends c s
  | ldm c => exact execLdm_ends c s
  | typeof c => exact execTypeof_ends c s
  | bpos a => exact execBpos_ends a s
  | bparse => exact execBparse_ends s
  | c2p => exact layout_ends false false (cfaCopyError_mem s false) (cfaToPlanes_fits s _)
  | p2c => exact layout_ends true false (planesCopyError_mem s false) (planesToCfa_fits s _)
  | c2ps a => exact arrangedLayout_ends false a (cfaCopyError_mem s true) (cfaToPlanes_fits s)
  | p2cs a => exact arrangedLayout_ends true a (planesCopyError_mem s true) (planesToCfa_fits s)
  | c2y a => exact arrangedLayout_ends false a (cfaCopyError_mem s true) (cfaTo422_fits s)
  | y2c a => exact arrangedLayout_ends true a (copy422Error_mem s true) (cfaFrom422_fits s)
  | rctF | ycgcoF => exact forward_ends (forward3_fits _)
  | rctdF | ycgcodF => exact forward_ends (forward4_fits _)
  | rct422F => exact forward_ends forward422_fits
  | rctI | ycgcoI => exact inverse_ends (inverse3_fits s _)
  | rctdI | ycgcodI => exact inverse_ends (inverse4_fits s _)
  | rct422I => exact inverse_ends (inverse422_fits s)
  | rctxF a | ydgcocgxF a => exact gridForward_ends a _
  | rctxI a | ydgcocgxI a => exact gridInverse_ends a _

/-! ### The obligation -/

/-- Settles O12: ERRCLR by its definition, every other command by how it ends (`exec_ends`). -/
theorem everyCommandCompletesOrRaisesOneError : Obligations.EveryCommandCompletesOrRaisesOneError := by
  intro i s
  by_cases hi : i = .errclr
  · subst hi
    exact ⟨errorCleared s, rfl,
      .inr ⟨doneFlag_statusCleared _, fun hne => absurd rfl hne, rfl, rfl, rfl, rfl, rfl, rfl, rfl, rfl⟩⟩
  · rcases exec_ends hi s with ⟨e, he, hexec⟩ | ⟨u, heffect, hexec⟩
    · exact ⟨_, hexec, .inl ⟨e, he, rfl⟩⟩
    · exact ⟨_, hexec, .inr ⟨doneFlag_statusDone _,
        fun _ => ⟨congrArg statusDone heffect.status, heffect.err, heffect.errinfo⟩,
        heffect.x, heffect.y, heffect.wdata, heffect.ctrl, heffect.outBase, heffect.memLast, heffect.host, heffect.replies⟩⟩

end Sys2Proof.Proofs

/-!
The issue of a command word (`spec/30_encoding.md` rule R100) and the invariant of the registers and of MEM
(`spec/10_state.md`, `spec/20_memory.md` rule R70): each thing a step can do keeps it.
-/

namespace Sys2Proof.Proofs

open Sys2Proof Sys2Proof.Machine Sys2Proof.Laws Sys2Proof.Claims

/-! ### The invariant -/

/-- The error registers agree where no error is recorded. -/
theorem errorRegisters_of_err_zero {s : State} (herr : s.err = 0#32) (hinfo : s.errinfo = 0#32)
    (hflag : errFlag s.status = false) : errorRegisters s :=
  ⟨by simp [herr, hflag], by simp [herr], fun _ => hinfo, by simp [hflag]⟩

/-- Reset meets the invariant, for every size of MEM and every canonical contents inside it (rules R55, R310). -/
theorem inv_resetWith {memLast : Word} {mem : Memory} (hmem : memInside (State.resetWith memLast mem)) :
    Inv (State.resetWith memLast mem) :=
  ⟨BitVec.zero_and, BitVec.zero_and, ⟨fmtReserved_zero, fmtReserved_zero, fmtReserved_zero, fmtReserved_zero⟩, hmem,
    errorRegisters_of_err_zero rfl rfl (by simp [errFlag])⟩

/-- Error entry keeps the invariant (rule R290). -/
theorem inv_raised {s : State} (h : Inv s) (e : ErrorKind) (w : Word) : Inv (raised e w s) := by
  obtain ⟨hstatus, hctrl, hfmts, hmem, -⟩ := h
  refine ⟨(statusError_reserved s.status).trans hstatus, hctrl, hfmts, hmem, ?_, code_le e,
    fun hzero => absurd hzero (code_ne_zero e), ?_⟩
  · simp [code_ne_zero e]
  · simp

/-- The return from the error state keeps the invariant (rule R122). -/
theorem inv_errorCleared {s : State} (h : Inv s) : Inv (errorCleared s) := by
  obtain ⟨hstatus, hctrl, hfmts, hmem, -⟩ := h
  exact ⟨(statusCleared_reserved s.status).trans hstatus, hctrl, hfmts, hmem,
    errorRegisters_of_err_zero rfl rfl (errFlag_statusCleared _)⟩

/-- A command that completes with no error recorded keeps the invariant (rule R318). -/
theorem inv_complete {s u : State} (h : Inv s) (hclear : errFlag s.status = false) (heffect : Effect s u) : Inv (complete u) := by
  obtain ⟨hstatus, hctrl, hfmts, hmem, hflag, -, hinfo, -⟩ := h
  have herr : s.err = 0#32 := by simpa [hclear] using hflag
  refine ⟨?_, ?_, heffect.fmts hfmts, heffect.mem hmem, errorRegisters_of_err_zero ?_ ?_ ?_⟩
  · rw [statusReserved, complete_status, statusDone_reserved, heffect.status, hstatus]
  · rw [ctrlReserved, complete_ctrl, heffect.ctrl, hctrl]
  · rw [complete_err, heffect.err, herr]
  · rw [complete_errinfo, heffect.errinfo, hinfo herr]
  · rw [complete_status, errFlag_statusDone, heffect.status, hclear]

/-- A command that passes the gate of rule R100 keeps the invariant. -/
theorem inv_exec {i : Instr} {s t : State} (h : Inv s) (hgate : errFlag s.status = false ∨ i = .errclr)
    (ht : exec i s = .next t) : Inv t := by
  by_cases hi : i = .errclr
  · subst hi
    cases ht
    exact inv_errorCleared h
  · rcases exec_ends hi s with ⟨e, -, hexec⟩ | ⟨u, heffect, hexec⟩
    · cases hexec.symm.trans ht
      exact inv_raised h e _
    · cases hexec.symm.trans ht
      exact inv_complete h (hgate.resolve_right hi) heffect

/-! ### The word of ERRCLR and the gate of rule R100 -/

theorem decodeWord_ok {w : Word} {i : Instr} (h : decodeWord w = .ok i) :
    ∃ r ∈ opcodeTable, r.accepts w = true ∧ r.build (arrField w) (compField w) = i := by
  unfold decodeWord at h
  split at h
  · rename_i r hfind
    exact ⟨r, List.mem_of_find?_eq_some hfind, List.find?_some (p := fun r : Row => r.accepts w) hfind, Except.ok.inj h⟩
  · split at h <;> cases h

/-- Only one row of the opcode map makes ERRCLR. -/
theorem row_of_build_errclr : ∀ r ∈ opcodeTable, ∀ a c, r.build a c = .errclr → r.pattern = 0x01#32 ∧ r.format = .z := by
  simp [opcodeTable, unitRows, layoutRows, liftingRows]

theorem decodeWord_errclr_iff {w : Word} : decodeWord w = .ok .errclr ↔ w = 0x00000001#32 := by
  constructor
  · intro h
    obtain ⟨r, hr, haccepts, hbuild⟩ := decodeWord_ok h
    obtain ⟨hpattern, hformat⟩ := row_of_build_errclr r hr _ _ hbuild
    rw [Row.accepts, hpattern, hformat, beq_iff_eq] at haccepts
    exact (BitVec.and_allOnes (x := w)).symm.trans haccepts
  · rintro rfl
    rfl

/-- A word that passes the gate runs the command it decodes to (rule R100). -/
theorem issue_ok {w : Word} {s : State} {i : Instr} (hgate : errFlag s.status = false ∨ w = 0x00000001#32)
    (hi : decodeWord w = .ok i) : issue w s = exec i s := by
  rcases issue_cases (w := w) (s := s) with ⟨herr, hw, -⟩ | ⟨-, ⟨j, hj, hrun⟩ | ⟨e, he, -⟩⟩
  · simp [herr, hw] at hgate
  · cases hj.symm.trans hi
    exact hrun
  · cases he.symm.trans hi

theorem inv_issue {w : Word} {s t : State} (h : Inv s) (ht : issue w s = .next t) : Inv t := by
  rcases issue_cases (w := w) (s := s) with ⟨-, -, hignored⟩ | ⟨hgate, ⟨i, hi, hrun⟩ | ⟨e, -, hraised⟩⟩
  · cases hignored.symm.trans ht
    exact h
  · refine inv_exec h (hgate.imp_right fun hw => ?_) (hrun.symm.trans ht)
    exact Except.ok.inj (hi.symm.trans (decodeWord_errclr_iff.2 hw))
  · cases hraised.symm.trans ht
    exact inv_raised h _ w

/-! ### The host's other actions keep the invariant -/

theorem fmtReserved_get {s : State} : fmtsReserved s → (n : Nat) → fmtReserved (s.slots.get n)
  | ⟨h0, _, _, _⟩, 0 => h0
  | ⟨_, h1, _, _⟩, 1 => h1
  | ⟨_, _, h2, _⟩, 2 => h2
  | ⟨_, _, _, h3⟩, _ + 3 => h3

theorem fmtsReserved_set {s : State} {d : Slot} (hd : fmtReserved d) :
    fmtsReserved s → (n : Nat) → fmtsReserved { s with slots := s.slots.set n d }
  | ⟨_, h1, h2, h3⟩, 0 => ⟨hd, h1, h2, h3⟩
  | ⟨h0, _, h2, h3⟩, 1 => ⟨h0, hd, h2, h3⟩
  | ⟨h0, h1, _, h3⟩, 2 => ⟨h0, h1, hd, h3⟩
  | ⟨h0, h1, h2, _⟩, _ + 3 => ⟨h0, h1, h2, hd⟩

theorem inv_writeReg {s : State} (h : Inv s) (v : Int) (r : Reg) : Inv (writeReg s v r) := by
  obtain ⟨hstatus, hctrl, hfmts, hmem, herrors⟩ := h
  cases r with
  | ctrl => exact ⟨hstatus, ctrlWritten_reserved _, hfmts, hmem, herrors⟩
  | slot c f =>
    exact ⟨hstatus, hctrl, fmtsReserved_set (fmtReserved_setField (fmtReserved_get hfmts c) _ f) hfmts c, hmem, herrors⟩
  | _ => exact ⟨hstatus, hctrl, hfmts, hmem, herrors⟩

theorem inv_regWrite {s : State} (h : Inv s) (num : Nat) (v : Int) : Inv (regWrite s num v) := by
  rcases regWrite_cases s num v with hsame | ⟨r, hwrite⟩
  · rwa [hsame]
  · rw [hwrite]
    exact inv_writeReg h v r

theorem inv_memWrite {s : State} (h : Inv s) {a k : Nat} (hin : hostInMem s a k = true) (v : Int) :
    Inv { s with mem := memWrite s.mem a k v } := by
  obtain ⟨hstatus, hctrl, hfmts, hmem, herrors⟩ := h
  obtain ⟨-, hfit⟩ := hostInMem_iff.1 hin
  exact ⟨hstatus, hctrl, hfmts, memInside_memWrite hmem hfit v, herrors⟩

theorem inv_resetBlock {s : State} (h : Inv s) : Inv (resetBlock s) := by
  obtain ⟨-, -, -, hmem, -⟩ := h
  exact inv_resetWith hmem

/-! ### The obligations -/

/-- Settles O4: one case for each thing a step can do; the host's list and its replies are not in the invariant. -/
theorem stepKeepsInvariant : Obligations.StepKeepsInvariant := by
  intro s t h ht
  rcases step_cases ht with ⟨-, rfl⟩ | ⟨num, rest, -, rfl⟩ | ⟨num, v, rest, -, -, rfl⟩ | ⟨v, rest, -, hissue⟩
    | ⟨a, k, rest, -, -, rfl⟩ | ⟨a, k, v, rest, -, hin, rfl⟩ | ⟨rest, -, rfl⟩
  · exact h
  · exact h
  · exact inv_regWrite (s := { s with host := rest }) h num v
  · exact inv_issue (s := { s with host := rest }) h hissue
  · exact h
  · exact inv_memWrite (s := { s with host := rest }) h hin v
  · exact inv_resetBlock (s := { s with host := rest }) h

/-- Settles O3: nothing of MEM is listed. -/
theorem resetMeetsInvariant : Obligations.ResetMeetsInvariant := inv_resetWith ⟨⟨.nil, nofun⟩, nofun⟩

/-- Settles O10: the gate of `issue` lets the word through, because only the word 1 decodes to ERRCLR. -/
theorem stepRunsDecodedCommand : Obligations.StepRunsDecodedCommand := by
  intro s v rest i hhost hi hgate
  rw [step_action hhost]
  exact issue_ok (hgate.imp_right fun h => decodeWord_errclr_iff.1 (hi.trans (by rw [h]))) hi

end Sys2Proof.Proofs

/-!
Element types, `Load` and the mirror (`spec/20_memory.md` rules R74 to R78): the table of rule R74 row by row, the number an element
spells, and the three cases of one reflection.
-/

namespace Sys2Proof.Proofs

open Sys2Proof Sys2Proof.Machine Sys2Proof.Laws Sys2Proof.Claims

/-! ### The table of element types (rule R74) -/

/-- The row of the table that has this element type. -/
def rowOf : SampleType → TypeRow
  | .int8 => ⟨false, true, 1, 8, 0, 1⟩
  | .uint8 => ⟨false, false, 1, 8, 1, 1⟩
  | .int16 => ⟨false, true, 9, 16, 2, 2⟩
  | .uint16 => ⟨false, false, 9, 16, 3, 2⟩
  | .int32 => ⟨false, true, 17, 32, 4, 4⟩
  | .uint32 => ⟨false, false, 17, 32, 5, 4⟩
  | .int64 => ⟨false, true, 33, 64, 6, 8⟩
  | .uint64 => ⟨false, false, 33, 64, 7, 8⟩
  | .float32 => ⟨true, true, 32, 32, 8, 4⟩
  | .float64 => ⟨true, true, 64, 64, 9, 8⟩

@[simp] theorem rowOf_code (t : SampleType) : (rowOf t).code = t.code := by cases t <;> rfl

@[simp] theorem rowOf_bytes (t : SampleType) : (rowOf t).bytes = t.bytes := by cases t <;> rfl

theorem rowOf_mem (t : SampleType) : rowOf t ∈ typeRows := by cases t <;> decide

theorem exists_rowOf {r : TypeRow} (h : r ∈ typeRows) : ∃ t, rowOf t = r := by
  have hrows : typeRows = [SampleType.int8, .uint8, .int16, .uint16, .int32, .uint32, .int64, .uint64, .float32,
    .float64].map rowOf := rfl
  rw [hrows, List.mem_map] at h
  obtain ⟨t, -, ht⟩ := h
  exact ⟨t, ht⟩

theorem code_of_signed {t : SampleType} (h : t.isSigned = true) : (rowOf t).code ∈ [0, 2, 4, 6] := by
  cases t <;> simp_all [rowOf, SampleType.isSigned]

theorem code_of_unsigned {t : SampleType} (h : t.isSigned = false) : (rowOf t).code ∉ [0, 2, 4, 6] := by
  cases t <;> simp_all [rowOf, SampleType.isSigned]

/-- The table by its rows: the flags are the row's, and `DEPTH` is in the row's range. -/
theorem elementType_eq_some_iff {float signed : Bool} {depth : Nat} {t : SampleType} :
    elementType float signed depth = some t ↔ float = (rowOf t).float ∧ signed = (rowOf t).signed
      ∧ (rowOf t).lowest ≤ depth ∧ depth ≤ (rowOf t).highest := by
  unfold elementType
  split <;> cases t <;> grind [rowOf]

/-- A slot has the element type whose row describes it. -/
theorem etype_eq_some_iff {d : Slot} {t : SampleType} : etype d = some t ↔ (rowOf t).describes d := elementType_eq_some_iff

theorem untyped_iff {d : Slot} : untyped d ↔ etype d = none := by
  rw [Option.eq_none_iff_forall_ne_some]
  constructor
  · exact fun h t ht => h _ (rowOf_mem t) (etype_eq_some_iff.1 ht)
  · intro h r hr hdescribes
    obtain ⟨t, rfl⟩ := exists_rowOf hr
    exact h t (etype_eq_some_iff.2 hdescribes)

/-! ### The number an element spells (rule R78) -/

theorem eight_mul_bytes_le (t : SampleType) : 8 * t.bytes ≤ 64 := Nat.mul_le_mul_left 8 (bytes_le t)

theorem pattern64_of_signed {t : SampleType} (h : t.isSigned = true) (raw : Nat) :
    pattern64 (rowOf t) raw = (BitVec.ofNat (8 * t.bytes) raw).signExtend 64 := by
  have hcode := code_of_signed h
  simp only [List.mem_cons, List.not_mem_nil, or_false] at hcode
  rw [pattern64, if_pos hcode, rowOf_bytes]

theorem pattern64_of_unsigned {t : SampleType} (h : t.isSigned = false) (raw : Nat) :
    pattern64 (rowOf t) raw = BitVec.ofNat 64 raw := by
  have hcode := code_of_unsigned h
  simp only [List.mem_cons, List.not_mem_nil, or_false] at hcode
  rw [pattern64, if_neg hcode]

theorem elementValue_unsigned {t : SampleType} (h : t.isSigned = false) (raw : Nat) : elementValue t raw = raw := by
  simp [elementValue, h]

/-- A signed element is the two's complement number its bytes spell. -/
theorem elementValue_signed {t : SampleType} (h : t.isSigned = true) {raw : Nat} (hraw : raw < 2 ^ (8 * t.bytes)) :
    elementValue t raw = (BitVec.ofNat (8 * t.bytes) raw).toInt := by
  have hpos := bytes_pos t
  have hhalf : 2 ^ (8 * t.bytes) = 2 * 2 ^ (8 * t.bytes - 1) := by
    rw [← pow_succ', Nat.sub_add_cancel (by omega)]
  rw [BitVec.toInt_eq_toNat_cond, BitVec.toNat_ofNat, Nat.mod_eq_of_lt hraw]
  by_cases hle : 2 ^ (8 * t.bytes - 1) ≤ raw
  · rw [elementValue, if_pos ⟨h, hle⟩, if_neg (by omega), Nat.cast_pow, Nat.cast_ofNat]
  · rw [elementValue, if_neg (fun hboth => hle hboth.2), if_pos (by omega)]

/-- The 64-bit pattern of an element, read with the sign of its type, is the value of the element. -/
theorem pattern64_value (t : SampleType) {raw : Nat} (hraw : raw < 2 ^ (8 * t.bytes)) :
    elementValue t raw = if (rowOf t).code ∈ [0, 2, 4, 6] then (pattern64 (rowOf t) raw).toInt
      else ((pattern64 (rowOf t) raw).toNat : Int) := by
  cases hsigned : t.isSigned with
  | true =>
    rw [if_pos (code_of_signed hsigned), pattern64_of_signed hsigned, BitVec.toInt_signExtend_of_le (eight_mul_bytes_le t),
      elementValue_signed hsigned hraw]
  | false =>
    have hlt : raw < 2 ^ 64 := hraw.trans_le (Nat.pow_le_pow_right (by decide) (eight_mul_bytes_le t))
    rw [if_neg (code_of_unsigned hsigned), pattern64_of_unsigned hsigned, BitVec.toNat_ofNat, Nat.mod_eq_of_lt hlt,
      elementValue_unsigned hsigned]

theorem load_eq_elementValue {d : Slot} {t : SampleType} (h : etype d = some t) (m : Memory) (x y : Int) :
    load m d x y = elementValue t (memRead m (addrOf d x y).toNat t.bytes) := by
  rw [load, etypeD_eq h, loadAt]

/-! ### One reflection (rule R76) -/

theorem mirror_of_neg {i n : Int} (h : i < 0) : mirror i n = -i := if_pos h

theorem mirror_of_le {i n : Int} (h0 : 0 ≤ i) (h : n ≤ i) : mirror i n = 2 * (n - 1) - i := by
  rw [mirror, if_neg h0.not_gt, if_pos h]

theorem mirror_of_inside {i n : Int} (h0 : 0 ≤ i) (h : i < n) : mirror i n = i := by
  rw [mirror, if_neg h0.not_gt, if_neg h.not_ge]

/-- One reflection lands inside exactly on the band of rule R76. -/
theorem mirror_inside_iff {i n : Int} (hn : 1 ≤ n) :
    (0 ≤ mirror i n ∧ mirror i n ≤ n - 1) ↔ (-(n - 1) ≤ i ∧ i ≤ 2 * (n - 1)) := by
  rcases lt_or_ge i 0 with hneg | h0
  · rw [mirror_of_neg hneg]; omega
  · rcases lt_or_ge i n with hlt | hle
    · rw [mirror_of_inside h0 hlt]; omega
    · rw [mirror_of_le h0 hle]; omega

/-- Reflection keeps parity, so it keeps the phase of a coordinate. -/
theorem mirror_emod_two (i n : Int) : mirror i n % 2 = i % 2 := by
  rcases lt_or_ge i 0 with hneg | h0
  · rw [mirror_of_neg hneg]; omega
  · rcases lt_or_ge i n with hlt | hle
    · rw [mirror_of_inside h0 hlt]
    · rw [mirror_of_le h0 hle]; omega

/-! ### The obligations -/

/-- Settles O15: the row that describes the slot is the row of its element type, and the value of the element is what the row's
64-bit pattern spells. -/
theorem elementTypeAndLoad : Obligations.ElementTypeAndLoad := by
  refine fun d => ⟨?type, untyped_iff.1, ?value⟩
  case type =>
    intro r hr hdescribes
    obtain ⟨t, rfl⟩ := exists_rowOf hr
    exact ⟨t, etype_eq_some_iff.2 hdescribes, (rowOf_code t).symm, (rowOf_bytes t).symm⟩
  case value =>
    intro r hr hdescribes m x y
    obtain ⟨t, rfl⟩ := exists_rowOf hr
    have hraw : memRead m (sampleAddr d x y).toNat t.bytes < 2 ^ (8 * t.bytes) :=
      (memRead_lt m _ _).trans_eq (two_pow_eight_mul t.bytes).symm
    rw [load_eq_elementValue (etype_eq_some_iff.2 hdescribes), rowOf_bytes]
    exact pattern64_value t hraw

/-- Settles O22: the three cases of the reflection, each with its bounds. -/
theorem mirrorReflectsOnce : Obligations.MirrorReflectsOnce := by
  intro i n hn
  have hedge : mirror n n = n - 2 := by rw [mirror_of_le (by omega) le_rfl]; ring
  exact ⟨mirror_of_neg, fun h => mirror_of_le (by omega) h, mirror_of_inside, mirror_inside_iff hn, mirror_emod_two i n,
    mirror_of_neg (by decide), hedge⟩

end Sys2Proof.Proofs

/-!
The samples a conversion command leaves (`spec/43_conversion_common.md` rules R166, R170): each slot of the new image reads back the
samples of its output, and every command makes legal ones: by `wrap` or `clamp` (rules R182, R225), or by copying (rule R251).
-/

namespace Sys2Proof.Proofs

open Sys2Proof Sys2Proof.Machine Sys2Proof.Laws Sys2Proof.Claims

/-! ### The image after a commit (rule R166) -/

theorem committedSlots_get (ds : List Slot) : {n : Nat} → n < 4 → (committedSlots ds).get n = ds.getD n Slot.zero
  | 0, _ | 1, _ | 2, _ | 3, _ => rfl

theorem layOut_slot (s : State) (i n : Nat) (os : List Output) :
    ((layOut s i os).map Prod.fst)[n]? = os[n]?.map (newSlot (s.outBase.get (i + n))) := by
  induction os generalizing i n with
  | nil => rfl
  | cons o os ih =>
    cases n with
    | zero => rfl
    | succ n => simp [layOut, ih, Nat.add_assoc, Nat.add_comm 1 n]

section
variable {s : State} {c : Conversion} {n : Nat} {o : Output}

/-- Slot `n` of the new image describes output `n`. -/
theorem commit_slot (hn : n < 4) (ho : c.outputs[n]? = some o) : (commit s c).slot n = newSlot (s.outBase.get n) o := by
  have hslots : (commit s c).slot n = (committedSlots ((layOut s 0 c.outputs).map Prod.fst)).get n := rfl
  rw [hslots, committedSlots_get _ hn, List.getD_eq_getElem?_getD, layOut_slot, ho, Nat.zero_add, Option.map_some,
    Option.getD_some]

theorem apart_of_overlapFree (h : overlapFree s c = true) : apart (outFootprints s 0 c.outputs) = true :=
  (Bool.and_eq_true_iff.1 h).2

/-- A sample of the new image is what its element holds of the value stored there. -/
theorem inSample_commit (hfields : outputsFit c) (hrange : rangeOk s c = true) (hoverlap : overlapFree s c = true) (hn : n < 4)
    (ho : c.outputs[n]? = some o) {x y : Nat} (hx : x < o.w) (hy : y < o.h) :
    inSample (commit s c) n x y = wrap (o.plane x y) (elementTypeD o.float o.signed o.depth).isSigned (8 * o.elemBytes) := by
  obtain ⟨-, hfits, -⟩ := rangeOk_iff.1 hrange
  rw [inSample, commit_slot hn ho]
  exact loadAt_storeAll (fun q hq => ⟨hfits q hq, hfields q hq⟩) (apart_of_overlapFree hoverlap) ho s.mem hx hy

end

/-! ### Legal outputs (rule R170) -/

/-- An integer output of a depth rule R74 has a type for, with every sample legal for it. -/
structure LegalOutput (o : Output) : Prop where
  integer : o.float = false
  depth_pos : 1 ≤ o.depth
  depth_le : o.depth ≤ 64
  samples : ∀ x y : Int, 0 ≤ x → x < o.w → 0 ≤ y → y < o.h → legal o.signed o.depth (o.plane x y)

/-- The conversion makes one to four outputs, every one legal. -/
structure LegalOutputs (c : Conversion) : Prop where
  count_pos : 1 ≤ c.outputs.length
  count_le : c.outputs.length ≤ 4
  fields : outputsFit c
  outputs : ∀ o ∈ c.outputs, LegalOutput o

/-- The image has one to four components, with every sample legal. -/
abbrev LegalImage (t : State) : Prop := 1 ≤ t.imgDepth.toNat ∧ t.imgDepth.toNat ≤ 4 ∧ LegalSamples t t.imgDepth.toNat

/-- The outcome is a legal image, unless it is an error. -/
def LeavesLegal (out : Outcome) : Prop := ∀ t, out = .next t → errFlag t.status = false → LegalImage t

section
variable {s : State} {c : Conversion} {n : Nat} {o : Output}

/-- A legal value fits its element, so it is stored unchanged (rule R79). -/
theorem LegalOutput.wrap_plane (h : LegalOutput o) {x y : Nat} (hx : x < o.w) (hy : y < o.h) :
    wrap (o.plane x y) (elementTypeD o.float o.signed o.depth).isSigned (8 * o.elemBytes) = o.plane x y := by
  obtain ⟨t, ht⟩ := elementType_isSome (s := o.signed) h.depth_pos h.depth_le
  have hbytes := bytes_pos t
  rw [Output.elemBytes, h.integer, elementTypeD_eq ht]
  exact wrap_of_legal (by omega) (holds_of_legal ht (h.samples x y (by omega) (by omega) (by omega) (by omega)))

theorem legalImage_commit (h : LegalOutputs c) (hrange : rangeOk s c = true) (hoverlap : overlapFree s c = true) :
    LegalImage (commit s c) := by
  have hle := h.count_le
  have hcount : (commit s c).imgDepth.toNat = c.outputs.length := Nat.mod_eq_of_lt (by omega)
  refine ⟨hcount ▸ h.count_pos, hcount ▸ hle, fun n hn x hx y hy => ?_⟩
  have hlen : n < c.outputs.length := hcount ▸ hn
  have ho : c.outputs[n]? = some c.outputs[n] := List.getElem?_eq_getElem hlen
  have hmem : c.outputs[n] ∈ c.outputs := List.getElem_mem hlen
  have hn4 : n < 4 := by omega
  obtain ⟨-, hfits, -⟩ := rangeOk_iff.1 hrange
  have hfit := hfits _ hmem
  have hout := h.outputs _ hmem
  rw [commit_slot hn4 ho, newSlot_width _ hfit] at hx
  rw [commit_slot hn4 ho, newSlot_height _ hfit] at hy
  rw [inSample_commit h.fields hrange hoverlap hn4 ho hx hy, hout.wrap_plane hx hy, commit_slot hn4 ho,
    newSlot_signed _ (h.fields _ hmem), newSlot_depth _ (h.fields _ hmem)]
  exact hout.samples x y (by omega) (by omega) (by omega) (by omega)

/-- A conversion ends in an error or in the image of its outputs. -/
theorem convert_leavesLegal {w : Word} {own : Option ErrorKind} (h : own = none → LegalOutputs c) :
    LeavesLegal (convert w own c s) := by
  intro t ht hflag
  rcases convert_cases ht with ⟨e, rfl⟩ | ⟨hown, hrange, hoverlap, rfl⟩
  · simp at hflag
  · exact legalImage_commit (h hown) hrange hoverlap

theorem withArrangement_leavesLegal {w : Word} {a : Nat} {body : Positions → State → Outcome}
    (h : ∀ p, LeavesLegal (body p s)) : LeavesLegal (withArrangement w a body s) := by
  cases harr : arrangementOf a with
  | none =>
    intro t ht hflag
    rw [withArrangement, harr] at ht
    cases ht
    simp at hflag
  | some arr =>
    rw [withArrangement_some harr]
    exact h (pos arr)

end

/-! ### What the checks V2 to V6 leave (rule R161) -/

theorem typed_depth {d : Slot} (h : typed d = true) : 1 ≤ d.depth ∧ d.depth ≤ 64 := by
  obtain ⟨t, ht⟩ := Option.isSome_iff_exists.1 h
  obtain ⟨hpos, -, hle⟩ := elementType_depth ht
  exact ⟨hpos, hle⟩

/-- Class V5 of a forward planar command has passed (rule R183). -/
theorem typed_of_forwardError {s : State} {ins : List Slot} {sizes subs : Bool} (h : forwardError s ins sizes subs = none) :
    ∀ d ∈ ins, typed d = true := by
  simp only [forwardError, check_eq_none] at h
  obtain ⟨-, -, -, htyped, -⟩ := h
  simp only [Bool.not_eq_true', Bool.not_eq_false, Bool.and_eq_true, List.all_eq_true] at htyped
  exact htyped.1

/-- Class V5 of an inverse planar command has passed (rule R183). -/
theorem typed_of_inverseError {s : State} {ins : List Slot} {sizes subs : Bool} (h : inverseError s ins sizes subs = none) :
    ∀ d ∈ ins, typed d = true := by
  simp only [inverseError, check_eq_none] at h
  obtain ⟨-, -, -, htyped, -⟩ := h
  simp only [Bool.not_eq_true', Bool.not_eq_false, Bool.and_eq_true, List.all_eq_true] at htyped
  exact htyped.1

theorem forall_lt_three {p : Nat → Prop} : (∀ c < 3, p c) ↔ p 0 ∧ p 1 ∧ p 2 :=
  ⟨fun h => ⟨h 0 (by decide), h 1 (by decide), h 2 (by decide)⟩,
    fun ⟨h0, h1, h2⟩ c hc => match c, hc with | 0, _ => h0 | 1, _ => h1 | 2, _ => h2⟩

theorem forall_lt_four {p : Nat → Prop} : (∀ c < 4, p c) ↔ p 0 ∧ p 1 ∧ p 2 ∧ p 3 :=
  ⟨fun h => ⟨h 0 (by decide), h 1 (by decide), h 2 (by decide), h 3 (by decide)⟩,
    fun ⟨h0, h1, h2, h3⟩ c hc => match c, hc with | 0, _ => h0 | 1, _ => h1 | 2, _ => h2 | 3, _ => h3⟩

theorem countIs_iff {s : State} {k : Nat} : countIs s k = true ↔ s.imgDepth.toNat = k := beq_iff_eq

theorem sameSizes_cons {d : Slot} {ds : List Slot} : sameSizes (d :: ds) = true ↔
    d.width ≠ 0 ∧ d.height ≠ 0 ∧ ∀ e ∈ ds, e.width = d.width ∧ e.height = d.height := by
  simp [sameSizes, and_assoc]

theorem sameFormats_cons {d : Slot} {ds : List Slot} : sameFormats (d :: ds) = true ↔
    ∀ e ∈ ds, e.depth = d.depth ∧ e.signed = d.signed ∧ e.isFloat = d.isFloat := by
  simp [sameFormats, and_assoc]

/-- V2 to V5 of C2P, C2PS and C2Y (rule R252). -/
theorem cfaCopyError_eq_none {s : State} : cfaCopyError s = none ↔ CfaSizes s ∧ typed (s.slot 0) = true := by
  simp [cfaCopyError, check_eq_none, countIs_iff, evenSizes, and_assoc]

/-- V2 to V5 of P2C and P2CS (rule R255). -/
theorem planesCopyError_eq_none {s : State} (h : planesCopyError s = none) :
    EqualSizes s 4 ∧ EqualFormats s 4 ∧ typed (s.slot 0) = true := by
  simp only [planesCopyError, check_eq_none, Bool.not_eq_true', Bool.not_eq_false, Bool.and_eq_true, fourSlots, countIs_iff,
    sameSizes_cons, sameFormats_cons] at h
  obtain ⟨hcount, ⟨hw, hh, hsizes⟩, ⟨hformats, -⟩, htyped, -⟩ := h
  refine ⟨⟨hcount, hw, hh, forall_lt_four.2 ⟨⟨rfl, rfl⟩, ?_⟩⟩, forall_lt_four.2 ⟨⟨rfl, rfl, rfl⟩, ?_⟩, htyped⟩
  · simpa using hsizes
  · simpa using hformats

/-- V2 to V5 of Y2C (rule R259). -/
theorem copy422Error_eq_none {s : State} (h : copy422Error s = none) :
    Sizes422 s ∧ EqualFormats s 3 ∧ typed (s.slot 0) = true := by
  simp only [copy422Error, check_eq_none, Bool.not_eq_true', Bool.not_eq_false, Bool.and_eq_true, countIs_iff, sizes422,
    sameFormats_cons, bne_iff_ne, beq_iff_eq] at h
  obtain ⟨hcount, ⟨⟨⟨⟨⟨⟨hw, hh⟩, heven⟩, hw1⟩, hw2⟩, hh1⟩, hh2⟩, ⟨hformats, -⟩, htyped, -⟩ := h
  refine ⟨⟨hcount, hw, hh, heven, forall_lt_three.2 ⟨(absurd rfl ·), fun _ => ⟨hw1, hh1⟩, fun _ => ⟨hw2, hh2⟩⟩⟩,
    forall_lt_three.2 ⟨⟨rfl, rfl, rfl⟩, ?_⟩, htyped⟩
  simpa using hformats

/-! ### The outputs of the planar commands (rules R182, R184) -/

section
variable {s : State}

theorem legalOutput_luma (w h : Nat) (P : Plane) (hpos : 1 ≤ (s.slot 0).depth) (hle : (s.slot 0).depth + 1 ≤ 32) :
    LegalOutput (lumaOutput s w h P) where
  integer := rfl
  depth_pos := hpos
  depth_le := by simp only [lumaOutput, lumaDepth]; omega
  samples _ _ _ _ _ _ := wrap_legal _ _ hpos

theorem legalOutput_chroma (w h subX : Nat) (P : Plane) (hle : (s.slot 0).depth + 1 ≤ 32) :
    LegalOutput (chromaOutput s w h subX P) where
  integer := rfl
  depth_pos := Nat.succ_pos _
  depth_le := hle.trans (by decide)
  samples _ _ _ _ _ _ := wrap_legal _ _ (Nat.succ_pos _)

theorem legalOutput_inverse (w h subX : Nat) {P : Plane} (htyped : typed (s.slot 0) = true)
    (hP : ∀ x y, legal (lumaSigned s) (lumaDepth s) (P x y)) : LegalOutput (inverseOutput s w h subX P) where
  integer := rfl
  depth_pos := (typed_depth htyped).1
  depth_le := (typed_depth htyped).2
  samples x y _ _ _ _ := hP x y

theorem legalOutput_clamped (w h subX : Nat) (P : Plane) (htyped : typed (s.slot 0) = true) :
    LegalOutput (clampedOutput s w h subX P) := legalOutput_inverse w h subX htyped fun _ _ => clamp_legal _ _ _

theorem forward3_legal (f : Int → Int → Int → Ycc) (hpos : 1 ≤ (s.slot 0).depth) (hle : (s.slot 0).depth + 1 ≤ 32) :
    LegalOutputs (forward3 f s) where
  count_pos := (by decide : 1 ≤ 3)
  count_le := (by decide : 3 ≤ 4)
  fields := forward3_fits f hle
  outputs := by
    simp only [forward3, planarConversion, List.forall_mem_cons]
    exact ⟨legalOutput_luma _ _ _ hpos hle, legalOutput_chroma _ _ _ _ hle, legalOutput_chroma _ _ _ _ hle, nofun⟩

theorem forward4_legal (f : Int → Int → Int → Ycc) (hpos : 1 ≤ (s.slot 0).depth) (hle : (s.slot 0).depth + 1 ≤ 32) :
    LegalOutputs (forward4 f s) where
  count_pos := (by decide : 1 ≤ 4)
  count_le := le_refl 4
  fields := forward4_fits f hle
  outputs := by
    simp only [forward4, planarConversion, List.forall_mem_cons]
    exact ⟨legalOutput_luma _ _ _ hpos hle, legalOutput_chroma _ _ _ _ hle, legalOutput_chroma _ _ _ _ hle,
      legalOutput_chroma _ _ _ _ hle, nofun⟩

theorem forward422_legal (hpos : 1 ≤ (s.slot 0).depth) (hle : (s.slot 0).depth + 1 ≤ 32) : LegalOutputs (forward422 s) where
  count_pos := (by decide : 1 ≤ 3)
  count_le := (by decide : 3 ≤ 4)
  fields := forward422_fits hle
  outputs := by
    simp only [forward422, planarConversion, List.forall_mem_cons]
    exact ⟨legalOutput_luma _ _ _ hpos hle, legalOutput_chroma _ _ _ _ hle, legalOutput_chroma _ _ _ _ hle, nofun⟩

theorem inverse3_legal (f : Int → Int → Int → Rgb) (htyped : typed (s.slot 0) = true) : LegalOutputs (inverse3 f s) where
  count_pos := (by decide : 1 ≤ 3)
  count_le := (by decide : 3 ≤ 4)
  fields := inverse3_fits s f
  outputs := by
    simp only [inverse3, planarConversion, List.forall_mem_cons]
    exact ⟨legalOutput_clamped _ _ _ _ htyped, legalOutput_clamped _ _ _ _ htyped, legalOutput_clamped _ _ _ _ htyped, nofun⟩

theorem inverse4_legal (f : Int → Int → Int → Rgb) (htyped : typed (s.slot 0) = true) : LegalOutputs (inverse4 f s) where
  count_pos := (by decide : 1 ≤ 4)
  count_le := le_refl 4
  fields := inverse4_fits s f
  outputs := by
    simp only [inverse4, planarConversion, List.forall_mem_cons]
    exact ⟨legalOutput_clamped _ _ _ _ htyped, legalOutput_clamped _ _ _ _ htyped, legalOutput_clamped _ _ _ _ htyped,
      legalOutput_clamped _ _ _ _ htyped, nofun⟩

/-- The greens of RCT422.I are wrapped where the other outputs are clamped (rule R200). -/
theorem inverse422_legal (htyped : typed (s.slot 0) = true) : LegalOutputs (inverse422 s) where
  count_pos := (by decide : 1 ≤ 3)
  count_le := (by decide : 3 ≤ 4)
  fields := inverse422_fits s
  outputs := by
    obtain ⟨hpos, -⟩ := typed_depth htyped
    simp only [inverse422, planarConversion, List.forall_mem_cons]
    exact ⟨legalOutput_inverse _ _ _ htyped fun _ _ => wrap_legal _ _ hpos, legalOutput_clamped _ _ _ _ htyped,
      legalOutput_clamped _ _ _ _ htyped, nofun⟩

/-- A forward planar command (rule R183). -/
theorem forward_leavesLegal {w : Word} {ins : List Slot} {sizes subs : Bool} {c : Conversion} (h0 : s.slot 0 ∈ ins)
    (hlegal : 1 ≤ (s.slot 0).depth → (s.slot 0).depth + 1 ≤ 32 → LegalOutputs c) :
    LeavesLegal (convert w (forwardError s ins sizes subs) c s) :=
  convert_leavesLegal fun hnone =>
    hlegal (typed_depth (typed_of_forwardError hnone _ h0)).1 (depth_of_forwardError hnone)

/-- An inverse planar command (rule R183). -/
theorem inverse_leavesLegal {w : Word} {ins : List Slot} {sizes subs : Bool} {c : Conversion} (h0 : s.slot 0 ∈ ins)
    (hlegal : typed (s.slot 0) = true → LegalOutputs c) : LeavesLegal (convert w (inverseError s ins sizes subs) c s) :=
  convert_leavesLegal fun hnone => hlegal (typed_of_inverseError hnone _ h0)

/-! ### The outputs of the CFA-grid commands (rules R221, R225) -/

theorem enc_legal {m : Nat} (hm : 1 ≤ m) (cs : Bool) (v o : Int) : legal cs m (enc m cs v o) := wrap_legal _ _ hm

/-- Every cell of a forward transform holds encoded values. -/
theorem packCells_legal {sg : Bool} {m : Nat} {v00 v10 v01 v11 : Plane} (h00 : ∀ i j, legal sg m (v00 i j))
    (h10 : ∀ i j, legal sg m (v10 i j)) (h01 : ∀ i j, legal sg m (v01 i j)) (h11 : ∀ i j, legal sg m (v11 i j)) (x y : Int) :
    legal sg m (packCells v00 v10 v01 v11 x y) := by
  simp only [packCells]
  split
  · split
    · exact h00 _ _
    · exact h10 _ _
  · split
    · exact h01 _ _
    · exact h11 _ _

theorem rctxForward_legal {g : Grid} (hm : 1 ≤ g.m) (S : Plane) (x y : Int) : legal g.cs g.m (rctxForward g S x y) := by
  unfold rctxForward
  have henc {v : Plane} {o : Int} (i j : Int) := enc_legal hm g.cs (v i j) o
  exact packCells_legal henc henc henc henc x y

theorem ydgcocgxForward_legal {g : Grid} (hm : 1 ≤ g.m) (S : Plane) (x y : Int) : legal g.cs g.m (ydgcocgxForward g S x y) := by
  unfold ydgcocgxForward
  have henc {v : Plane} {o : Int} (i j : Int) := enc_legal hm g.cs (v i j) o
  exact packCells_legal henc henc henc henc x y

/-- A forward CFA-grid command with a transform that encodes (rules R224, R225). -/
theorem gridForward_leavesLegal {w : Word} (a : Nat) {f : Grid → Plane → Plane}
    (hf : ∀ g : Grid, 1 ≤ g.m → ∀ S x y, legal g.cs g.m (f g S x y)) :
    LeavesLegal (withArrangement w a (fun p s => convert w (cfaError s (cfaForwardDepths s)) (cfaForward f s p) s) s) := by
  refine withArrangement_leavesLegal fun p => convert_leavesLegal fun hnone => ?_
  have hdepth : (s.slot 0).depth ≤ 31 := of_decide_eq_true (depths_of_cfaError hnone)
  exact {
    count_pos := le_refl 1
    count_le := (by decide : 1 ≤ 4)
    fields := cfaForward_fits p f hdepth
    outputs := List.forall_mem_singleton.2 {
      integer := rfl
      depth_pos := Nat.succ_pos _
      depth_le := (Nat.succ_le_succ hdepth).trans (by decide)
      samples := fun x y _ _ _ _ => hf (gridOf s p (s.slot 0).depth) (Nat.succ_pos _) _ x y } }

/-- An inverse CFA-grid command with a transform that clamps (rules R224, R225). -/
theorem gridInverse_leavesLegal {w : Word} (a : Nat) {f : Grid → Plane → Plane}
    (hf : ∀ (g : Grid) (S : Plane) x y, legal g.cs (g.m - 1) (f g S x y)) :
    LeavesLegal (withArrangement w a (fun p s => convert w (cfaError s (cfaInverseDepths s)) (cfaInverse f s p) s) s) := by
  refine withArrangement_leavesLegal fun p => convert_leavesLegal fun hnone => ?_
  have hdepths := depths_of_cfaError hnone
  simp only [cfaInverseDepths, Bool.and_eq_true, decide_eq_true_eq] at hdepths
  obtain ⟨hlow, hhigh⟩ := hdepths
  exact {
    count_pos := le_refl 1
    count_le := (by decide : 1 ≤ 4)
    fields := cfaInverse_fits s p f
    outputs := List.forall_mem_singleton.2 {
      integer := rfl
      depth_pos := Nat.le_sub_of_add_le hlow
      depth_le := (Nat.sub_le _ _).trans (hhigh.trans (by decide))
      samples := fun x y _ _ _ _ => hf (gridOf s p ((s.slot 0).depth - 1)) _ x y } }

end

/-- Every lifting command leaves legal samples, whatever it was given. -/
theorem lifting_leavesLegal {i : Instr}
    (hi : i ∈ [Instr.rctF, .rctI, .rctdF, .rctdI, .ycgcoF, .ycgcoI, .ycgcodF, .ycgcodI, .rct422F, .rct422I]
      ∨ ∃ a, i = .rctxF a ∨ i = .rctxI a ∨ i = .ydgcocgxF a ∨ i = .ydgcocgxI a) (s : State) : LeavesLegal (exec i s) := by
  have h3 : s.slot 0 ∈ threeSlots s := List.mem_cons_self
  have h4 : s.slot 0 ∈ allSlots s := List.mem_cons_self
  cases i with
  | rctF | ycgcoF => exact forward_leavesLegal h3 (forward3_legal _)
  | rctdF | ycgcodF => exact forward_leavesLegal h4 (forward4_legal _)
  | rct422F => exact forward_leavesLegal h3 forward422_legal
  | rctI | ycgcoI => exact inverse_leavesLegal h3 (inverse3_legal _)
  | rctdI | ycgcodI => exact inverse_leavesLegal h4 (inverse4_legal _)
  | rct422I => exact inverse_leavesLegal h3 inverse422_legal
  | rctxF a => exact gridForward_leavesLegal a fun _ => rctxForward_legal
  | ydgcocgxF a => exact gridForward_leavesLegal a fun _ => ydgcocgxForward_legal
  | rctxI a | ydgcocgxI a => exact gridInverse_leavesLegal a fun _ _ _ _ => clamp_legal _ _ _
  | _ => simp at hi

/-! ### The outputs of the layout commands (rules R170, R251) -/

/-- A copy of the value, of the type of slot `d`, is legal: it is legal itself, or rule R170 holds and not rule R251. -/
def Copyable (d : Slot) (v : Int) : Prop := Config.layoutKeepsIllegalSamples = false ∨ legal d.signed d.depth v

/-- A copy of every sample of the plane is legal. -/
def CopyableOn (d : Slot) (w h : Nat) (P : Plane) : Prop :=
  ∀ x y : Int, 0 ≤ x → x < w → 0 ≤ y → y < h → Copyable d (P x y)

theorem legal_of_copyable {d : Slot} {v : Int} (hf : d.isFloat = false) (hd : 1 ≤ d.depth) (h : Copyable d v) :
    legal d.signed d.depth (copiedSample d v) := by
  rcases h with hfree | hlegal
  · exact copiedSample_legal hfree hf hd v
  · rwa [copiedSample_of_legal hlegal]

theorem legalOutput_copy {d : Slot} (hf : d.isFloat = false) (htyped : typed d = true) {w h : Nat} {P : Plane}
    (hP : CopyableOn d w h P) (subX subY : Nat) : LegalOutput (copyOutput d w h subX subY P) where
  integer := hf
  depth_pos := (typed_depth htyped).1
  depth_le := (typed_depth htyped).2
  samples x y hx0 hx hy0 hy := legal_of_copyable hf (typed_depth htyped).1 (hP x y hx0 hx hy0 hy)

section
variable {d : Slot} {w h : Nat}

/-- One phase of the cells of a plane of even sizes (rule R17). -/
theorem copyableOn_cellAt {S : Plane} (hS : CopyableOn d w h S) (hw : w % 2 = 0) (hh : h % 2 = 0) (p : Phase) :
    CopyableOn d (w / 2) (h / 2) (cellAt S p) := by
  intro i j hi0 hi hj0 hj
  have hpx := p.x.isLt
  have hpy := p.y.isLt
  exact hS _ _ (by omega) (by omega) (by omega) (by omega)

/-- Two planes side by side in every row (rule R257). -/
theorem copyableOn_interleave {P Q : Plane} (hP : CopyableOn d (w / 2) h P) (hQ : CopyableOn d (w / 2) h Q)
    (hw : w % 2 = 0) : CopyableOn d w h (fun x j => if x % 2 = 0 then P (x / 2) j else Q (x / 2) j) := by
  intro x j hx0 hx hj0 hj
  dsimp only
  split
  · exact hP _ _ (by omega) (by omega) hj0 hj
  · exact hQ _ _ (by omega) (by omega) hj0 hj

theorem scatter_cases (p : Positions) (r g k b : Plane) (x y : Int) :
    ∃ P ∈ [r, g, k, b], scatter p r g k b x y = P (x / 2) (y / 2) := by
  simp only [scatter]
  split
  · simp
  · split
    · simp
    · split <;> simp

/-- Four planes put at the phases of an arrangement (rule R151). -/
theorem copyableOn_scatter {r g k b : Plane} (hplanes : ∀ P ∈ [r, g, k, b], CopyableOn d w h P) (p : Positions) :
    CopyableOn d (2 * w) (2 * h) (scatter p r g k b) := by
  intro x y hx0 hx hy0 hy
  obtain ⟨P, hP, heq⟩ := scatter_cases p r g k b x y
  rw [heq]
  exact hplanes P hP _ _ (by omega) (by omega) (by omega) (by omega)

end

section
variable {s : State}

/-- What a layout command is given: rule R170 holds and not rule R251, or every sample of its image is legal. -/
abbrev CopyableImage (s : State) : Prop := Config.layoutKeepsIllegalSamples = false ∨ LegalSamples s s.imgDepth.toNat

/-- The samples of an input slot, under the type of `C0`. -/
theorem copyableOn_input (hin : CopyableImage s) {c w h : Nat} (hc : c < s.imgDepth.toNat)
    (hsize : (s.slot c).width = w ∧ (s.slot c).height = h)
    (htype : (s.slot c).depth = (s.slot 0).depth ∧ (s.slot c).signed = (s.slot 0).signed) :
    CopyableOn (s.slot 0) w h (load s.mem (s.slot c)) := by
  obtain ⟨rfl, rfl⟩ := hsize
  intro x y hx0 hx hy0 hy
  lift x to Nat using hx0
  lift y to Nat using hy0
  refine hin.imp_right fun hlegal => ?_
  rw [← htype.1, ← htype.2]
  exact hlegal c hc x (by omega) y (by omega)

/-- A layout command of format A (rules R253, R256, R258, R259). -/
theorem arrangedLayout_leavesLegal {w : Word} (a : Nat) {own : State → Option ErrorKind} {c : Positions → State → Conversion}
    (h : own s = none → ∀ p, LegalOutputs (c p s)) :
    LeavesLegal (withArrangement w a (fun p s => convert w (own s) (c p s) s) s) :=
  withArrangement_leavesLegal fun p => convert_leavesLegal fun hnone => h hnone p

variable (hfloat : (s.slot 0).isFloat = false) (hin : CopyableImage s)
include hfloat hin

theorem cfaToPlanes_legal (hnone : cfaCopyError s = none) (p : Positions) : LegalOutputs (cfaToPlanes p s) := by
  obtain ⟨⟨hcount, -, -, hw, hh⟩, htyped⟩ := cfaCopyError_eq_none.1 hnone
  have hS := copyableOn_input hin (c := 0) (by omega) ⟨rfl, rfl⟩ ⟨rfl, rfl⟩
  have hplane (q : Phase) := legalOutput_copy hfloat htyped (copyableOn_cellAt hS hw hh q) 1 1
  refine ⟨(by decide : 1 ≤ 4), le_refl 4, cfaToPlanes_fits s p, ?_⟩
  simp only [cfaToPlanes, List.forall_mem_cons]
  exact ⟨hplane p.r, hplane p.g, hplane p.k, hplane p.b, nofun⟩

theorem cfaTo422_legal (hnone : cfaCopyError s = none) (p : Positions) : LegalOutputs (cfaTo422 p s) := by
  obtain ⟨⟨hcount, -, -, hw, hh⟩, htyped⟩ := cfaCopyError_eq_none.1 hnone
  have hS := copyableOn_input hin (c := 0) (by omega) ⟨rfl, rfl⟩ ⟨rfl, rfl⟩
  have hcell (q : Phase) := copyableOn_cellAt hS hw hh q
  refine ⟨(by decide : 1 ≤ 3), (by decide : 3 ≤ 4), cfaTo422_fits s p, ?_⟩
  simp only [cfaTo422, List.forall_mem_cons]
  exact ⟨legalOutput_copy hfloat htyped (copyableOn_interleave (hcell p.g) (hcell p.k) hw) 1 1,
    legalOutput_copy hfloat htyped (hcell p.r) 2 1, legalOutput_copy hfloat htyped (hcell p.b) 2 1, nofun⟩

theorem planesToCfa_legal (hnone : planesCopyError s = none) (p : Positions) : LegalOutputs (planesToCfa p s) := by
  obtain ⟨⟨hcount, -, -, hsizes⟩, hformats, htyped⟩ := planesCopyError_eq_none hnone
  have hplanes : ∀ c < 4, CopyableOn (s.slot 0) (s.slot 0).width (s.slot 0).height (load s.mem (s.slot c)) := by
    intro c hc
    obtain ⟨hdepth, hsigned, -⟩ := hformats c hc
    exact copyableOn_input hin (by omega) (hsizes c hc) ⟨hdepth, hsigned⟩
  have hscatter := copyableOn_scatter (p := p) (by simpa using forall_lt_four.1 hplanes)
  exact ⟨le_refl 1, (by decide : 1 ≤ 4), planesToCfa_fits s p,
    List.forall_mem_singleton.2 (legalOutput_copy hfloat htyped hscatter 1 1)⟩

theorem cfaFrom422_legal (hnone : copy422Error s = none) (p : Positions) : LegalOutputs (cfaFrom422 p s) := by
  obtain ⟨⟨hcount, -, -, heven, hsizes⟩, hformats, htyped⟩ := copy422Error_eq_none hnone
  have hluma := copyableOn_input hin (c := 0) (by omega) ⟨rfl, rfl⟩ ⟨rfl, rfl⟩
  have hchroma : ∀ c < 3, c ≠ 0 →
      CopyableOn (s.slot 0) ((s.slot 0).width / 2) (s.slot 0).height (load s.mem (s.slot c)) := by
    intro c hc hne
    obtain ⟨hdepth, hsigned, -⟩ := hformats c hc
    exact copyableOn_input hin (by omega) (hsizes c hc hne) ⟨hdepth, hsigned⟩
  have hgreen1 : CopyableOn (s.slot 0) ((s.slot 0).width / 2) (s.slot 0).height (fun i j => load s.mem (s.slot 0) (2 * i) j) :=
    fun i j _ _ hj0 hj => hluma _ _ (by omega) (by omega) hj0 hj
  have hgreen2 : CopyableOn (s.slot 0) ((s.slot 0).width / 2) (s.slot 0).height
      (fun i j => load s.mem (s.slot 0) (2 * i + 1) j) :=
    fun i j _ _ hj0 hj => hluma _ _ (by omega) (by omega) hj0 hj
  have hscatter := copyableOn_scatter (p := p) (List.forall_mem_cons.2 ⟨hchroma 1 (by decide) (by decide),
    List.forall_mem_cons.2 ⟨hgreen1, List.forall_mem_cons.2 ⟨hgreen2,
      List.forall_mem_singleton.2 (hchroma 2 (by decide) (by decide))⟩⟩⟩)
  rw [Nat.mul_div_cancel' (Nat.dvd_of_mod_eq_zero heven)] at hscatter
  exact ⟨le_refl 1, (by decide : 1 ≤ 4), cfaFrom422_fits s p,
    List.forall_mem_singleton.2 (legalOutput_copy hfloat htyped hscatter 1 1)⟩

/-- A layout command on integers leaves legal samples, if its input is legal or rule R170 holds for the others. -/
theorem layout_leavesLegal {i : Instr}
    (hi : i ∈ [Instr.c2p, .p2c] ∨ ∃ a, i = .c2ps a ∨ i = .p2cs a ∨ i = .c2y a ∨ i = .y2c a) : LeavesLegal (exec i s) := by
  cases i with
  | c2p => exact convert_leavesLegal fun hnone => cfaToPlanes_legal hfloat hin hnone rasterOrder
  | p2c => exact convert_leavesLegal fun hnone => planesToCfa_legal hfloat hin hnone rasterOrder
  | c2ps a => exact arrangedLayout_leavesLegal a (cfaToPlanes_legal hfloat hin)
  | p2cs a => exact arrangedLayout_leavesLegal a (planesToCfa_legal hfloat hin)
  | c2y a => exact arrangedLayout_leavesLegal a (cfaTo422_legal hfloat hin)
  | y2c a => exact arrangedLayout_leavesLegal a (cfaFrom422_legal hfloat hin)
  | _ => simp at hi

end

/-! ### The obligation -/

/-- Settles O48: by the family of the command, with its error cases excluded by the flag. -/
theorem conversionsStoreLegalSamples : Obligations.ConversionsStoreLegalSamples := by
  intro i s t hexec _ hflag
  exact ⟨fun hi => lifting_leavesLegal hi s t hexec hflag,
    fun hi hfloat hin => layout_leavesLegal hfloat hin hi t hexec hflag⟩

end Sys2Proof.Proofs

/-!
The command word and the opcode map (`spec/30_encoding.md` rules R101 to R108): a row of the map and the values of the two fields
determine a word, the word determines the row and the values, and so the decoder and the encoder invert each other.
-/

namespace Sys2Proof.Proofs

open Sys2Proof Sys2Proof.Machine Sys2Proof.Laws Sys2Proof.Claims

/-! ### The fields of a word (rules R101, R103, R104) -/

theorem arrField_lt (w : Word) : arrField w < 16 := (w.extractLsb' 8 4).isLt

theorem compField_lt (w : Word) : compField w < 4 := (w.extractLsb' 12 2).isLt

/-- `ARR` put back where it was read. -/
theorem arrField_shifted (w : Word) : BitVec.ofNat 32 (arrField w) <<< 8 = w &&& 0x00000F00#32 := by
  rw [arrField, BitVec.ofNat_toNat]
  ext i hi
  interval_cases i <;> simp

/-- `COMP` put back where it was read. -/
theorem compField_shifted (w : Word) : BitVec.ofNat 32 (compField w) <<< 12 = w &&& 0x00003000#32 := by
  rw [compField, BitVec.ofNat_toNat]
  ext i hi
  interval_cases i <;> simp

/-- The mask of format A leaves out `ARR` and nothing else. -/
theorem wordA_of_masked {w op : Word} (h : w &&& Format.mask .a = op) : wordA op (arrField w) = w := by
  rw [wordA, arrField_shifted, ← h, ← BitVec.and_or_distrib_left]
  exact BitVec.and_allOnes

/-- The mask of format C leaves out `COMP` and nothing else. -/
theorem wordC_of_masked {w op : Word} (h : w &&& Format.mask .c = op) : wordC op (compField w) = w := by
  rw [wordC, compField_shifted, ← h, ← BitVec.and_or_distrib_left]
  exact BitVec.and_allOnes

section

variable {op : Word} (hop : opcodeField op = op)

include hop

theorem arrField_wordA {a : Nat} (ha : a < 16) : arrField (wordA op a) = a := by
  rw [← hop, opcodeField, arrField, wordA, BitVec.extractLsb'_or, BitVec.extractLsb'_and]
  interval_cases a <;> simp

theorem compField_wordC {c : Nat} (hc : c < 4) : compField (wordC op c) = c := by
  rw [← hop, opcodeField, compField, wordC, BitVec.extractLsb'_or, BitVec.extractLsb'_and]
  interval_cases c <;> simp

/-- Every mask holds bits 7:0. -/
theorem opcode_masked (f : Format) : op &&& f.mask = op := by
  rw [← hop, opcodeField, BitVec.and_assoc]
  cases f <;> rfl

theorem wordA_masked {a : Nat} (ha : a < 16) : wordA op a &&& Format.mask .a = op := by
  rw [wordA, BitVec.and_comm, BitVec.and_or_distrib_left, BitVec.and_comm _ op, opcode_masked hop]
  interval_cases a <;> exact BitVec.or_zero

theorem wordC_masked {c : Nat} (hc : c < 4) : wordC op c &&& Format.mask .c = op := by
  rw [wordC, BitVec.and_comm, BitVec.and_or_distrib_left, BitVec.and_comm _ op, opcode_masked hop]
  interval_cases c <;> exact BitVec.or_zero

end

/-! ### The word of a row of the opcode map (rules R106, R108) -/

/-- The word with this opcode and these values in the field that the format uses. -/
def formatWord (op : Word) (a c : Nat) : Format → Word
  | .z => op
  | .c => wordC op c
  | .a => wordA op a

/-- An accepted word holds the row's opcode, its own two fields, and nothing else (rules R106, R107). -/
theorem formatWord_of_accepts {r : Row} {w : Word} (h : r.accepts w = true) :
    formatWord r.pattern (arrField w) (compField w) r.format = w := by
  obtain ⟨op, f, build⟩ := r
  have hmasked : w &&& f.mask = op := beq_iff_eq.1 h
  cases f with
  | z => exact hmasked.symm.trans BitVec.and_allOnes
  | c => exact wordC_of_masked hmasked
  | a => exact wordA_of_masked hmasked

theorem accepts_formatWord {r : Row} (hop : opcodeField r.pattern = r.pattern) {a c : Nat} (ha : r.format = .a → a < 16)
    (hc : r.format = .c → c < 4) :
    r.accepts (formatWord r.pattern a c r.format) = true := by
  obtain ⟨op, f, build⟩ := r
  apply beq_iff_eq.2
  cases f with
  | z => exact BitVec.and_allOnes
  | c => exact wordC_masked hop (hc rfl)
  | a => exact wordA_masked hop (ha rfl)

/-- `OPCODE` of an accepted word is the row's. -/
theorem opcodeField_of_accepts {r : Row} (hop : opcodeField r.pattern = r.pattern) {w : Word} (h : r.accepts w = true) :
    opcodeField w = r.pattern := by
  have hmasked : w &&& r.format.mask = r.pattern := beq_iff_eq.1 h
  have hmask : r.format.mask &&& 0xFF#32 = 0xFF#32 := by cases r.format <;> rfl
  rw [← hop, ← hmasked, opcodeField, opcodeField, BitVec.and_assoc, hmask]

/-! ### The rows (rule R102) -/

theorem opcodeField_pattern : ∀ r ∈ opcodeTable, opcodeField r.pattern = r.pattern := by decide

theorem patterns_nodup : (opcodeTable.map Row.pattern).Nodup := by decide

/-- A row uses no value but that of its format's field. -/
theorem build_congr : ∀ r ∈ opcodeTable, ∀ a a' c c' : Nat, (r.format = .a → a = a') → (r.format = .c → c = c') →
    r.build a c = r.build a' c' := by
  simp [opcodeTable, unitRows, layoutRows, liftingRows]

/-- The encoder writes what the row says. -/
theorem encode_build : ∀ r ∈ opcodeTable, ∀ a c : Nat, encode (r.build a c) = formatWord r.pattern a c r.format := by
  simp [opcodeTable, unitRows, layoutRows, liftingRows, encode, formatWord]

/-- A command is well-formed when the value its format uses fits the field. -/
theorem wellFormed_build_iff : ∀ r ∈ opcodeTable, ∀ a c : Nat,
    (r.build a c).wellFormed = true ↔ (r.format = .a → a < 16) ∧ (r.format = .c → c < 4) := by
  simp [opcodeTable, unitRows, layoutRows, liftingRows, Instr.wellFormed, arrCodeFits, slotNumberFits]

theorem row_builds (k : Fin 30) (a c : Nat) : ∃ r ∈ opcodeTable, ∃ a' c', r.build a' c' = opcodeTable[k.val].build a c :=
  ⟨_, List.getElem_mem k.isLt, a, c, rfl⟩

/-- Every command has a row, found by its place in the map. -/
theorem exists_row (i : Instr) : ∃ r ∈ opcodeTable, ∃ a c, r.build a c = i := by
  cases i with
  | nop => exact row_builds 0 0 0
  | errclr => exact row_builds 1 0 0
  | addr c => exact row_builds 2 0 c
  | lds c => exact row_builds 3 0 c
  | sts c => exact row_builds 4 0 c
  | typeof c => exact row_builds 5 0 c
  | maddr c => exact row_builds 6 0 c
  | ldm c => exact row_builds 7 0 c
  | bpos a => exact row_builds 8 a 0
  | bparse => exact row_builds 9 0 0
  | c2p => exact row_builds 10 0 0
  | c2ps a => exact row_builds 11 a 0
  | p2c => exact row_builds 12 0 0
  | p2cs a => exact row_builds 13 a 0
  | c2y a => exact row_builds 14 a 0
  | y2c a => exact row_builds 15 a 0
  | rctF => exact row_builds 16 0 0
  | rctI => exact row_builds 17 0 0
  | rctdF => exact row_builds 18 0 0
  | rctdI => exact row_builds 19 0 0
  | rctxF a => exact row_builds 20 a 0
  | rctxI a => exact row_builds 21 a 0
  | ycgcoF => exact row_builds 22 0 0
  | ycgcoI => exact row_builds 23 0 0
  | ycgcodF => exact row_builds 24 0 0
  | ycgcodI => exact row_builds 25 0 0
  | ydgcocgxF a => exact row_builds 26 a 0
  | ydgcocgxI a => exact row_builds 27 a 0
  | rct422F => exact row_builds 28 0 0
  | rct422I => exact row_builds 29 0 0

/-- No word is accepted by two rows. -/
theorem row_unique {r r' : Row} (hr : r ∈ opcodeTable) (hr' : r' ∈ opcodeTable) {w : Word} (h : r.accepts w = true)
    (h' : r'.accepts w = true) : r = r' :=
  List.inj_on_of_nodup_map patterns_nodup hr hr'
    ((opcodeField_of_accepts (opcodeField_pattern r hr) h).symm.trans (opcodeField_of_accepts (opcodeField_pattern r' hr') h'))

/-! ### The decoder (rules R100, R107) -/

/-- The decoder finds the row that accepts the word. -/
theorem decodeWord_of_accepts {r : Row} (hr : r ∈ opcodeTable) {w : Word} (h : r.accepts w = true) :
    decodeWord w = .ok (r.build (arrField w) (compField w)) := by
  unfold decodeWord
  split
  · rename_i r' hfind
    have haccepts : r'.accepts w = true := List.find?_some (p := fun r : Row => r.accepts w) hfind
    rw [row_unique hr (List.mem_of_find?_eq_some hfind) h haccepts]
  · rename_i hfind
    exact absurd h (List.find?_eq_none.1 hfind r hr)

/-- A row builds the same command from the fields of its word as from the values the word was made of. -/
theorem build_fields {r : Row} (hr : r ∈ opcodeTable) {a c : Nat} (ha : r.format = .a → a < 16) (hc : r.format = .c → c < 4) :
    r.build (arrField (formatWord r.pattern a c r.format)) (compField (formatWord r.pattern a c r.format)) = r.build a c := by
  have hop := opcodeField_pattern r hr
  apply build_congr r hr
  · intro hf
    rw [hf]
    exact arrField_wordA hop (ha hf)
  · intro hf
    rw [hf]
    exact compField_wordC hop (hc hf)

/-! ### The obligations -/

/-- Settles O6: the command is a row at two values; its word is accepted by that row alone and holds those values. -/
theorem decodeInvertsEncode : Obligations.DecodeInvertsEncode := by
  intro i hi
  obtain ⟨r, hr, a, c, rfl⟩ := exists_row i
  obtain ⟨ha, hc⟩ := (wellFormed_build_iff r hr a c).1 hi
  rw [encode_build r hr, decodeWord_of_accepts hr (accepts_formatWord (opcodeField_pattern r hr) ha hc), build_fields hr ha hc]

/-- Settles O7: the row that accepts the word leaves no bit of it out. -/
theorem encodeInvertsDecode : Obligations.EncodeInvertsDecode := by
  intro w i h
  obtain ⟨r, hr, haccepts, rfl⟩ := decodeWord_ok h
  exact ⟨(wellFormed_build_iff r hr _ _).2 ⟨fun _ => arrField_lt w, fun _ => compField_lt w⟩,
    (encode_build r hr _ _).trans (formatWord_of_accepts haccepts)⟩

/-- Settles O9: with no error recorded the word is decoded, and what decodes is accepted by a row. -/
theorem unmatchedWordsRaiseIllegalCommand : Obligations.UnmatchedWordsRaiseIllegalCommand := by
  intro s v rest hhost hclear hnone
  rw [step_action hhost]
  rcases issue_cases (w := BitVec.ofInt 32 v) (s := { s with host := rest }) with
    ⟨herr, -, -⟩ | ⟨-, ⟨i, hi, -⟩ | ⟨e, -, hraised⟩⟩
  · exact absurd herr (by simp [hclear])
  · obtain ⟨r, hr, haccepts, -⟩ := decodeWord_ok hi
    exact absurd (beq_iff_eq.1 haccepts) (hnone r hr)
  · exact hraised

/-- Settles O8: each word is the one its command has, by evaluation of `encode`. -/
theorem writtenWordsDecode : Obligations.WrittenWordsDecode :=
  ⟨decodeInvertsEncode .errclr rfl, decodeInvertsEncode (.addr 3) rfl, decodeInvertsEncode (.sts 2) rfl,
    decodeInvertsEncode (.bpos 3) rfl, decodeInvertsEncode (.c2ps 1) rfl, decodeInvertsEncode (.y2c 2) rfl,
    decodeInvertsEncode .rctdI rfl, decodeInvertsEncode (.rctxF 1) rfl, decodeInvertsEncode (.ydgcocgxI 2) rfl,
    decodeInvertsEncode .rct422I rfl⟩

end Sys2Proof.Proofs

/-!
The commands of the sequencer (`spec/40_system.md` rules R121 and R122): NOP and ERRCLR, as commands and as the host's write of
`CMD`.
-/

namespace Sys2Proof.Proofs

open Sys2Proof Sys2Proof.Machine Sys2Proof.Laws Sys2Proof.Claims

/-! ### The host's write of `CMD` (rules R51, R292) -/

/-- A write of `CMD` issues the low 32 bits of the value. -/
theorem step_cmd {s : State} {v : Int} {rest : List HostAction} (h : s.host = .regWrite 0 v :: rest) :
    step s = issue (BitVec.ofInt 32 v) { s with host := rest } := step_action h

theorem issue_ignored {w : Word} {s : State} (herr : errFlag s.status = true) (hw : w ≠ 0x00000001#32) :
    issue w s = .next s := if_pos ⟨herr, hw⟩

/-- While an error is recorded, a write of any word but ERRCLR's only leaves the host's list. -/
theorem step_cmd_ignored {s : State} {v : Int} {rest : List HostAction} (h : s.host = .regWrite 0 v :: rest)
    (herr : errFlag s.status = true) (hw : BitVec.ofInt 32 v ≠ 0x00000001#32) : step s = .next { s with host := rest } :=
  (step_cmd h).trans (issue_ignored herr hw)

/-! ### The two commands (rules R121, R122) -/

theorem exec_nop (s : State) : exec .nop s = .next (complete s) := rfl

theorem exec_errclr (s : State) : exec .errclr s = .next (errorCleared s) := rfl

theorem standsFor_nop : StandsFor 0x00000000#32 .nop := ⟨decodeInvertsEncode .nop rfl, rfl⟩

theorem standsFor_errclr : StandsFor 0x00000001#32 .errclr := ⟨decodeInvertsEncode .errclr rfl, rfl⟩

/-! ### The registers after a command that only completes -/

theorem readReg_complete_ne (s : State) {r : Reg} (h : r ≠ .status) : readReg (complete s) r = readReg s r := by
  cases r with
  | status => exact absurd rfl h
  | _ => rfl

/-- Completing changes the number of `STATUS` and no other. -/
theorem regRead_complete_ne (s : State) {num : Nat} (h : num ≠ 0x01) : regRead (complete s) num = regRead s num := by
  cases hreg : regOf num with
  | none => rw [regRead_none hreg, regRead_none hreg]
  | some r =>
    obtain ⟨hnum, -, -⟩ := regOf_some hreg
    have hne : r ≠ .status := fun hr => h (by rw [← hnum, hr, numberOf])
    rw [regRead_some hreg, regRead_some hreg, readReg_complete_ne s hne]

theorem regRead_complete_status (s : State) : regRead (complete s) 0x01 = (statusDone s.status).toNat := rfl

/-- What NOP after reset leaves to be read: the example of rule R121. -/
theorem regRead_complete_resetWith (memLast : Word) (mem : Memory) (num : Nat) :
    regRead (complete (State.resetWith memLast mem)) num = if num = 0x01 then 1 else 0 := by
  by_cases hnum : num = 0x01
  · rw [if_pos hnum, hnum, regRead_complete_status, resetWith_status]
    rfl
  · rw [if_neg hnum, regRead_complete_ne _ hnum]
    exact resetRegistersReadZero memLast mem num

/-! ### The obligations -/

/-- Settles O13: the word 0 is ignored at the gate or decodes to NOP, which completes; after reset that is seen in `STATUS` alone. -/
theorem nopCompletes : Obligations.NopCompletes := by
  refine ⟨standsFor_nop, exec_nop, fun s rest hhost herr => step_cmd_ignored hhost herr (by decide), fun memLast mem num => ?_⟩
  obtain ⟨hdecode, -⟩ := standsFor_nop
  have hstep := stepRunsDecodedCommand { State.resetWith memLast mem with host := [.regWrite 0 0] } 0 [] .nop rfl hdecode
    (.inl (by simp [errFlag]))
  exact ⟨_, hstep.trans (exec_nop _), regRead_complete_resetWith memLast mem num⟩

/-- Settles O14: the word 1 passes the gate in every state, and it is the only one that does while an error is recorded. -/
theorem errclrCompletes : Obligations.ErrclrCompletes := by
  refine ⟨standsFor_errclr, exec_errclr, fun s rest hhost => ?_, fun s v rest => step_cmd_ignored⟩
  obtain ⟨hdecode, -⟩ := standsFor_errclr
  exact (stepRunsDecodedCommand s 1 rest .errclr hhost hdecode (.inr rfl)).trans (exec_errclr _)

end Sys2Proof.Proofs

/-!
The commands of the strided pixel accessor (`spec/41_accessor.md` rules R130 to R143): how an access ends, what a load and a store
leave, and the mirrored coordinates.
-/

namespace Sys2Proof.Proofs

open Sys2Proof Sys2Proof.Machine Sys2Proof.Laws Sys2Proof.Claims

/-! ### The bytes of a store (rules R13, R134) -/

/-- Byte `j` of a write is digit `j` of the number in base 256. -/
theorem memGet_memWriteNat_inside (m : Memory) (a : Nat) {k j : Nat} (hj : j < k) (v : Nat) :
    memGet (memWriteNat m a k v) (a + j) = BitVec.ofNat 8 (v / 256 ^ j) := by
  induction k generalizing m a j v with
  | zero => exact absurd hj (Nat.not_lt_zero j)
  | succ k ih =>
    cases j with
    | zero => rw [memWriteNat, memGet_memWriteNat_outside _ _ _ _ _ (by omega), memGet_memSet, if_pos (add_zero a), pow_zero,
        Nat.div_one]
    | succ j =>
      have haddr : a + (j + 1) = a + 1 + j := by omega
      rw [memWriteNat, haddr, ih _ _ (by omega), Nat.div_div_eq_div_mul, pow_succ']

/-- Dropping the bits above the `k` bytes changes none of these bytes. -/
theorem ofNat_mod_div_eq_extractLsb' (w : DWord) {k j : Nat} (hj : j < k) :
    BitVec.ofNat 8 (w.toNat % 2 ^ (8 * k) / 256 ^ j) = w.extractLsb' (8 * j) 8 := by
  apply BitVec.eq_of_getLsbD_eq
  intro b hb
  have hlow : 8 * j + b < 8 * k := by omega
  rw [BitVec.getLsbD_ofNat, BitVec.getLsbD_extractLsb', ← two_pow_eight_mul, Nat.testBit_div_two_pow, Nat.testBit_mod_two_pow,
    Nat.add_comm b, decide_eq_true hlow, Bool.true_and, BitVec.getLsbD]

/-- A store puts bits `8j+7:8j` of the register into byte `j` of the element. -/
theorem memGet_memWrite_register (m : Memory) (a : Nat) {k j : Nat} (hj : j < k) (w : DWord) :
    memGet (memWrite m a k w.toNat) (a + j) = w.extractLsb' (8 * j) 8 := by
  have hmod : ((w.toNat : Int) % 2 ^ (8 * k)).toNat = w.toNat % 2 ^ (8 * k) := by norm_cast
  rw [memWrite, hmod, memGet_memWriteNat_inside m a hj, ofNat_mod_div_eq_extractLsb' w hj]

/-! ### The register a load writes (rule R133) -/

/-- The pattern of an element's value is its bytes, extended by the sign of its type. -/
theorem ofInt_loadAt (m : Memory) (t : SampleType) (a : Nat) :
    BitVec.ofInt 64 (loadAt m t a) = pattern64 (rowOf t) (memRead m a t.bytes) := by
  have hraw : memRead m a t.bytes < 2 ^ (8 * t.bytes) := (memRead_lt m _ _).trans_eq (two_pow_eight_mul t.bytes).symm
  rw [loadAt, pattern64_value t hraw]
  split
  · exact BitVec.ofInt_toInt
  · rw [BitVec.ofInt_natCast, BitVec.ofNat_toNat, BitVec.setWidth_eq]

/-! ### The effects of the commands at an address inside MEM -/

section
variable {a : Int} (ha : 0 ≤ a) (t : SampleType) (s : State)
include ha

theorem ofNat_address : BitVec.ofNat 32 a.toNat = BitVec.ofInt 32 a := by
  rw [← BitVec.ofInt_natCast, Int.toNat_of_nonneg ha]

theorem complete_setAddr :
    complete (setAddr t a.toNat s) = { s with raddr := BitVec.ofInt 32 a, status := doneStatus s } := by
  rw [← ofNat_address ha]
  rfl

theorem complete_loadElement :
    complete (loadElement t a.toNat s) = { s with
      raddr := BitVec.ofInt 32 a
      rdata := pattern64 (rowOf t) (memRead s.mem a.toNat t.bytes)
      status := doneStatus s } := by
  rw [← ofNat_address ha, ← ofInt_loadAt]
  rfl

theorem complete_storeElement :
    complete (storeElement t a.toNat s) = { s with
      mem := memWrite s.mem a.toNat t.bytes s.wdata.toNat
      raddr := BitVec.ofInt 32 a
      status := doneStatus s } := by
  rw [← ofNat_address ha]
  rfl

end

/-! ### How an access ends (rule R130) -/

/-- In the state `s` the command `i` is an access to slot `c` at these coordinates, with this effect. -/
abbrev RunsAccess (i : Instr) (s : State) (c : Nat) (coords : Option (Int × Int)) (act : SampleType → Nat → State → State) :
    Prop :=
  exec i s = access (encode i) (s.slot c) coords act s

section
variable {i : Instr} {s : State} {c : Nat} {coords : Option (Int × Int)} {act : SampleType → Nat → State → State}
  {t : SampleType} {x y : Int}

theorem RunsAccess.raises_untyped (h : RunsAccess i s c coords act) (hnone : untyped (s.slot c)) : Raises i s 3 :=
  h.trans (access_untyped (untyped_iff.1 hnone))

theorem RunsAccess.raises_outside (h : RunsAccess i s c (some (x, y)) act) (hrow : (rowOf t).describes (s.slot c))
    (hout : ¬inside s (sampleAddr (s.slot c) x y) (rowOf t).bytes) : Raises i s 6 := by
  rw [rowOf_bytes] at hout
  exact h.trans (access_outside (etype_eq_some_iff.2 hrow) (Bool.eq_false_iff.2 (mt inMem_iff.1 hout)))

theorem RunsAccess.completes (h : RunsAccess i s c (some (x, y)) act) (hrow : (rowOf t).describes (s.slot c))
    (hin : inside s (sampleAddr (s.slot c) x y) (rowOf t).bytes) :
    exec i s = .next (complete (act t (sampleAddr (s.slot c) x y).toNat s)) := by
  rw [rowOf_bytes] at hin
  exact h.trans (access_complete (etype_eq_some_iff.2 hrow) (inMem_iff.2 hin))

/-- A command whose effect is to give the address (rules R132, R142). -/
theorem RunsAccess.gives_address (h : RunsAccess i s c (some (x, y)) setAddr) (hrow : (rowOf t).describes (s.slot c))
    (hin : inside s (sampleAddr (s.slot c) x y) (rowOf t).bytes) :
    exec i s = .next { s with raddr := BitVec.ofInt 32 (sampleAddr (s.slot c) x y), status := doneStatus s } := by
  rw [h.completes hrow hin, complete_setAddr hin.1]

/-- A command whose effect is to load the element (rules R133, R143). -/
theorem RunsAccess.gives_element (h : RunsAccess i s c (some (x, y)) loadElement) (hrow : (rowOf t).describes (s.slot c))
    (hin : inside s (sampleAddr (s.slot c) x y) (rowOf t).bytes) :
    exec i s = .next { s with
      raddr := BitVec.ofInt 32 (sampleAddr (s.slot c) x y)
      rdata := pattern64 (rowOf t) (memRead s.mem (sampleAddr (s.slot c) x y).toNat (rowOf t).bytes)
      status := doneStatus s } := by
  rw [h.completes hrow hin, complete_loadElement hin.1, rowOf_bytes]

end

/-! ### The mirrored coordinates (rules R140, R141) -/

section
variable {i : Instr} {s : State} {c : Nat} {act : SampleType → Nat → State → State} {t : SampleType}

/-- With both reflected coordinates in the component a mirrored access is the access there. -/
theorem RunsAccess.of_mirrorInside (h : RunsAccess i s c (mirroredCoords s (s.slot c)) act) (hmirror : mirrorInside s c) :
    RunsAccess i s c (some (mirroredX s c, mirroredY s c)) act := by
  have hcoords : mirroredCoords s (s.slot c) = some (mirroredX s c, mirroredY s c) := if_pos hmirror
  rwa [hcoords] at h

theorem RunsAccess.raises_unmirrored (h : RunsAccess i s c (mirroredCoords s (s.slot c)) act)
    (hrow : (rowOf t).describes (s.slot c)) (hmirror : ¬mirrorInside s c) : Raises i s 6 := by
  have hcoords : mirroredCoords s (s.slot c) = none := if_neg hmirror
  rw [hcoords] at h
  exact h.trans (access_unmirrored (etype_eq_some_iff.2 hrow))

end

/-! ### The commands -/

theorem standsFor_encode {i : Instr} (h : i.wellFormed = true) : StandsFor (encode i) i := ⟨decodeInvertsEncode i h, rfl⟩

section
variable (c : Nat) (s : State)

theorem runsAccess_addr : RunsAccess (.addr c) s c (some (s.x.toInt, s.y.toInt)) setAddr := rfl

theorem runsAccess_lds : RunsAccess (.lds c) s c (some (s.x.toInt, s.y.toInt)) loadElement := rfl

theorem runsAccess_sts : RunsAccess (.sts c) s c (some (s.x.toInt, s.y.toInt)) storeElement := rfl

theorem runsAccess_maddr : RunsAccess (.maddr c) s c (mirroredCoords s (s.slot c)) setAddr := rfl

theorem runsAccess_ldm : RunsAccess (.ldm c) s c (mirroredCoords s (s.slot c)) loadElement := rfl

theorem exec_typeof_typed {t : SampleType} (h : etype (s.slot c) = some t) :
    exec (.typeof c) s = .next (complete { s with rdata := BitVec.ofNat 64 t.code }) := by
  rw [exec, execTypeof, h]

theorem exec_typeof_untyped (h : etype (s.slot c) = none) :
    exec (.typeof c) s = .next (raised .unsupportedSampleType (encode (.typeof c)) s) := by
  rw [exec, execTypeof, h, raise]

end

/-! ### The obligations -/

/-- Settles O16: the row that describes the slot is the row of its element type. -/
theorem typeofCompletes : Obligations.TypeofCompletes := by
  refine fun c s => ⟨fun hc => standsFor_encode (i := .typeof c) (decide_eq_true hc), fun r hr hrow => ?_,
    fun hnone => exec_typeof_untyped c s (untyped_iff.1 hnone)⟩
  obtain ⟨t, rfl⟩ := exists_rowOf hr
  rw [exec_typeof_typed c s (etype_eq_some_iff.2 hrow), rowOf_code]
  rfl

/-- Settles O17: the access at `(X, Y)` inside MEM, outside it, and without an element type. -/
theorem addrCompletes : Obligations.AddrCompletes := by
  refine fun c s => ⟨fun hc => standsFor_encode (i := .addr c) (decide_eq_true hc), fun r hr hrow => ?_,
    (runsAccess_addr c s).raises_untyped⟩
  obtain ⟨t, rfl⟩ := exists_rowOf hr
  exact ⟨(runsAccess_addr c s).gives_address hrow, (runsAccess_addr c s).raises_outside hrow⟩

/-- Settles O18: the access of ADDR, with the element's pattern. -/
theorem ldsCompletes : Obligations.LdsCompletes := by
  refine fun c s => ⟨fun hc => standsFor_encode (i := .lds c) (decide_eq_true hc), fun r hr hrow => ?_,
    (runsAccess_lds c s).raises_untyped⟩
  obtain ⟨t, rfl⟩ := exists_rowOf hr
  exact ⟨(runsAccess_lds c s).gives_element hrow, (runsAccess_lds c s).raises_outside hrow⟩

/-- Settles O19: the access of ADDR; what it leaves in MEM is said byte by byte, inside the element and outside it. -/
theorem stsCompletes : Obligations.StsCompletes := by
  refine fun c s => ⟨fun hc => standsFor_encode (i := .sts c) (decide_eq_true hc), fun r hr hrow => ?_,
    (runsAccess_sts c s).raises_untyped⟩
  obtain ⟨t, rfl⟩ := exists_rowOf hr
  refine ⟨fun hin => ?_, (runsAccess_sts c s).raises_outside hrow⟩
  have hexec := (runsAccess_sts c s).completes hrow hin
  rw [complete_storeElement hin.1] at hexec
  rw [rowOf_bytes]
  exact ⟨_, hexec, rfl, fun j hj => memGet_memWrite_register s.mem _ hj s.wdata,
    fun a ha => memGet_memWrite_outside s.mem _ _ _ a ha⟩

/-- Settles O20: the access of ADDR at the reflected coordinates, or no coordinates to access. -/
theorem maddrCompletes : Obligations.MaddrCompletes := by
  refine fun c s => ⟨fun hc => standsFor_encode (i := .maddr c) (decide_eq_true hc), fun r hr hrow => ?_,
    (runsAccess_maddr c s).raises_untyped⟩
  obtain ⟨t, rfl⟩ := exists_rowOf hr
  have hruns := runsAccess_maddr c s
  exact ⟨fun hmirror => (hruns.of_mirrorInside hmirror).gives_address hrow,
    fun hmirror => (hruns.of_mirrorInside hmirror).raises_outside hrow, hruns.raises_unmirrored hrow⟩

/-- Settles O21: the access of MADDR, with the element's pattern. -/
theorem ldmCompletes : Obligations.LdmCompletes := by
  refine fun c s => ⟨fun hc => standsFor_encode (i := .ldm c) (decide_eq_true hc), fun r hr hrow => ?_,
    (runsAccess_ldm c s).raises_untyped⟩
  obtain ⟨t, rfl⟩ := exists_rowOf hr
  have hruns := runsAccess_ldm c s
  exact ⟨fun hmirror => (hruns.of_mirrorInside hmirror).gives_element hrow,
    fun hmirror => (hruns.of_mirrorInside hmirror).raises_outside hrow, hruns.raises_unmirrored hrow⟩

end Sys2Proof.Proofs

/-!
The Bayer arrangement mapper (`spec/42_arrangement.md` rules R151 to R154): the table row by row, the commands BPOS and BPARSE, and
the refusal of an unknown code.
-/

namespace Sys2Proof.Proofs

open Sys2Proof Sys2Proof.Machine Sys2Proof.Laws Sys2Proof.Claims

/-! ### The rows of the table (rule R151) -/

/-- The phases of R, G1, G2, B as the pairs the statements speak of. -/
def phaseList (p : Positions) : List (Nat × Nat) := [p.r, p.g, p.k, p.b].map fun q => (q.x.val, q.y.val)

theorem phaseList_rasterOrder : phaseList rasterOrder = rasterPhases := rfl

/-- A code 0 to 3 selects an arrangement, with the positions of its row. -/
theorem exists_arrangement {a : Nat} (ha : a < 4) : ∃ arr, arrangementOf a = some arr ∧ phaseList (pos arr) = phasesOf a := by
  match a, ha with
  | 0, _ => exact ⟨.grbg, rfl, rfl⟩
  | 1, _ => exact ⟨.rggb, rfl, rfl⟩
  | 2, _ => exact ⟨.gbrg, rfl, rfl⟩
  | 3, _ => exact ⟨.bggr, rfl, rfl⟩

theorem arrangementOf_eq_none {a : Nat} (ha : 4 ≤ a) : arrangementOf a = none := by
  match a, ha with
  | _ + 4, _ => rfl

/-! ### The two commands (rules R153, R154) -/

section
variable {a : Nat} {s : State}

theorem exec_bpos {arr : Arrangement} (h : arrangementOf a = some arr) :
    exec (.bpos a) s = .next (complete { s with rdata := BitVec.ofNat 64 (packPositions (pos arr)) }) := by
  rw [exec, execBpos, h]

theorem exec_bpos_none (h : arrangementOf a = none) :
    exec (.bpos a) s = .next (raised .unknownArrangement (encode (.bpos a)) s) := by
  rw [exec, execBpos, h, raise]

theorem exec_bparse {r : Nat} (h : parseArrangement s.wdata = some r) :
    exec .bparse s = .next (complete { s with rdata := BitVec.ofNat 64 r }) := by
  rw [exec, execBparse, h]

theorem exec_bparse_none (h : parseArrangement s.wdata = none) :
    exec .bparse s = .next (raised .unknownArrangement (encode .bparse) s) := by
  rw [exec, execBparse, h, raise]

end

/-- Only the four strings are parsed. -/
theorem parseArrangement_eq_none {v : DWord} (h0 : v ≠ 0x67627267#64) (h1 : v ≠ 0x62676772#64) (h2 : v ≠ 0x67726267#64)
    (h3 : v ≠ 0x72676762#64) : parseArrangement v = none := by
  rw [parseArrangement, if_neg h0, if_neg h1, if_neg h2, if_neg h3]

/-! ### How a conversion command runs (rules R152, R160) -/

/-- In the state `s` the command `i` is a conversion with these checks V2 to V6. -/
abbrev RunsConversion (i : Instr) (s : State) (own : Option ErrorKind) (c : Conversion) : Prop :=
  exec i s = convert (encode i) own c s

/-- In the state `s` the command `i` of format A, with code `a`, is a conversion with these checks V2 to V6. -/
abbrev RunsArranged (i : Instr) (a : Nat) (s : State) (own : State → Option ErrorKind) (c : Positions → State → Conversion) :
    Prop :=
  exec i s = withArrangement (encode i) a (fun p s => convert (encode i) (own s) (c p s) s) s

section
variable {i : Instr} {a : Nat} {s : State} {own : State → Option ErrorKind} {c : Positions → State → Conversion}

theorem RunsArranged.raises_unknown (h : RunsArranged i a s own c) (ha : 4 ≤ a) : Raises i s 4 :=
  h.trans (withArrangement_none ha)

theorem RunsArranged.runsConversion (h : RunsArranged i a s own c) {arr : Arrangement} (harr : arrangementOf a = some arr) :
    RunsConversion i s (own s) (c (pos arr) s) :=
  h.trans (withArrangement_some harr _ s)

end

section
variable (a : Nat) (s : State)

theorem runsConversion_c2p : RunsConversion .c2p s (cfaCopyError s) (cfaToPlanes rasterOrder s) := rfl

theorem runsConversion_p2c : RunsConversion .p2c s (planesCopyError s) (planesToCfa rasterOrder s) := rfl

theorem runsArranged_c2ps : RunsArranged (.c2ps a) a s cfaCopyError cfaToPlanes := rfl

theorem runsArranged_p2cs : RunsArranged (.p2cs a) a s planesCopyError planesToCfa := rfl

theorem runsArranged_c2y : RunsArranged (.c2y a) a s cfaCopyError cfaTo422 := rfl

theorem runsArranged_y2c : RunsArranged (.y2c a) a s copy422Error cfaFrom422 := rfl

theorem runsArranged_rctxF : RunsArranged (.rctxF a) a s (fun s => cfaError s (cfaForwardDepths s))
    (fun p s => cfaForward rctxForward s p) := rfl

theorem runsArranged_rctxI : RunsArranged (.rctxI a) a s (fun s => cfaError s (cfaInverseDepths s))
    (fun p s => cfaInverse rctxInverse s p) := rfl

theorem runsArranged_ydgcocgxF : RunsArranged (.ydgcocgxF a) a s (fun s => cfaError s (cfaForwardDepths s))
    (fun p s => cfaForward ydgcocgxForward s p) := rfl

theorem runsArranged_ydgcocgxI : RunsArranged (.ydgcocgxI a) a s (fun s => cfaError s (cfaInverseDepths s))
    (fun p s => cfaInverse ydgcocgxInverse s p) := rfl

end

/-! ### The obligations -/

/-- Settles O23: the four rows, each a closed fact. -/
theorem arrangementTable : Obligations.ArrangementTable := by
  refine ⟨fun a ha => exists_arrangement ha, fun arr => ?_⟩
  cases arr <;> decide

/-- Settles O24: the packed row of each of the four arrangements, and no arrangement for the other codes. -/
theorem bposCompletes : Obligations.BposCompletes := fun _ =>
  ⟨fun a ha => standsFor_encode (i := .bpos a) (decide_eq_true ha), exec_bpos (arr := .grbg) rfl, exec_bpos (arr := .rggb) rfl,
    exec_bpos (arr := .gbrg) rfl, exec_bpos (arr := .bggr) rfl, fun _ ha _ => exec_bpos_none (arrangementOf_eq_none ha)⟩

/-- Settles O25: each of the four strings parses to its code, and nothing else does. -/
theorem bparseCompletes : Obligations.BparseCompletes := fun s =>
  ⟨standsFor_encode (i := .bparse) rfl, fun h => exec_bparse (by rw [h]; rfl), fun h => exec_bparse (by rw [h]; rfl),
    fun h => exec_bparse (by rw [h]; rfl), fun h => exec_bparse (by rw [h]; rfl),
    fun h0 h1 h2 h3 => exec_bparse_none (parseArrangement_eq_none h0 h1 h2 h3)⟩

/-- Settles O26: V1 is the first check of every command of format A. -/
theorem unknownArrangementComesFirst : Obligations.UnknownArrangementComesFirst := by
  refine fun a s ha _ => ⟨arrangementOf_eq_none ha, ?_⟩
  simp only [List.forall_mem_cons]
  exact ⟨exec_bpos_none (arrangementOf_eq_none ha), (runsArranged_c2ps a s).raises_unknown ha,
    (runsArranged_p2cs a s).raises_unknown ha, (runsArranged_c2y a s).raises_unknown ha,
    (runsArranged_y2c a s).raises_unknown ha, (runsArranged_rctxF a s).raises_unknown ha,
    (runsArranged_rctxI a s).raises_unknown ha, (runsArranged_ydgcocgxF a s).raises_unknown ha,
    (runsArranged_ydgcocgxI a s).raises_unknown ha, nofun⟩

end Sys2Proof.Proofs

/-!
What a conversion command that passes its checks leaves, in the words of the statements (`spec/43_conversion_common.md` rules R160 to
R167): the components it makes, classes V7 and V8 of the buffers, and the new image with all that stays unchanged.
-/

namespace Sys2Proof.Proofs

open Sys2Proof Sys2Proof.Machine Sys2Proof.Laws Sys2Proof.Claims

/-! ### Slots and outputs with an element type (rule R74) -/

theorem typed_iff {d : Slot} : typed d = true ↔ ¬untyped d := by
  rw [typed, Option.isSome_iff_ne_none, ne_eq, untyped_iff]

/-- The size of an element type follows from the depth. -/
theorem bytesOf_depth {float signed : Bool} {depth : Nat} {t : SampleType} (h : elementType float signed depth = some t) :
    bytesOf depth = t.bytes := by
  obtain ⟨-, -, hlow, hhigh⟩ := elementType_eq_some_iff.1 h
  cases t <;> grind [rowOf, bytesOf, SampleType.bytes]

theorem elemBytes_of_typed {d : Slot} (h : typed d = true) : d.elemBytes = bytesOf d.depth := by
  obtain ⟨t, ht⟩ := Option.isSome_iff_exists.1 h
  rw [Slot.elemBytes, etypeD_eq ht, bytesOf_depth ht]

/-- An output of the model as the statements describe it. -/
def compOf (o : Output) : Comp := ⟨o.w, o.h, o.depth, o.signed, o.float, o.subX, o.subY, o.plane⟩

/-- An output that a store and a load bring back: its fields fit `FMT`, it has an element type, and its samples fit the element. -/
structure StoredOutput (o : Output) : Prop where
  fields : fieldsFit o
  typed : ∃ t, elementType o.float o.signed o.depth = some t
  unchanged : ∀ x y : Nat, x < o.w → y < o.h →
    wrap (o.plane x y) (elementTypeD o.float o.signed o.depth).isSigned (8 * o.elemBytes) = o.plane x y

/-- A conversion of slots with element types into outputs that are brought back; the new image has the size of one of them. -/
structure StoredConversion (c : Conversion) : Prop where
  inputs : ∀ d ∈ c.inputs, typed d = true
  outputs : ∀ o ∈ c.outputs, StoredOutput o
  count : c.outputs.length ≤ 4
  size : ∃ o ∈ c.outputs, c.imgW = o.w ∧ c.imgH = o.h

/-- The conversion reads the slots `ins` and makes the components `outs` of an image of this size. -/
structure Makes (c : Conversion) (ins : List Slot) (outs : List Comp) (imgW imgH : Nat) : Prop where
  stored : StoredConversion c
  outputs : outs = c.outputs.map compOf
  inputs : c.inputs = ins := by rfl
  width : c.imgW = imgW := by rfl
  height : c.imgH = imgH := by rfl

theorem StoredOutput.elemBytes {o : Output} (h : StoredOutput o) : o.elemBytes = bytesOf o.depth := by
  obtain ⟨t, ht⟩ := h.typed
  rw [Output.elemBytes, elementTypeD_eq ht, bytesOf_depth ht]

/-- A legal output is brought back (rules R10, R79). -/
theorem storedOutput_of_legal {o : Output} (h : LegalOutput o) (hfields : fieldsFit o) : StoredOutput o where
  fields := hfields
  typed := h.integer ▸ elementType_isSome h.depth_pos h.depth_le
  unchanged _ _ := h.wrap_plane

/-- An output whose samples all fit the element is brought back. -/
theorem storedOutput_of_holds {o : Output} {t : SampleType} (hfields : fieldsFit o)
    (ht : elementType o.float o.signed o.depth = some t) (h : ∀ x y, holds t (o.plane x y)) : StoredOutput o where
  fields := hfields
  typed := ⟨t, ht⟩
  unchanged x y _ _ := by
    have hbytes := bytes_pos t
    rw [Output.elemBytes, elementTypeD_eq ht]
    exact wrap_of_legal (by omega) (h x y)

/-! ### Classes V7 and V8 (rules R83, R165) -/

theorem footprint_eq_inputRange {d : Slot} (h : typed d = true) : footprint d = inputRange d := by
  rw [footprint, elemBytes_of_typed h]

theorem outFootprints_eq_map {s : State} {os : List Output} (h : ∀ o ∈ os, StoredOutput o) (i : Nat) :
    outFootprints s i os = ((os.map compOf).zipIdx i).map (outputRange s) := by
  induction os generalizing i with
  | nil => rfl
  | cons o os ih =>
    obtain ⟨ho, hos⟩ := List.forall_mem_cons.1 h
    rw [outFootprints, ih hos, ho.elemBytes]
    rfl

theorem meets_eq_false_iff {f g : Nat × Nat} : meets f g = false ↔ noSharedByte f g := by
  simp [meets]

theorem apart_iff {l : List (Nat × Nat)} : apart l = true ↔ l.Pairwise noSharedByte := by
  induction l with
  | nil => simp [apart]
  | cons f fs ih =>
    rw [apart, Bool.and_eq_true, List.all_eq_true, List.pairwise_cons, ih]
    simp only [Bool.not_eq_true', meets_eq_false_iff]

section
variable {s : State} {c : Conversion}

/-- Class V7 is `BuffersFit`. -/
theorem rangeOk_iff_buffersFit (h : StoredConversion c) :
    rangeOk s c = true ↔ BuffersFit s c.inputs (c.outputs.map compOf) := by
  have hsizes : (∀ o ∈ c.outputs, o.fits = true) ↔ ∀ p ∈ (c.outputs.map compOf).zipIdx,
      p.1.w < 2 ^ 32 ∧ p.1.h < 2 ^ 32 ∧ p.1.w * bytesOf p.1.depth < 2 ^ 32 := by
    rw [← List.forall_mem_map (f := Prod.fst)
      (P := fun k : Comp => k.w < 2 ^ 32 ∧ k.h < 2 ^ 32 ∧ k.w * bytesOf k.depth < 2 ^ 32), List.zipIdx_map_fst,
      List.forall_mem_map]
    exact forall₂_congr fun o ho => by rw [fits_iff, (h.outputs o ho).elemBytes]; rfl
  have hinputs : (∀ d ∈ c.inputs, (footprint d).2 ≤ s.memSize) ↔ ∀ d ∈ c.inputs, (inputRange d).2 ≤ s.memSize :=
    forall₂_congr fun d hd => by rw [footprint_eq_inputRange (h.inputs d hd)]
  rw [rangeOk_iff, outFootprints_eq_map h.outputs, List.forall_mem_map, hsizes, hinputs]
  simp only [BuffersFit, ← and_assoc, ← forall_and]

/-- Class V8 is `BuffersApart`. -/
theorem overlapFree_iff_buffersApart (h : StoredConversion c) :
    overlapFree s c = true ↔ BuffersApart s c.inputs (c.outputs.map compOf) := by
  rw [overlapFree, outFootprints_eq_map h.outputs, Bool.and_eq_true, apart_iff, List.pairwise_map]
  refine and_congr_left' ?_
  simp only [List.all_eq_true, List.forall_mem_map, Bool.not_eq_true', meets_eq_false_iff]
  exact forall₄_congr fun p _ d hd => by rw [footprint_eq_inputRange (h.inputs d hd)]

/-! ### The new image (rules R164, R166) -/

theorem newSlot_describes {n : Nat} {o : Output} (h : StoredOutput o) (hfits : o.fits = true) :
    describes s (newSlot (s.outBase.get n) o) n (compOf o) := by
  obtain ⟨-, -, hrow⟩ := fits_iff.1 hfits
  have hbytes : o.elemBytes < 2 ^ 32 := (bytes_le _).trans_lt (by decide)
  refine ⟨rfl, ?bpp, ?bpr, newSlot_width _ hfits, newSlot_height _ hfits, newSlot_depth _ h.fields, newSlot_signed _ h.fields,
    newSlot_isFloat _ h.fields, newSlot_own _, newSlot_subX _ h.fields, newSlot_subY _ h.fields, newSlot_reserved _ h.fields⟩
  case bpp => exact (Nat.mod_eq_of_lt hbytes).trans h.elemBytes
  case bpr => exact (Nat.mod_eq_of_lt hrow).trans (congrArg (o.w * ·) h.elemBytes)

theorem commit_slot_unused {n : Nat} (hn : n < 4) (hlen : c.outputs.length ≤ n) : (commit s c).slot n = Slot.zero := by
  have hslots : (commit s c).slot n = (committedSlots ((layOut s 0 c.outputs).map Prod.fst)).get n := rfl
  rw [hslots, committedSlots_get _ hn, List.getD_eq_getElem?_getD, layOut_slot, List.getElem?_eq_none hlen, Option.map_none,
    Option.getD_none]

/-- Every sample of output `n` is read back from slot `n` of the new image. -/
theorem inSample_commit_stored (h : StoredConversion c) (hrange : rangeOk s c = true) (hoverlap : overlapFree s c = true)
    {n : Nat} {o : Output} (hn : n < 4) (ho : c.outputs[n]? = some o) {x y : Nat} (hx : x < o.w) (hy : y < o.h) :
    inSample (commit s c) n x y = o.plane x y := by
  rw [inSample_commit (fun q hq => (h.outputs q hq).fields) hrange hoverlap hn ho hx hy]
  exact (h.outputs o (List.mem_of_getElem? ho)).unchanged x y hx hy

/-- The commit writes no byte outside the output buffers. -/
theorem memGet_commit_outside (h : StoredConversion c) (hrange : rangeOk s c = true) {a : Nat}
    (ha : ∀ p ∈ (c.outputs.map compOf).zipIdx, ¬((outputRange s p).1 ≤ a ∧ a < (outputRange s p).2)) :
    memGet (commit s c).mem a = memGet s.mem a := by
  obtain ⟨-, hfits, -⟩ := rangeOk_iff.1 hrange
  refine memGet_storeAll_outside (fun o ho => ⟨hfits o ho, (h.outputs o ho).fields⟩) _ _ _ ?_
  rw [outFootprints_eq_map h.outputs, List.forall_mem_map]
  intro p hp
  have := ha p hp
  omega

section
variable {i : Instr} {ins : List Slot} {outs : List Comp} {imgW imgH : Nat}

/-- A conversion that passes all its checks leaves the new image, and all else as it was. -/
theorem RunsConversion.convertsTo (hexec : RunsConversion i s none c) (hmakes : Makes c ins outs imgW imgH)
    (hfit : BuffersFit s ins outs) (hapart : BuffersApart s ins outs) : ConvertsTo i s outs imgW imgH := by
  obtain ⟨h, rfl, rfl, rfl, rfl⟩ := hmakes
  have hrange := (rangeOk_iff_buffersFit h).2 hfit
  have hoverlap := (overlapFree_iff_buffersApart h).2 hapart
  obtain ⟨-, hfits, -⟩ := rangeOk_iff.1 hrange
  have hcount := h.count
  obtain ⟨k, hk, hw, hh⟩ := h.size
  obtain ⟨hwlt, hhlt, -⟩ := fits_iff.1 (hfits k hk)
  refine ⟨complete (commit s c), hexec.trans (convert_complete hrange hoverlap), ?image, ?unused, ?depth, ?width, ?height,
    rfl, fun a ha => memGet_commit_outside h hrange ha, rfl⟩
  case image =>
    intro n k hn
    obtain ⟨o, ho, rfl⟩ := Option.map_eq_some_iff.1 (List.getElem?_map .. ▸ hn)
    have hmem := List.mem_of_getElem? ho
    have hlt : n < c.outputs.length := (List.getElem?_eq_some_iff.1 ho).1
    have hn4 : n < 4 := by omega
    have hslot : (complete (commit s c)).slot n = newSlot (s.outBase.get n) o := commit_slot hn4 ho
    exact ⟨hslot ▸ newSlot_describes (h.outputs o hmem) (hfits o hmem),
      fun x y hx hy => inSample_commit_stored h hrange hoverlap hn4 ho hx hy⟩
  case unused =>
    intro n hlen hn
    exact commit_slot_unused hn (by simpa using hlen)
  case depth => exact (Nat.mod_eq_of_lt (by omega)).trans (List.length_map _).symm
  case width => exact Nat.mod_eq_of_lt (by omega)
  case height => exact Nat.mod_eq_of_lt (by omega)

/-! ### The checks in their order (rules R161, R285) -/

/-- A check that fails when `p` is false, with what follows put first. -/
theorem check_eq {α : Type} (p : Bool) (error rest : α) : (if !p then error else rest) = if p then rest else error := by
  cases p <;> rfl

/-- Two checks in a row with one error are one check. -/
theorem two_checks_eq {α : Type} (p q : Bool) (error rest : α) :
    (if !p then error else if !q then error else rest) = if p && q then rest else error := by
  cases p <;> cases q <;> rfl

/-- One check at the head of the command's own: its error if it fails, otherwise what follows. -/
theorem RunsConversion.check {p check : Prop} [Decidable p] {e : ErrorKind} {code : Nat} {own : Option ErrorKind}
    {checks : List (Prop × Nat)} (hexec : RunsConversion i s (if p then own else some e) c) (hcheck : check ↔ p)
    (hcode : BitVec.ofNat 32 code = e.code) (hrest : check → RunsConversion i s own c → FirstFailureRaises i s checks) :
    FirstFailureRaises i s ((check, code) :: checks) := by
  refine ⟨fun hfails => ?_, fun hpasses => ?_⟩
  · rw [Raises, hcode, hexec, if_neg (mt hcheck.2 hfails)]
    rfl
  · rw [RunsConversion, if_pos (hcheck.1 hpasses)] at hexec
    exact hrest hpasses hexec

/-- V7 and V8, once the command's own checks have passed. -/
theorem RunsConversion.bufferChecks (hexec : RunsConversion i s none c) (hmakes : Makes c ins outs imgW imgH) :
    FirstFailureRaises i s (bufferChecks s ins outs) := by
  obtain ⟨h, rfl, rfl, -, -⟩ := hmakes
  rw [Claims.bufferChecks, ← rangeOk_iff_buffersFit h, ← overlapFree_iff_buffersApart h]
  exact ⟨fun hfails => hexec.trans (convert_range (Bool.eq_false_iff.2 hfails)), fun hrange =>
    ⟨fun hfails => hexec.trans (convert_overlap hrange (Bool.eq_false_iff.2 hfails)), fun _ => trivial⟩⟩

end

end

/-! ### The commands of format A (rule R152) -/

section
variable {i : Instr} {a : Nat} {s : State} {own : State → Option ErrorKind} {c : Positions → State → Conversion}

theorem RunsArranged.convertsTo (hexec : RunsArranged i a s own c) (ha : a < 4) (hown : own s = none) {ins : List Slot}
    {outs : List Comp} {imgW imgH : Nat} (hmakes : ∀ p, phaseList p = phasesOf a → Makes (c p s) ins outs imgW imgH)
    (hfit : BuffersFit s ins outs) (hapart : BuffersApart s ins outs) : ConvertsTo i s outs imgW imgH := by
  obtain ⟨arr, harr, hphases⟩ := exists_arrangement ha
  have hrun := hexec.runsConversion harr
  rw [hown] at hrun
  exact hrun.convertsTo (hmakes _ hphases) hfit hapart

/-- V1 comes before the other checks. -/
theorem RunsArranged.arrangementCheck (hexec : RunsArranged i a s own c) {checks : List (Prop × Nat)}
    (hrest : ∀ p, phaseList p = phasesOf a → RunsConversion i s (own s) (c p s) → FirstFailureRaises i s checks) :
    FirstFailureRaises i s (arrangementCheck a :: checks) := by
  refine ⟨fun hfails => hexec.raises_unknown (not_lt.1 hfails), fun ha => ?_⟩
  obtain ⟨arr, harr, hphases⟩ := exists_arrangement ha
  exact hrest (pos arr) hphases (hexec.runsConversion harr)

end

end Sys2Proof.Proofs

/-!
The layout converter (`spec/46_layout.md` rules R251 to R259): the outputs of its commands in the words of the statements, what the
checks V2 to V5 ask, and the whole effect of the commands of format A.
-/

namespace Sys2Proof.Proofs

open Sys2Proof Sys2Proof.Machine Sys2Proof.Laws Sys2Proof.Claims

/-! ### Copies (rule R251) -/

theorem copiedSample_eq_copiedValue (d : Slot) (v : Int) : copiedSample d v = copiedValue d v := by
  simp only [copiedSample, copiedValue, ite_or]

theorem compOf_copyOutput (s : State) (w h subX : Nat) (P : Plane) :
    compOf (copyOutput (s.slot 0) w h subX 1 P) = copied s w h subX P := by
  simp only [compOf, copyOutput, copied, copiedSample_eq_copiedValue]

/-- A copy of what an element holds fits the element again. -/
theorem holds_copiedSample {d : Slot} {t : SampleType} (ht : etype d = some t) {v : Int} (hv : holds t v) :
    holds t (copiedSample d v) := by
  cases hfloat : d.isFloat with
  | true => rwa [copiedSample_float hfloat]
  | false =>
    rcases copiedSample_cases (elementType_depth ht).1 v with hsame | hlegal
    · rwa [hsame]
    · exact holds_of_legal (by rwa [etype, hfloat] at ht) hlegal

theorem etype_congr {d e : Slot} (h : e.depth = d.depth ∧ e.signed = d.signed ∧ e.isFloat = d.isFloat) : etype e = etype d := by
  obtain ⟨hdepth, hsigned, hfloat⟩ := h
  rw [etype, hdepth, hsigned, hfloat, etype]

/-- Every sample of the plane is one that an element of type `t` holds. -/
def HeldPlane (t : SampleType) (P : Plane) : Prop := ∀ x y, holds t (P x y)

theorem heldPlane_load {d : Slot} {t : SampleType} (ht : etype d = some t) (m : Memory) : HeldPlane t (load m d) := by
  intro x y
  rw [load, etypeD_eq ht]
  exact loadAt_holds m t _

theorem heldPlane_scatter {t : SampleType} {r g k b : Plane} (h : ∀ P ∈ [r, g, k, b], HeldPlane t P) (p : Positions) :
    HeldPlane t (scatter p r g k b) := by
  intro x y
  obtain ⟨P, hP, heq⟩ := scatter_cases p r g k b x y
  rw [heq]
  exact h P hP _ _

theorem storedOutput_copy {d : Slot} {t : SampleType} (ht : etype d = some t) (w h : Nat) {subX : Nat}
    (hx : subX = 1 ∨ subX = 2) {P : Plane} (hP : HeldPlane t P) : StoredOutput (copyOutput d w h subX 1 P) :=
  storedOutput_of_holds (fieldsFit_copyOutput d w h P hx) ht fun x y => holds_copiedSample ht (hP x y)

/-! ### Phases (rules R17, R151) -/

theorem coordPhase_eq (x y : Int) : coordPhase x y = ((phaseOf x y).x.val, (phaseOf x y).y.val) := by
  have hx := Int.emod_two_eq x
  have hy := Int.emod_two_eq y
  rcases hx with hx | hx <;> rcases hy with hy | hy <;> simp [coordPhase, phaseOf, hx, hy]

theorem coordPhase_eq_iff {x y : Int} {q : Phase} : coordPhase x y = (q.x.val, q.y.val) ↔ phaseOf x y = q := by
  rw [coordPhase_eq]
  generalize phaseOf x y = u
  cases u
  cases q
  simp only [Prod.mk.injEq, Phase.mk.injEq, Fin.ext_iff]

/-- The plane with a sample of `r`, `g`, `k` or `b` at each position, by the place of the position in the row of the table. -/
theorem scatter_eq_idxOf (p : Positions) (r g k b : Plane) (x y : Int) : scatter p r g k b x y =
    (let n := (phaseList p).idxOf (coordPhase x y)
     if n = 0 then r (x / 2) (y / 2) else if n = 1 then g (x / 2) (y / 2)
     else if n = 2 then k (x / 2) (y / 2) else b (x / 2) (y / 2)) := by
  have hplace (q : Phase) : ((q.x.val, q.y.val) == coordPhase x y) = decide (phaseOf x y = q) := by
    rw [beq_eq_decide, decide_eq_decide, eq_comm, coordPhase_eq_iff]
  simp only [scatter, phaseList, List.map_cons, List.map_nil, List.idxOf_cons, List.idxOf_nil, hplace, Bool.cond_decide]
  by_cases hr : phaseOf x y = p.r
  · simp [if_pos hr]
  by_cases hg : phaseOf x y = p.g
  · simp [if_neg hr, if_pos hg]
  by_cases hk : phaseOf x y = p.k
  · simp [if_neg hr, if_neg hg, if_pos hk]
  · simp [if_neg hr, if_neg hg, if_neg hk]

/-! ### The outputs in the words of the statements -/

section
variable (s : State) (p : Positions)

theorem planesOf_eq : planesOf (phaseList p) s = (cfaToPlanes p s).outputs.map compOf := by
  simp only [cfaToPlanes, List.map_cons, List.map_nil, compOf_copyOutput]
  rfl

theorem cfaOf_eq : cfaOf (phaseList p) s = (planesToCfa p s).outputs.map compOf := by
  have hplane (n : Nat) (x y : Int) : inSample s n x y = if n = 0 then inSample s 0 x y else if n = 1 then inSample s 1 x y
      else if n = 2 then inSample s 2 x y else inSample s 3 x y := by
    match n with
    | 0 | 1 | 2 | _ + 3 => rfl
  simp only [planesToCfa, List.map_cons, List.map_nil, compOf_copyOutput, cfaOf]
  congr 2
  funext x y
  rw [hplane, scatter_eq_idxOf]

variable {a : Nat} {p} (hp : phaseList p = phasesOf a)
include hp

theorem image422_eq : image422 a s = (cfaTo422 p s).outputs.map compOf := by
  simp only [cfaTo422, List.map_cons, List.map_nil, compOf_copyOutput, image422, ← hp]
  rfl

theorem cfaOf422_eq : cfaOf422 a s = (cfaFrom422 p s).outputs.map compOf := by
  simp only [cfaFrom422, List.map_cons, List.map_nil, compOf_copyOutput, cfaOf422, ← hp]
  congr 2
  funext x y
  rw [scatter_eq_idxOf]

end

/-! ### The outputs are brought back -/

section
variable {s : State}

theorem cfaToPlanes_stored (htyped : typed (s.slot 0) = true) (p : Positions) : StoredConversion (cfaToPlanes p s) where
  inputs := List.forall_mem_singleton.2 htyped
  count := le_refl 4
  size := ⟨_, List.mem_cons_self, rfl, rfl⟩
  outputs := by
    obtain ⟨t, ht⟩ := Option.isSome_iff_exists.1 htyped
    have hplane (q : Phase) := storedOutput_copy ht ((s.slot 0).width / 2) ((s.slot 0).height / 2) (.inl rfl)
      (P := cellAt (load s.mem (s.slot 0)) q) fun _ _ => heldPlane_load ht s.mem _ _
    simp only [cfaToPlanes, List.forall_mem_cons]
    exact ⟨hplane p.r, hplane p.g, hplane p.k, hplane p.b, nofun⟩

theorem cfaTo422_stored (htyped : typed (s.slot 0) = true) (p : Positions) : StoredConversion (cfaTo422 p s) where
  inputs := List.forall_mem_singleton.2 htyped
  count := (by decide : 3 ≤ 4)
  size := ⟨_, List.mem_cons_self, rfl, rfl⟩
  outputs := by
    obtain ⟨t, ht⟩ := Option.isSome_iff_exists.1 htyped
    have hcell (q : Phase) : HeldPlane t (cellAt (load s.mem (s.slot 0)) q) := fun _ _ => heldPlane_load ht s.mem _ _
    have hluma : HeldPlane t (fun x j => if x % 2 = 0 then cellAt (load s.mem (s.slot 0)) p.g (x / 2) j
        else cellAt (load s.mem (s.slot 0)) p.k (x / 2) j) := by
      intro x j
      dsimp only
      split
      · exact hcell p.g _ _
      · exact hcell p.k _ _
    simp only [cfaTo422, List.forall_mem_cons]
    exact ⟨storedOutput_copy ht _ _ (.inl rfl) hluma, storedOutput_copy ht _ _ (.inr rfl) (hcell p.r),
      storedOutput_copy ht _ _ (.inr rfl) (hcell p.b), nofun⟩

/-- Slots of one format have one element type. -/
theorem etype_of_equalFormats {m c : Nat} {t : SampleType} (hformats : EqualFormats s m) (ht : etype (s.slot 0) = some t)
    (hc : c < m) : etype (s.slot c) = some t := (etype_congr (hformats c hc)).trans ht

theorem typed_of_equalFormats {m : Nat} (hformats : EqualFormats s m) (htyped : typed (s.slot 0) = true) :
    ∀ d ∈ firstSlots s m, typed d = true := by
  intro d hd
  obtain ⟨c, hc, rfl⟩ := List.mem_map.1 hd
  rwa [typed, etype_congr (hformats c (List.mem_range.1 hc))]

theorem planesToCfa_stored (hformats : EqualFormats s 4) (htyped : typed (s.slot 0) = true) (p : Positions) :
    StoredConversion (planesToCfa p s) where
  inputs := typed_of_equalFormats hformats htyped
  count := (by decide : 1 ≤ 4)
  size := ⟨_, List.mem_cons_self, rfl, rfl⟩
  outputs := by
    obtain ⟨t, ht⟩ := Option.isSome_iff_exists.1 htyped
    have hplanes : ∀ c < 4, HeldPlane t (load s.mem (s.slot c)) := fun c hc =>
      heldPlane_load (etype_of_equalFormats hformats ht hc) s.mem
    exact List.forall_mem_singleton.2 (storedOutput_copy ht _ _ (.inl rfl)
      (heldPlane_scatter (by simpa using forall_lt_four.1 hplanes) p))

theorem cfaFrom422_stored (hformats : EqualFormats s 3) (htyped : typed (s.slot 0) = true) (p : Positions) :
    StoredConversion (cfaFrom422 p s) where
  inputs := typed_of_equalFormats hformats htyped
  count := (by decide : 1 ≤ 4)
  size := ⟨_, List.mem_cons_self, rfl, rfl⟩
  outputs := by
    obtain ⟨t, ht⟩ := Option.isSome_iff_exists.1 htyped
    have hplanes : ∀ c < 3, HeldPlane t (load s.mem (s.slot c)) := fun c hc =>
      heldPlane_load (etype_of_equalFormats hformats ht hc) s.mem
    obtain ⟨hluma, hred, hblue⟩ := forall_lt_three.1 hplanes
    refine List.forall_mem_singleton.2 (storedOutput_copy ht _ _ (.inl rfl) (heldPlane_scatter ?_ p))
    simp only [List.forall_mem_cons]
    exact ⟨hred, fun _ _ => hluma _ _, fun _ _ => hluma _ _, hblue, nofun⟩

end

/-! ### The checks V2 to V5 -/

section
variable {s : State}

theorem evenSizes_iff {d : Slot} :
    evenSizes d = true ↔ d.width ≠ 0 ∧ d.height ≠ 0 ∧ d.width % 2 = 0 ∧ d.height % 2 = 0 := by
  simp [evenSizes, and_assoc]

theorem cfaSizes_iff : CfaSizes s ↔ (countIs s 1 && evenSizes (s.slot 0)) = true := by
  rw [Bool.and_eq_true, countIs_iff, evenSizes_iff]

theorem equalSizes_iff : EqualSizes s 4 ↔ (countIs s 4 && sameSizes (fourSlots s)) = true := by
  rw [Bool.and_eq_true, countIs_iff, fourSlots, sameSizes_cons, EqualSizes, forall_lt_four]
  simp

theorem planeFormats_iff : (EqualFormats s 4 ∧ ∀ c < 4, (s.slot c).subX = 1 ∧ (s.slot c).subY = 1) ↔
    (sameFormats (fourSlots s) && (fourSlots s).all (fun d => subIs d 1 1)) = true := by
  rw [Bool.and_eq_true, fourSlots, sameFormats_cons, EqualFormats, forall_lt_four, forall_lt_four]
  simp [subIs]

theorem sizes422_iff : Sizes422 s ↔ (countIs s 3 && sizes422 (s.slot 0) (s.slot 1) (s.slot 2)) = true := by
  rw [Bool.and_eq_true, countIs_iff, Sizes422, forall_lt_three]
  simp [sizes422]
  tauto

theorem formats422_iff : (EqualFormats s 3 ∧ Subsampling422 s) ↔
    (sameFormats [s.slot 0, s.slot 1, s.slot 2] && subs422 (s.slot 0) (s.slot 1) (s.slot 2)) = true := by
  rw [Bool.and_eq_true, sameFormats_cons, EqualFormats, forall_lt_three, Subsampling422, forall_lt_three]
  simp [subs422, subIs, and_assoc]

theorem cfaCopyError_eq : cfaCopyError s =
    if countIs s 1 && evenSizes (s.slot 0) then if typed (s.slot 0) then none else some .unsupportedSampleType
    else some .invalidDimensions := by
  rw [cfaCopyError, two_checks_eq, check_eq]

theorem planesCopyError_eq : planesCopyError s =
    if countIs s 4 && sameSizes (fourSlots s) then
      if sameFormats (fourSlots s) && (fourSlots s).all (fun d => subIs d 1 1) then
        if typed (s.slot 0) then none else some .unsupportedSampleType
      else some .inconsistentComponents
    else some .invalidDimensions := by
  rw [planesCopyError, two_checks_eq, check_eq, check_eq]

theorem copy422Error_eq : copy422Error s =
    if countIs s 3 && sizes422 (s.slot 0) (s.slot 1) (s.slot 2) then
      if sameFormats [s.slot 0, s.slot 1, s.slot 2] && subs422 (s.slot 0) (s.slot 1) (s.slot 2) then
        if typed (s.slot 0) then none else some .unsupportedSampleType
      else some .inconsistentComponents
    else some .invalidDimensions := by
  simp only [copy422Error]
  rw [two_checks_eq, check_eq, check_eq]

/-- V5 of one slot. -/
theorem allTyped_one : AllTyped s 1 ↔ typed (s.slot 0) = true := by
  rw [typed_iff, AllTyped]
  simp only [Nat.lt_one_iff, forall_eq]

/-- V5 of slots of one format. -/
theorem allTyped_of_equalFormats {m : Nat} (hm : 0 < m) (hformats : EqualFormats s m) :
    AllTyped s m ↔ typed (s.slot 0) = true :=
  ⟨fun h => typed_iff.2 (h 0 hm), fun htyped _ hc =>
    typed_iff.1 (typed_of_equalFormats hformats htyped _ (List.mem_map_of_mem (List.mem_range.2 hc)))⟩

section
variable {i : Instr} {c : Conversion} {outs : List Comp} {imgW imgH : Nat}

/-- The checks of C2P, C2PS and C2Y, in their order. -/
theorem RunsConversion.cfaChecks (hexec : RunsConversion i s (cfaCopyError s) c)
    (hmakes : typed (s.slot 0) = true → Makes c [s.slot 0] outs imgW imgH) : FirstFailureRaises i s (cfaChecks s outs) := by
  rw [cfaCopyError_eq] at hexec
  exact hexec.check cfaSizes_iff rfl fun _ hexec => hexec.check allTyped_one rfl fun htyped hexec =>
    hexec.bufferChecks (hmakes (allTyped_one.1 htyped))

/-- The checks of P2C and P2CS, in their order. -/
theorem RunsConversion.planeChecks (hexec : RunsConversion i s (planesCopyError s) c)
    (hmakes : EqualFormats s 4 → typed (s.slot 0) = true → Makes c (firstSlots s 4) outs imgW imgH) :
    FirstFailureRaises i s (planeChecks s outs) := by
  rw [planesCopyError_eq] at hexec
  refine hexec.check equalSizes_iff rfl fun _ hexec => hexec.check planeFormats_iff rfl fun hformats hexec => ?_
  have htyped := allTyped_of_equalFormats (by decide) hformats.1
  exact hexec.check htyped rfl fun hall hexec => hexec.bufferChecks (hmakes hformats.1 (htyped.1 hall))

/-- The checks of Y2C, in their order. -/
theorem RunsConversion.copy422Checks (hexec : RunsConversion i s (copy422Error s) c)
    (hmakes : EqualFormats s 3 → typed (s.slot 0) = true → Makes c (firstSlots s 3) outs imgW imgH) :
    FirstFailureRaises i s (copy422Checks s outs) := by
  rw [copy422Error_eq] at hexec
  refine hexec.check sizes422_iff rfl fun _ hexec => hexec.check formats422_iff rfl fun hformats hexec => ?_
  have htyped := allTyped_of_equalFormats (by decide) hformats.1
  exact hexec.check htyped rfl fun hall hexec => hexec.bufferChecks (hmakes hformats.1 (htyped.1 hall))

end

end

/-! ### What the commands make -/

section
variable {s : State} {p : Positions}

theorem cfaToPlanes_makes (htyped : typed (s.slot 0) = true) {phases : List (Nat × Nat)} (hp : phaseList p = phases) :
    Makes (cfaToPlanes p s) [s.slot 0] (planesOf phases s) ((s.slot 0).width / 2) ((s.slot 0).height / 2) where
  stored := cfaToPlanes_stored htyped p
  outputs := hp ▸ planesOf_eq s p

theorem planesToCfa_makes (hformats : EqualFormats s 4) (htyped : typed (s.slot 0) = true) {phases : List (Nat × Nat)}
    (hp : phaseList p = phases) :
    Makes (planesToCfa p s) (firstSlots s 4) (cfaOf phases s) (2 * (s.slot 0).width) (2 * (s.slot 0).height) where
  stored := planesToCfa_stored hformats htyped p
  outputs := hp ▸ cfaOf_eq s p

theorem cfaTo422_makes (htyped : typed (s.slot 0) = true) {a : Nat} (hp : phaseList p = phasesOf a) :
    Makes (cfaTo422 p s) [s.slot 0] (image422 a s) (s.slot 0).width ((s.slot 0).height / 2) where
  stored := cfaTo422_stored htyped p
  outputs := image422_eq s hp

theorem cfaFrom422_makes (hformats : EqualFormats s 3) (htyped : typed (s.slot 0) = true) {a : Nat}
    (hp : phaseList p = phasesOf a) :
    Makes (cfaFrom422 p s) (firstSlots s 3) (cfaOf422 a s) (s.slot 0).width (2 * (s.slot 0).height) where
  stored := cfaFrom422_stored hformats htyped p
  outputs := cfaOf422_eq s hp

end

/-! ### The obligations -/

/-- Settles O28: the outputs are the four phases of the cells, in the order of the table's row. -/
theorem c2psConverts : Obligations.C2psConverts := by
  intro a s ha hsizes hrow
  have htyped := typed_iff.2 hrow
  exact (runsArranged_c2ps a s).convertsTo ha (cfaCopyError_eq_none.2 ⟨hsizes, htyped⟩) fun _ => cfaToPlanes_makes htyped

/-- Settles O30: the output is the plane with the four inputs at the phases of the table's row. -/
theorem p2csConverts : Obligations.P2csConverts := by
  intro a s ha hsizes hformats hsubs hrow
  have htyped := typed_iff.2 hrow
  have hown : planesCopyError s = none := by
    rw [planesCopyError_eq, if_pos (equalSizes_iff.1 hsizes), if_pos (planeFormats_iff.1 ⟨hformats, hsubs⟩), if_pos htyped]
  exact (runsArranged_p2cs a s).convertsTo ha hown fun _ => planesToCfa_makes hformats htyped

/-- Settles O31: the greens side by side in C0, red and blue at half width. -/
theorem c2yConverts : Obligations.C2yConverts := by
  intro a s ha hsizes hrow
  have htyped := typed_iff.2 hrow
  exact (runsArranged_c2y a s).convertsTo ha (cfaCopyError_eq_none.2 ⟨hsizes, htyped⟩) fun _ => cfaTo422_makes htyped

/-- Settles O32: the plane with the two greens of C0, red and blue at the phases of the table's row. -/
theorem y2cConverts : Obligations.Y2cConverts := by
  intro a s ha ⟨hcount, hw, hh, heven, hchroma, hsubX, hsubY⟩ hformats hrow
  have htyped := typed_iff.2 hrow
  have hsizes : Sizes422 s := by
    refine ⟨hcount, hw, hh, heven, fun c hc hne => ?_⟩
    obtain ⟨hwidth, hheight, -⟩ := hchroma c hc hne
    exact ⟨hwidth, hheight⟩
  have hsubs : Subsampling422 s := by
    refine ⟨hsubX, hsubY, fun c hc hne => ?_⟩
    obtain ⟨-, -, hsub⟩ := hchroma c hc hne
    exact hsub
  have hown : copy422Error s = none := by
    rw [copy422Error_eq, if_pos (sizes422_iff.1 hsizes), if_pos (formats422_iff.1 ⟨hformats, hsubs⟩), if_pos htyped]
  exact (runsArranged_y2c a s).convertsTo ha hown fun _ => cfaFrom422_makes hformats htyped

/-- Settles O49: V1 where the command has a code, then the checks of its family. -/
theorem layoutChecksInOrder : Obligations.LayoutChecksInOrder := by
  intro a s _
  refine ⟨?c2p, ?c2ps, ?p2c, ?p2cs, ?c2y, ?y2c⟩
  case c2p => exact (runsConversion_c2p s).cfaChecks fun htyped => cfaToPlanes_makes htyped phaseList_rasterOrder
  case p2c =>
    exact (runsConversion_p2c s).planeChecks fun hformats htyped => planesToCfa_makes hformats htyped phaseList_rasterOrder
  case c2ps =>
    exact (runsArranged_c2ps a s).arrangementCheck fun _ hp hexec =>
      hexec.cfaChecks fun htyped => cfaToPlanes_makes htyped hp
  case p2cs =>
    exact (runsArranged_p2cs a s).arrangementCheck fun _ hp hexec =>
      hexec.planeChecks fun hformats htyped => planesToCfa_makes hformats htyped hp
  case c2y =>
    exact (runsArranged_c2y a s).arrangementCheck fun _ hp hexec => hexec.cfaChecks fun htyped => cfaTo422_makes htyped hp
  case y2c =>
    exact (runsArranged_y2c a s).arrangementCheck fun _ hp hexec =>
      hexec.copy422Checks fun hformats htyped => cfaFrom422_makes hformats htyped hp

end Sys2Proof.Proofs

/-!
The CFA-grid lifting transforms (`spec/45_lifting_cfa.md` rules R220 to R233): the passes and the cells in the words of the statements,
the whole effect of the four commands, and their checks.
-/

namespace Sys2Proof.Proofs

open Sys2Proof Sys2Proof.Machine Sys2Proof.Laws Sys2Proof.Claims

/-! ### Neighbours (rule R223) -/

section
variable (s : State)

theorem diag_eq_diagSum : diag (s.slot 0).width (s.slot 0).height = diagSum s := rfl

variable {a : Nat} {p : Positions} (hp : phaseList p = phasesOf a)
include hp

theorem pair_eq_pairSum : pair (s.slot 0).width (s.slot 0).height (vert p) = pairSum s a := by
  funext P x y
  have hvert : vert p = true ↔ ((phasesOf a).getD 1 (0, 0)).1 = ((phasesOf a).getD 3 (0, 0)).1 := by
    rw [vert, beq_iff_eq, Fin.ext_iff, ← hp]
    rfl
  simp only [pair, pairSum, hvert]
  rfl

end

/-! ### Phases and cells (rules R17, R18, R226) -/

section
variable {a n : Nat} {q : Phase} (hq : (phasesOf a).getD n (0, 0) = (q.x.val, q.y.val))
include hq

theorem lift_eq_pass (m : Nat) (P : Plane) (nb : Plane → Plane) (sg bias : Int) (sh : Nat) :
    lift m P q nb sg bias sh = pass a m n nb sg bias sh P := by
  funext x y
  simp only [lift, Claims.pass, hq, coordPhase_eq_iff]

theorem cellAt_eq_atPhase (P : Plane) : cellAt P q = atPhase a n P := by
  funext i j
  simp only [cellAt, atPhase, hq]

end

/-- The phases of the table's row by name. -/
theorem getD_phasesOf {a : Nat} {p : Positions} (hp : phaseList p = phasesOf a) :
    (phasesOf a).getD 0 (0, 0) = (p.r.x.val, p.r.y.val) ∧ (phasesOf a).getD 1 (0, 0) = (p.g.x.val, p.g.y.val)
      ∧ (phasesOf a).getD 2 (0, 0) = (p.k.x.val, p.k.y.val) ∧ (phasesOf a).getD 3 (0, 0) = (p.b.x.val, p.b.y.val) := by
  rw [← hp]
  exact ⟨rfl, rfl, rfl, rfl⟩

theorem scatter_eq_atPhases {a : Nat} {p : Positions} (hp : phaseList p = phasesOf a) (r g k b : Plane) :
    scatter p r g k b = atPhases a r g k b := by
  funext x y
  rw [scatter_eq_idxOf, hp]
  rfl

theorem packCells_eq_inCells (v00 v10 v01 v11 : Plane) : packCells v00 v10 v01 v11 = inCells v00 v10 v01 v11 := by
  funext x y
  have hx := Int.emod_two_eq x
  have hy := Int.emod_two_eq y
  rcases hx with hx | hx <;> rcases hy with hy | hy <;> simp [packCells, inCells, coordPhase, hx, hy]

/-! ### What the commands work with (rules R220, R221) -/

section
variable (s : State)

section
variable (p : Positions) (n : Nat)

theorem gridOf_m : (gridOf s p n).m = n + 1 := rfl

theorem gridOf_cs : (gridOf s p n).cs = s.cs := rfl

theorem gridOf_off : (gridOf s p n).off = offOf s n := rfl

theorem gridOf_p : (gridOf s p n).p = p := rfl

end

theorem decoded_eq_fun (m : Nat) (off px py : Int) :
    decoded s m off px py = fun i j => ww m (inSample s 0 (2 * i + px) (2 * j + py) - off) := rfl

end

/-! ### The transforms in the words of the statements -/

section
variable {s : State} {a : Nat} {p : Positions} (hp : phaseList p = phasesOf a)
include hp

/-- Passes (1) and (2) of both forward transforms. -/
theorem rctxPasses_eq (n : Nat) : rctxPasses (gridOf s p n) (workingPlane (n + 1) (load s.mem (s.slot 0))) =
    greenPasses s a (n + 1) := by
  obtain ⟨-, hg, hk, -⟩ := getD_phasesOf hp
  simp only [rctxPasses, gridOf, lift_eq_pass hg, lift_eq_pass hk, diag_eq_diagSum]
  rfl

theorem ydgcocgxPasses_eq (n : Nat) : ydgcocgxPasses (gridOf s p n) (workingPlane (n + 1) (load s.mem (s.slot 0))) =
    pass a (n + 1) 3 (pairSum s a) 1 2 2 (pass a (n + 1) 1 (pairSum s a) (-1) 1 1
      (pass a (n + 1) 3 (diagSum s) 1 4 3 (pass a (n + 1) 0 (diagSum s) (-1) 2 2 (greenPasses s a (n + 1))))) := by
  obtain ⟨hr, hg, hk, hb⟩ := getD_phasesOf hp
  simp only [ydgcocgxPasses, gridOf, lift_eq_pass hr, lift_eq_pass hg, lift_eq_pass hk, lift_eq_pass hb, diag_eq_diagSum,
    pair_eq_pairSum s hp]
  rfl

theorem rctxUnpasses_eq (n : Nat) (T2 : Plane) : rctxUnpasses (gridOf s p n) T2 =
    pass a (n + 1) 2 (diagSum s) 1 2 2 (pass a (n + 1) 1 (diagSum s) (-1) 4 3 T2) := by
  obtain ⟨-, hg, hk, -⟩ := getD_phasesOf hp
  simp only [rctxUnpasses, gridOf, lift_eq_pass hg, lift_eq_pass hk, diag_eq_diagSum]

theorem ydgcocgxUnpasses_eq (n : Nat) (T6 : Plane) : ydgcocgxUnpasses (gridOf s p n) T6 =
    pass a (n + 1) 2 (diagSum s) 1 2 2 (pass a (n + 1) 1 (diagSum s) (-1) 4 3
      (pass a (n + 1) 0 (diagSum s) 1 2 2 (pass a (n + 1) 3 (diagSum s) (-1) 4 3
        (pass a (n + 1) 1 (pairSum s a) 1 1 1 (pass a (n + 1) 3 (pairSum s a) (-1) 2 2 T6))))) := by
  obtain ⟨hr, hg, hk, hb⟩ := getD_phasesOf hp
  simp only [ydgcocgxUnpasses, gridOf, lift_eq_pass hr, lift_eq_pass hg, lift_eq_pass hk, lift_eq_pass hb, diag_eq_diagSum,
    pair_eq_pairSum s hp]

theorem rctxForward_eq : rctxForward (gridOf s p (nOf s)) (load s.mem (s.slot 0)) = rctxSamples s a := by
  obtain ⟨hr, hg, hk, hb⟩ := getD_phasesOf hp
  simp only [rctxForward, gridOf_m, gridOf_cs, gridOf_off, gridOf_p, rctxPasses_eq hp, packCells_eq_inCells,
    cellAt_eq_atPhase hr, cellAt_eq_atPhase hg, cellAt_eq_atPhase hk, cellAt_eq_atPhase hb, enc, add_zero, rctxSamples]

theorem ydgcocgxForward_eq : ydgcocgxForward (gridOf s p (nOf s)) (load s.mem (s.slot 0)) = ydgcocgxSamples s a := by
  obtain ⟨hr, hg, hk, hb⟩ := getD_phasesOf hp
  simp only [ydgcocgxForward, gridOf_m, gridOf_cs, gridOf_off, gridOf_p, ydgcocgxPasses_eq hp, packCells_eq_inCells,
    cellAt_eq_atPhase hr, cellAt_eq_atPhase hg, cellAt_eq_atPhase hk, cellAt_eq_atPhase hb, enc, add_zero, ydgcocgxSamples]

theorem rctxInverse_eq (hpos : 1 ≤ nOf s) :
    rctxInverse (gridOf s p (nOf s - 1)) (load s.mem (s.slot 0)) = rctxRestored s a := by
  simp only [rctxInverse, rctxUnpasses_eq hp, gridOf_m, gridOf_cs, gridOf_off, gridOf_p, Nat.sub_add_cancel hpos,
    scatter_eq_atPhases hp, dec, rctxRestored, decoded_eq_fun, add_zero]

theorem ydgcocgxInverse_eq (hpos : 1 ≤ nOf s) :
    ydgcocgxInverse (gridOf s p (nOf s - 1)) (load s.mem (s.slot 0)) = ydgcocgxRestored s a := by
  simp only [ydgcocgxInverse, ydgcocgxUnpasses_eq hp, gridOf_m, gridOf_cs, gridOf_off, gridOf_p, Nat.sub_add_cancel hpos,
    scatter_eq_atPhases hp, dec, ydgcocgxRestored, decoded_eq_fun, add_zero]

end

/-! ### What the commands make (rule R225) -/

section
variable {s : State} (htyped : typed (s.slot 0) = true)
include htyped

theorem cfaConversion_makes {depth : Nat} (hpos : 1 ≤ depth) (hle : depth ≤ 32) {P : Plane}
    (hP : ∀ x y, legal s.cs depth (P x y)) :
    Makes (cfaConversion s depth P) [s.slot 0] (gridOut s depth P) (s.slot 0).width (s.slot 0).height where
  outputs := rfl
  stored := {
    inputs := List.forall_mem_singleton.2 htyped
    count := (by decide : 1 ≤ 4)
    size := ⟨_, List.mem_cons_self, rfl, rfl⟩
    outputs := List.forall_mem_singleton.2 (storedOutput_of_legal {
      integer := rfl
      depth_pos := hpos
      depth_le := hle.trans (by decide)
      samples := fun x y _ _ _ _ => hP x y } (fieldsFit_of_sub (hle.trans_lt (by decide)) (.inl rfl) rfl)) }

variable {p : Positions} {f : Grid → Plane → Plane} {P : Plane}

/-- A forward command with a transform that encodes (rule R221). -/
theorem cfaForward_makes (hle : nOf s ≤ 31) (hf : ∀ g : Grid, 1 ≤ g.m → ∀ S x y, legal g.cs g.m (f g S x y))
    (hP : f (gridOf s p (nOf s)) (load s.mem (s.slot 0)) = P) :
    Makes (cfaForward f s p) [s.slot 0] (gridOut s (nOf s + 1) P) (s.slot 0).width (s.slot 0).height := by
  subst hP
  exact cfaConversion_makes htyped (Nat.succ_pos _) (Nat.succ_le_succ hle) (hf (gridOf s p (nOf s)) (Nat.succ_pos _) _)

/-- An inverse command with a transform that clamps (rule R225). -/
theorem cfaInverse_makes (hlow : 2 ≤ nOf s) (hhigh : nOf s ≤ 32)
    (hf : ∀ (g : Grid) (S : Plane) x y, legal g.cs (g.m - 1) (f g S x y))
    (hP : f (gridOf s p (nOf s - 1)) (load s.mem (s.slot 0)) = P) :
    Makes (cfaInverse f s p) [s.slot 0] (gridOut s (nOf s - 1) P) (s.slot 0).width (s.slot 0).height := by
  subst hP
  exact cfaConversion_makes htyped (Nat.le_sub_of_add_le hlow) ((Nat.sub_le _ _).trans hhigh) (hf (gridOf s p (nOf s - 1)) _)

variable {a : Nat} (hp : phaseList p = phasesOf a)
include hp

theorem rctxForward_makes (hle : nOf s ≤ 31) :
    Makes (cfaForward rctxForward s p) [s.slot 0] (gridOut s (nOf s + 1) (rctxSamples s a)) (s.slot 0).width
      (s.slot 0).height :=
  cfaForward_makes htyped hle (fun _ => rctxForward_legal) (rctxForward_eq hp)

theorem ydgcocgxForward_makes (hle : nOf s ≤ 31) :
    Makes (cfaForward ydgcocgxForward s p) [s.slot 0] (gridOut s (nOf s + 1) (ydgcocgxSamples s a)) (s.slot 0).width
      (s.slot 0).height :=
  cfaForward_makes htyped hle (fun _ => ydgcocgxForward_legal) (ydgcocgxForward_eq hp)

theorem rctxInverse_makes (hdepth : 2 ≤ nOf s ∧ nOf s ≤ 32) :
    Makes (cfaInverse rctxInverse s p) [s.slot 0] (gridOut s (nOf s - 1) (rctxRestored s a)) (s.slot 0).width
      (s.slot 0).height :=
  cfaInverse_makes htyped hdepth.1 hdepth.2 (fun _ _ _ _ => clamp_legal _ _ _) (rctxInverse_eq hp (by omega))

theorem ydgcocgxInverse_makes (hdepth : 2 ≤ nOf s ∧ nOf s ≤ 32) :
    Makes (cfaInverse ydgcocgxInverse s p) [s.slot 0] (gridOut s (nOf s - 1) (ydgcocgxRestored s a)) (s.slot 0).width
      (s.slot 0).height :=
  cfaInverse_makes htyped hdepth.1 hdepth.2 (fun _ _ _ _ => clamp_legal _ _ _) (ydgcocgxInverse_eq hp (by omega))

end

/-! ### The checks V2 to V6 (rule R224) -/

section
variable {s : State}

theorem cfaError_eq (depths : Bool) : cfaError s depths =
    if countIs s 1 && evenSizes (s.slot 0) then
      if typed (s.slot 0) && !(s.slot 0).isFloat && (s.slot 0).signed == s.cs then
        if depths then none else some .unsupportedBitDepth
      else some .unsupportedSampleType
    else some .invalidDimensions := by
  simp only [cfaError]
  rw [two_checks_eq, check_eq, check_eq]

theorem gridType_iff : (AllTyped s 1 ∧ (s.slot 0).isFloat = false ∧ (s.slot 0).signed = s.cs) ↔
    (typed (s.slot 0) && !(s.slot 0).isFloat && (s.slot 0).signed == s.cs) = true := by
  rw [allTyped_one]
  simp [and_assoc]

theorem cfaForwardDepths_iff : nOf s ≤ 31 ↔ cfaForwardDepths s = true := decide_eq_true_iff.symm

theorem cfaInverseDepths_iff : (2 ≤ nOf s ∧ nOf s ≤ 32) ↔ cfaInverseDepths s = true := by
  simp [cfaInverseDepths]

theorem typed_of_gridInput {low high : Nat} (h : GridInput s low high) (hlow : 1 ≤ low) (hhigh : high ≤ 32) :
    typed (s.slot 0) = true := by
  obtain ⟨-, hfloat, -, hle, hge⟩ := h
  obtain ⟨t, ht⟩ := elementType_isSome (s := (s.slot 0).signed) (hlow.trans hle) ((hge.trans hhigh).trans (by decide))
  rw [typed, etype, hfloat, ht, Option.isSome_some]

/-- A CFA-grid command whose input passes its checks (rules R224, R225). -/
theorem RunsArranged.grid_convertsTo {i : Instr} {a : Nat} {c : Positions → State → Conversion} {depths : State → Bool}
    (hexec : RunsArranged i a s (fun s => cfaError s (depths s)) c) (ha : a < 4) {low high : Nat} (hin : GridInput s low high)
    (hlow : 1 ≤ low) (hhigh : high ≤ 32) (hdepths : (low ≤ nOf s ∧ nOf s ≤ high) → depths s = true) {outs : List Comp}
    {imgW imgH : Nat} (hmakes : typed (s.slot 0) = true → ∀ p, phaseList p = phasesOf a → (low ≤ nOf s ∧ nOf s ≤ high) →
      Makes (c p s) [s.slot 0] outs imgW imgH) (hfit : BuffersFit s [s.slot 0] outs)
    (hapart : BuffersApart s [s.slot 0] outs) : ConvertsTo i s outs imgW imgH := by
  have htyped := typed_of_gridInput hin hlow hhigh
  obtain ⟨hsizes, hfloat, hsigned, hdepth⟩ := hin
  have hown : cfaError s (depths s) = none := by
    rw [cfaError_eq, if_pos (cfaSizes_iff.1 hsizes), if_pos (gridType_iff.1 ⟨allTyped_one.2 htyped, hfloat, hsigned⟩),
      if_pos (hdepths hdepth)]
  exact hexec.convertsTo ha hown (fun p hp => hmakes htyped p hp hdepth) hfit hapart

/-- The checks of a CFA-grid command, in their order. -/
theorem RunsConversion.gridChecks {i : Instr} {c : Conversion} {outs : List Comp} {imgW imgH : Nat} {depths : Bool} {check : Prop}
    (hexec : RunsConversion i s (cfaError s depths) c) (hdepths : check ↔ depths = true)
    (hmakes : typed (s.slot 0) = true → check → Makes c [s.slot 0] outs imgW imgH) :
    FirstFailureRaises i s (gridChecks s check outs) := by
  rw [cfaError_eq] at hexec
  exact hexec.check cfaSizes_iff rfl fun _ hexec => hexec.check gridType_iff rfl fun ⟨hall, _⟩ hexec =>
    hexec.check hdepths rfl fun hdepth hexec => hexec.bufferChecks (hmakes (allTyped_one.1 hall) hdepth)

/-- V2 and V3 come before the other checks of the command's own. -/
theorem cfaError_of_not_cfaSizes (h : ¬CfaSizes s) (depths : Bool) : cfaError s depths = some .invalidDimensions := by
  rw [cfaError_eq, if_neg (mt cfaSizes_iff.2 h)]

theorem cfaCopyError_of_not_cfaSizes (h : ¬CfaSizes s) : cfaCopyError s = some .invalidDimensions := by
  rw [cfaCopyError_eq, if_neg (mt cfaSizes_iff.2 h)]

theorem RunsConversion.raises_sizes {i : Instr} {own : Option ErrorKind} {c : Conversion} (hexec : RunsConversion i s own c)
    (hown : own = some .invalidDimensions) : Raises i s 1 := by
  subst hown
  exact hexec

theorem RunsArranged.raises_sizes {i : Instr} {a : Nat} {own : State → Option ErrorKind} {c : Positions → State → Conversion}
    (hexec : RunsArranged i a s own c) (ha : a < 4) (hown : own s = some .invalidDimensions) : Raises i s 1 := by
  obtain ⟨arr, harr, -⟩ := exists_arrangement ha
  exact (hexec.runsConversion harr).raises_sizes hown

end

/-! ### The obligations -/

/-- Settles O43: the checks pass, and the transform is the one of rule R228. -/
theorem rctxForwardConverts : Obligations.RctxForwardConverts := fun a s ha hin =>
  (runsArranged_rctxF a s).grid_convertsTo ha hin (le_refl 1) (by decide) (fun hdepth => cfaForwardDepths_iff.1 hdepth.2)
    fun htyped _ hp hdepth => rctxForward_makes htyped hp hdepth.2

/-- Settles O44: the checks pass, and the transform is the one of rule R229. -/
theorem rctxInverseConverts : Obligations.RctxInverseConverts := fun a s ha hin =>
  (runsArranged_rctxI a s).grid_convertsTo ha hin (by decide) (le_refl 32) cfaInverseDepths_iff.1
    fun htyped _ hp hdepth => rctxInverse_makes htyped hp hdepth

/-- Settles O45: the checks pass, and the transform is the one of rule R232. -/
theorem ydgcocgxForwardConverts : Obligations.YdgcocgxForwardConverts := fun a s ha hin =>
  (runsArranged_ydgcocgxF a s).grid_convertsTo ha hin (le_refl 1) (by decide) (fun hdepth => cfaForwardDepths_iff.1 hdepth.2)
    fun htyped _ hp hdepth => ydgcocgxForward_makes htyped hp hdepth.2

/-- Settles O46: the checks pass, and the transform is the one of rule R233. -/
theorem ydgcocgxInverseConverts : Obligations.YdgcocgxInverseConverts := fun a s ha hin =>
  (runsArranged_ydgcocgxI a s).grid_convertsTo ha hin (by decide) (le_refl 32) cfaInverseDepths_iff.1
    fun htyped _ hp hdepth => ydgcocgxInverse_makes htyped hp hdepth

/-- Settles O51: V1 and the checks of the family; an odd or zero size fails the check after V1 in every CFA command. -/
theorem cfaGridChecksInOrder : Obligations.CfaGridChecksInOrder := by
  refine ⟨fun a s _ => ⟨?rctxF, ?rctxI, ?ydgcocgxF, ?ydgcocgxI⟩, fun a s ha hodd => ?sizes⟩
  case rctxF =>
    exact (runsArranged_rctxF a s).arrangementCheck fun _ hp hexec =>
      hexec.gridChecks cfaForwardDepths_iff fun htyped => rctxForward_makes htyped hp
  case rctxI =>
    exact (runsArranged_rctxI a s).arrangementCheck fun _ hp hexec =>
      hexec.gridChecks cfaInverseDepths_iff fun htyped => rctxInverse_makes htyped hp
  case ydgcocgxF =>
    exact (runsArranged_ydgcocgxF a s).arrangementCheck fun _ hp hexec =>
      hexec.gridChecks cfaForwardDepths_iff fun htyped => ydgcocgxForward_makes htyped hp
  case ydgcocgxI =>
    exact (runsArranged_ydgcocgxI a s).arrangementCheck fun _ hp hexec =>
      hexec.gridChecks cfaInverseDepths_iff fun htyped => ydgcocgxInverse_makes htyped hp
  case sizes =>
    have hsizes : ¬CfaSizes s := by
      rintro ⟨-, hw, hh, hw2, hh2⟩
      omega
    have hcopy := cfaCopyError_of_not_cfaSizes hsizes
    have hgrid := cfaError_of_not_cfaSizes hsizes
    simp only [List.forall_mem_cons]
    exact ⟨(runsConversion_c2p s).raises_sizes hcopy, (runsArranged_c2ps a s).raises_sizes ha hcopy,
      (runsArranged_c2y a s).raises_sizes ha hcopy, (runsArranged_rctxF a s).raises_sizes ha (hgrid _),
      (runsArranged_rctxI a s).raises_sizes ha (hgrid _), (runsArranged_ydgcocgxF a s).raises_sizes ha (hgrid _),
      (runsArranged_ydgcocgxI a s).raises_sizes ha (hgrid _), nofun⟩

end Sys2Proof.Proofs

/-!
The planar lifting transforms (`spec/44_lifting_planar.md` rules R180 to R200): the outputs of the ten commands in the words of the
statements, what their checks V2 to V8 ask, and what a command that passes them leaves.
-/

namespace Sys2Proof.Proofs

open Sys2Proof Sys2Proof.Machine Sys2Proof.Laws Sys2Proof.Claims

/-! ### The outputs in the words of the statements (rules R182, R184) -/

section
variable (s : State)

/-- The components a forward command makes of three planes with the cell arithmetic `f`. -/
def forward3Outs (f : Int → Int → Int → Ycc) : List Comp :=
  let cell (x y : Int) : Ycc := f (inSample s 0 x y) (inSample s 1 x y) (inSample s 2 x y)
  [lumaOut s (fun x y => (cell x y).y), chromaOut s 1 (fun x y => (cell x y).c1), chromaOut s 1 (fun x y => (cell x y).c2)]

/-- The components an inverse command makes of a luma and two chroma planes with the cell arithmetic `g`. -/
def inverse3Outs (g : Int → Int → Int → Rgb) : List Comp :=
  let cell (x y : Int) : Rgb := g (inSample s 0 x y) (chromaIn s 1 x y) (chromaIn s 2 x y)
  [restoredOut s 1 (fun x y => (cell x y).r), restoredOut s 1 (fun x y => (cell x y).g), restoredOut s 1 (fun x y => (cell x y).b)]

/-- The components a forward command makes of four planes: `f` works on the green average, and the delta-green comes last. -/
def forward4Outs (f : Int → Int → Int → Ycc) : List Comp :=
  let greens (x y : Int) : DeltaGreen := split (inSample s 1 x y) (inSample s 2 x y)
  let cell (x y : Int) : Ycc := f (inSample s 0 x y) (greens x y).ga (inSample s 3 x y)
  [lumaOut s (fun x y => (cell x y).y), chromaOut s 1 (fun x y => (cell x y).c1), chromaOut s 1 (fun x y => (cell x y).c2),
    chromaOut s 1 (fun x y => (greens x y).d)]

/-- The components an inverse command makes of a luma, two chroma planes and a delta plane. -/
def inverse4Outs (g : Int → Int → Int → Rgb) : List Comp :=
  let cell (x y : Int) : Rgb := g (inSample s 0 x y) (chromaIn s 1 x y) (chromaIn s 2 x y)
  let greens (x y : Int) : Greens := merge (chromaIn s 3 x y) (cell x y).g
  [restoredOut s 1 (fun x y => (cell x y).r), restoredOut s 1 (fun x y => (greens x y).g1),
    restoredOut s 1 (fun x y => (greens x y).g2), restoredOut s 1 (fun x y => (cell x y).b)]

theorem compOf_lumaOutput (P : Plane) : compOf (lumaOutput s (s.slot 0).width (s.slot 0).height P) = lumaOut s P := rfl

theorem compOf_chromaOutput (P : Plane) :
    compOf (chromaOutput s (s.slot 0).width (s.slot 0).height 1 P) = chromaOut s 1 P := by
  rw [chromaOut, Nat.div_one]
  rfl

theorem compOf_clampedOutput (P : Plane) :
    compOf (clampedOutput s (s.slot 0).width (s.slot 0).height 1 P) = restoredOut s 1 P := by
  rw [restoredOut, Nat.div_one]
  rfl

theorem forward3Outs_eq (f : Int → Int → Int → Ycc) : forward3Outs s f = (forward3 f s).outputs.map compOf := by
  simp only [forward3, planarConversion, List.map_cons, List.map_nil, compOf_lumaOutput, compOf_chromaOutput]
  rfl

theorem forward4Outs_eq (f : Int → Int → Int → Ycc) : forward4Outs s f = (forward4 f s).outputs.map compOf := by
  simp only [forward4, planarConversion, List.map_cons, List.map_nil, compOf_lumaOutput, compOf_chromaOutput]
  rfl

theorem inverse3Outs_eq (g : Int → Int → Int → Rgb) : inverse3Outs s g = (inverse3 g s).outputs.map compOf := by
  simp only [inverse3, planarConversion, List.map_cons, List.map_nil, compOf_clampedOutput]
  rfl

theorem inverse4Outs_eq (g : Int → Int → Int → Rgb) : inverse4Outs s g = (inverse4 g s).outputs.map compOf := by
  simp only [inverse4, planarConversion, List.map_cons, List.map_nil, compOf_clampedOutput]
  rfl

theorem rct422Outs_eq : rct422Outs s = (forward422 s).outputs.map compOf := by
  simp only [forward422, planarConversion, List.map_cons, List.map_nil, compOf_lumaOutput]
  rfl

theorem rct422Back_eq : rct422Back s = (inverse422 s).outputs.map compOf := by
  simp only [rct422Back, restoredOut, Nat.div_one]
  rfl

/-! The formulas of the statements are the cell arithmetic, term for term. -/

theorem rctOuts_eq : rctOuts s = forward3Outs s rctForward := rfl

theorem rctBack_eq : rctBack s = inverse3Outs s rctInverse := rfl

theorem rctdOuts_eq : rctdOuts s = forward4Outs s rctForward := rfl

theorem rctdBack_eq : rctdBack s = inverse4Outs s rctInverse := rfl

theorem ycgcoOuts_eq : ycgcoOuts s = forward3Outs s ycgcoForward := rfl

theorem ycgcoBack_eq : ycgcoBack s = inverse3Outs s ycgcoInverse := rfl

theorem ycgcodOuts_eq : ycgcodOuts s = forward4Outs s ycgcoForward := rfl

theorem ycgcodBack_eq : ycgcodBack s = inverse4Outs s ycgcoInverse := rfl

end

/-! ### How the commands run (rule R160) -/

/-- In the state `s` the command `i` is a forward command on `m` planes of one size. -/
abbrev RunsForward (i : Instr) (m : Nat) (s : State) (c : Conversion) : Prop :=
  RunsConversion i s (forwardError s (firstSlots s m) (sameSizes (firstSlots s m)) true) c

/-- In the state `s` the command `i` is an inverse command on `m` planes of one size. -/
abbrev RunsInverse (i : Instr) (m : Nat) (s : State) (c : Conversion) : Prop :=
  RunsConversion i s (inverseError s (firstSlots s m) (sameSizes (firstSlots s m)) true) c

section
variable (s : State)

theorem runsConversion_rctF : RunsForward .rctF 3 s (forward3 rctForward s) := rfl

theorem runsConversion_rctI : RunsInverse .rctI 3 s (inverse3 rctInverse s) := rfl

theorem runsConversion_ycgcoF : RunsForward .ycgcoF 3 s (forward3 ycgcoForward s) := rfl

theorem runsConversion_ycgcoI : RunsInverse .ycgcoI 3 s (inverse3 ycgcoInverse s) := rfl

theorem runsConversion_rctdF : RunsForward .rctdF 4 s (forward4 rctForward s) := rfl

theorem runsConversion_rctdI : RunsInverse .rctdI 4 s (inverse4 rctInverse s) := rfl

theorem runsConversion_ycgcodF : RunsForward .ycgcodF 4 s (forward4 ycgcoForward s) := rfl

theorem runsConversion_ycgcodI : RunsInverse .ycgcodI 4 s (inverse4 ycgcoInverse s) := rfl

theorem runsConversion_rct422F :
    RunsConversion .rct422F s (forwardError s (firstSlots s 3) (planarSizes422 s) (planarSubs422 s)) (forward422 s) := rfl

theorem runsConversion_rct422I :
    RunsConversion .rct422I s (inverseError s (firstSlots s 3) (planarSizes422 s) (planarSubs422 s)) (inverse422 s) := rfl

end

/-! ### The checks V2 to V6 (rules R162, R183, R197) -/

section
variable {s : State} {m : Nat}

theorem firstSlots_succ (s : State) (m : Nat) :
    firstSlots s (m + 1) = s.slot 0 :: (List.range m).map (fun c => s.slot (c + 1)) := by
  rw [firstSlots, List.range_succ_eq_map, List.map_cons, List.map_map]
  rfl

theorem firstSlots_length (s : State) (m : Nat) : (firstSlots s m).length = m := by simp

theorem allTyped_iff : AllTyped s m ↔ ∀ d ∈ firstSlots s m, typed d = true := by
  simp only [AllTyped, List.forall_mem_map, List.mem_range, typed_iff]

theorem sameSizes_iff (hm : 0 < m) : EqualSizes s m ↔ (countIs s m && sameSizes (firstSlots s m)) = true := by
  obtain ⟨k, rfl⟩ := Nat.exists_eq_add_one.2 hm
  rw [Bool.and_eq_true, countIs_iff, firstSlots_succ, sameSizes_cons, EqualSizes, Nat.forall_lt_succ_left]
  simp

theorem sameFormats_iff (hm : 0 < m) : EqualFormats s m ↔ sameFormats (firstSlots s m) = true := by
  obtain ⟨k, rfl⟩ := Nat.exists_eq_add_one.2 hm
  rw [firstSlots_succ, sameFormats_cons, EqualFormats, Nat.forall_lt_succ_left]
  simp

/-- V4 of an inverse command: the slots after `C0` agree with `C1`. -/
theorem chromaFormats_iff (hm : 1 < m) : ChromaFormats s m ↔ inverseFormats s ((firstSlots s m).drop 1) = true := by
  obtain ⟨k, rfl⟩ := Nat.exists_eq_add_of_lt hm
  have hdrop : (firstSlots s (1 + k + 1)).drop 1 = s.slot 1 :: (List.range k).map (fun c => s.slot (c + 2)) := by
    rw [firstSlots_succ, Nat.add_comm 1 k, List.range_succ_eq_map]
    simp [Function.comp_def]
  rw [hdrop, ChromaFormats, Nat.forall_lt_succ_left, Nat.add_comm 1 k, Nat.forall_lt_succ_left]
  simp only [inverseFormats, Bool.and_eq_true, beq_iff_eq, sameFormats_cons, List.forall_mem_map, List.mem_range]
  simp [and_assoc]

theorem planarSizes422_iff : Sizes422 s ↔ (countIs s 3 && planarSizes422 s) = true := sizes422_iff

theorem planarSubs422_iff : Subsampling422 s ↔ planarSubs422 s = true := by
  rw [Subsampling422, forall_lt_three]
  simp [planarSubs422, subs422, subIs, and_assoc]

theorem forwardError_eq (sizes subs : Bool) : forwardError s (firstSlots s m) sizes subs =
    if countIs s m && sizes then
      if sameFormats (firstSlots s m) && subs then
        if (firstSlots s m).all typed && !(s.slot 0).isFloat then
          if (s.slot 0).depth ≤ 31 then none else some .unsupportedBitDepth
        else some .unsupportedSampleType
      else some .inconsistentComponents
    else some .invalidDimensions := by
  simp only [forwardError, firstSlots_length]
  rw [two_checks_eq, check_eq, check_eq]
  grind

theorem inverseError_eq (sizes subs : Bool) : inverseError s (firstSlots s m) sizes subs =
    if countIs s m && sizes then
      if inverseFormats s ((firstSlots s m).drop 1) && subs then
        if (firstSlots s m).all typed && !(s.slot 0).isFloat then
          if (s.slot 1).depth ≤ 32 then none else some .unsupportedBitDepth
        else some .unsupportedSampleType
      else some .inconsistentComponents
    else some .invalidDimensions := by
  simp only [inverseError, firstSlots_length]
  rw [two_checks_eq, check_eq, check_eq]
  grind

theorem planarTypes_iff : (AllTyped s m ∧ (s.slot 0).isFloat = false) ↔
    ((firstSlots s m).all typed && !(s.slot 0).isFloat) = true := by
  rw [allTyped_iff, Bool.and_eq_true, List.all_eq_true, Bool.not_eq_true']

section
variable {i : Instr} {c : Conversion} {outs : List Comp} {imgW imgH : Nat} {sizesOk subsOk : Bool} {sizes subs : Prop}
  (hsizes : sizes ↔ (countIs s m && sizesOk) = true) (hsubs : subs ↔ subsOk = true)
include hsizes hsubs

/-- The checks of a forward command, in their order. -/
theorem RunsConversion.forwardChecks (hexec : RunsConversion i s (forwardError s (firstSlots s m) sizesOk subsOk) c) (hm : 0 < m)
    (hmakes : (∀ d ∈ firstSlots s m, typed d = true) → (s.slot 0).depth ≤ 31 → Makes c (firstSlots s m) outs imgW imgH) :
    FirstFailureRaises i s (forwardChecks s m sizes subs outs) := by
  rw [forwardError_eq] at hexec
  have hformats : (EqualFormats s m ∧ subs) ↔ (sameFormats (firstSlots s m) && subsOk) = true := by
    rw [sameFormats_iff hm, hsubs, Bool.and_eq_true]
  exact hexec.check hsizes rfl fun _ hexec => hexec.check hformats rfl fun _ hexec =>
    hexec.check planarTypes_iff rfl fun ⟨hall, _⟩ hexec => hexec.check Iff.rfl rfl fun hdepth hexec =>
      hexec.bufferChecks (hmakes (allTyped_iff.1 hall) hdepth)

/-- The checks of an inverse command, in their order. -/
theorem RunsConversion.inverseChecks (hexec : RunsConversion i s (inverseError s (firstSlots s m) sizesOk subsOk) c) (hm : 1 < m)
    (hmakes : (∀ d ∈ firstSlots s m, typed d = true) → Makes c (firstSlots s m) outs imgW imgH) :
    FirstFailureRaises i s (inverseChecks s m sizes subs outs) := by
  rw [inverseError_eq] at hexec
  have hformats : (ChromaFormats s m ∧ subs) ↔ (inverseFormats s ((firstSlots s m).drop 1) && subsOk) = true := by
    rw [chromaFormats_iff hm, hsubs, Bool.and_eq_true]
  exact hexec.check hsizes rfl fun _ hexec => hexec.check hformats rfl fun _ hexec =>
    hexec.check planarTypes_iff rfl fun ⟨hall, _⟩ hexec => hexec.check Iff.rfl rfl fun _ hexec =>
      hexec.bufferChecks (hmakes (allTyped_iff.1 hall))

end

/-! ### What the commands make -/

/-- A conversion of slots with element types into legal outputs of the size of `C0`. -/
theorem storedConversion_of_legal {ins : List Slot} {outs : List Output} {o : Output} (htyped : ∀ d ∈ ins, typed d = true)
    (h : LegalOutputs (planarConversion s ins outs)) (ho : o ∈ outs) (hw : (s.slot 0).width = o.w) (hh : (s.slot 0).height = o.h) :
    StoredConversion (planarConversion s ins outs) where
  inputs := htyped
  outputs q hq := storedOutput_of_legal (h.outputs q hq) (h.fields q hq)
  count := h.count_le
  size := ⟨o, ho, hw, hh⟩

theorem typed_slot_zero (hm : 0 < m) (htyped : ∀ d ∈ firstSlots s m, typed d = true) : typed (s.slot 0) = true :=
  htyped _ (List.mem_map_of_mem (List.mem_range.2 hm))

section
variable (htyped : ∀ d ∈ firstSlots s 3, typed d = true)
include htyped

theorem inverse3_makes (g : Int → Int → Int → Rgb) :
    Makes (inverse3 g s) (firstSlots s 3) (inverse3Outs s g) (s.slot 0).width (s.slot 0).height where
  stored := storedConversion_of_legal htyped (inverse3_legal g (typed_slot_zero (by decide) htyped)) List.mem_cons_self rfl rfl
  outputs := inverse3Outs_eq s g

theorem inverse422_makes : Makes (inverse422 s) (firstSlots s 3) (rct422Back s) (s.slot 0).width (s.slot 0).height where
  stored := storedConversion_of_legal htyped (inverse422_legal (typed_slot_zero (by decide) htyped)) List.mem_cons_self rfl rfl
  outputs := rct422Back_eq s

variable (hdepth : (s.slot 0).depth ≤ 31)
include hdepth

theorem forward3_makes (f : Int → Int → Int → Ycc) :
    Makes (forward3 f s) (firstSlots s 3) (forward3Outs s f) (s.slot 0).width (s.slot 0).height where
  stored := storedConversion_of_legal htyped
    (forward3_legal f (typed_depth (typed_slot_zero (by decide) htyped)).1 (Nat.succ_le_succ hdepth)) List.mem_cons_self rfl rfl
  outputs := forward3Outs_eq s f

theorem forward422_makes : Makes (forward422 s) (firstSlots s 3) (rct422Outs s) (s.slot 0).width (s.slot 0).height where
  stored := storedConversion_of_legal htyped
    (forward422_legal (typed_depth (typed_slot_zero (by decide) htyped)).1 (Nat.succ_le_succ hdepth)) List.mem_cons_self rfl rfl
  outputs := rct422Outs_eq s

end

section
variable (htyped : ∀ d ∈ firstSlots s 4, typed d = true)
include htyped

theorem inverse4_makes (g : Int → Int → Int → Rgb) :
    Makes (inverse4 g s) (firstSlots s 4) (inverse4Outs s g) (s.slot 0).width (s.slot 0).height where
  stored := storedConversion_of_legal htyped (inverse4_legal g (typed_slot_zero (by decide) htyped)) List.mem_cons_self rfl rfl
  outputs := inverse4Outs_eq s g

theorem forward4_makes (hdepth : (s.slot 0).depth ≤ 31) (f : Int → Int → Int → Ycc) :
    Makes (forward4 f s) (firstSlots s 4) (forward4Outs s f) (s.slot 0).width (s.slot 0).height where
  stored := storedConversion_of_legal htyped
    (forward4_legal f (typed_depth (typed_slot_zero (by decide) htyped)).1 (Nat.succ_le_succ hdepth)) List.mem_cons_self rfl rfl
  outputs := forward4Outs_eq s f

end

end

/-! ### Commands whose input passes the checks -/

section
variable {i : Instr} {s : State} {c : Conversion} {m : Nat} {outs : List Comp} {imgW imgH : Nat} {sizesOk subsOk : Bool}

/-- An integer component of depth 1 to 32 has an element type. -/
theorem typed_of_integer {d : Slot} (hfloat : d.isFloat = false) (hlow : 1 ≤ d.depth) (hhigh : d.depth ≤ 32) : typed d = true := by
  obtain ⟨t, ht⟩ := elementType_isSome (s := d.signed) hlow (hhigh.trans (by decide))
  rw [typed, etype, hfloat, ht, Option.isSome_some]

theorem typed_of_forwardDepth (hformats : EqualFormats s m) (hdepth : ForwardDepth s) : ∀ d ∈ firstSlots s m, typed d = true := by
  obtain ⟨hfloat, hlow, hhigh⟩ := hdepth
  exact typed_of_equalFormats hformats (typed_of_integer hfloat hlow (hhigh.trans (by decide)))

theorem typed_of_inverseTypes (htypes : InverseTypes s m) : ∀ d ∈ firstSlots s m, typed d = true := by
  obtain ⟨hfloat, hlow, hhigh, hchroma⟩ := htypes
  simp only [List.forall_mem_map, List.mem_range]
  intro c hc
  rcases eq_or_ne c 0 with rfl | hne
  · exact typed_of_integer hfloat hlow (hhigh.trans (by decide))
  · obtain ⟨hdepth, -, hfloat⟩ := hchroma c hc hne
    exact typed_of_integer hfloat (by omega) (by omega)

/-- The chroma of an inverse input is the chroma V4 asks for. -/
theorem chromaFormats_of_inverseTypes (hm : 1 < m) (htypes : InverseTypes s m) : ChromaFormats s m := by
  obtain ⟨hfloat, -, -, hchroma⟩ := htypes
  obtain ⟨hdepth1, hsigned1, hfloat1⟩ := hchroma 1 hm (by decide)
  refine ⟨fun c hc hne => ?_, hfloat1.trans hfloat.symm, hdepth1, hsigned1⟩
  obtain ⟨hdepth, hsigned, hfloat⟩ := hchroma c hc hne
  exact ⟨hdepth.trans hdepth1.symm, hsigned.trans hsigned1.symm, hfloat.trans hfloat1.symm⟩

variable (hsizes : (countIs s m && sizesOk) = true) (hsubs : subsOk = true)
include hsizes hsubs

/-- A forward command whose input passes its checks (rule R183). -/
theorem RunsConversion.forward_convertsTo (hexec : RunsConversion i s (forwardError s (firstSlots s m) sizesOk subsOk) c)
    (hm : 0 < m) (hformats : EqualFormats s m) (hdepth : ForwardDepth s)
    (hmakes : (∀ d ∈ firstSlots s m, typed d = true) → (s.slot 0).depth ≤ 31 → Makes c (firstSlots s m) outs imgW imgH)
    (hfit : BuffersFit s (firstSlots s m) outs) (hapart : BuffersApart s (firstSlots s m) outs) :
    ConvertsTo i s outs imgW imgH := by
  have htyped := typed_of_forwardDepth hformats hdepth
  obtain ⟨hfloat, -, hhigh⟩ := hdepth
  rw [forwardError_eq, if_pos hsizes, if_pos (Bool.and_eq_true_iff.2 ⟨(sameFormats_iff hm).1 hformats, hsubs⟩),
    if_pos (planarTypes_iff.1 ⟨allTyped_iff.2 htyped, hfloat⟩), if_pos hhigh] at hexec
  exact hexec.convertsTo (hmakes htyped hhigh) hfit hapart

/-- An inverse command whose input passes its checks (rule R183). -/
theorem RunsConversion.inverse_convertsTo (hexec : RunsConversion i s (inverseError s (firstSlots s m) sizesOk subsOk) c)
    (hm : 1 < m) (htypes : InverseTypes s m)
    (hmakes : (∀ d ∈ firstSlots s m, typed d = true) → Makes c (firstSlots s m) outs imgW imgH)
    (hfit : BuffersFit s (firstSlots s m) outs) (hapart : BuffersApart s (firstSlots s m) outs) :
    ConvertsTo i s outs imgW imgH := by
  have htyped := typed_of_inverseTypes htypes
  have hformats := chromaFormats_of_inverseTypes hm htypes
  obtain ⟨hfloat, -, hhigh, hchroma⟩ := htypes
  obtain ⟨hdepth, -⟩ := hchroma 1 hm (by decide)
  rw [inverseError_eq, if_pos hsizes, if_pos (Bool.and_eq_true_iff.2 ⟨(chromaFormats_iff hm).1 hformats, hsubs⟩),
    if_pos (planarTypes_iff.1 ⟨allTyped_iff.2 htyped, hfloat⟩), if_pos (by omega)] at hexec
  exact hexec.convertsTo (hmakes htyped) hfit hapart

end

/-! ### The obligation -/

/-- Settles O50: the checks of the family, with the sizes and the subsampling of the command. -/
theorem planarChecksInOrder : Obligations.PlanarChecksInOrder := by
  intro s
  have hnosubs : True ↔ true = true := by simp
  have hsizes3 := sameSizes_iff (s := s) (m := 3) (by decide)
  have hsizes4 := sameSizes_iff (s := s) (m := 4) (by decide)
  refine ⟨?forward, ?inverse, ?forward422, ?inverse422⟩
  case forward =>
    simp only [List.forall_mem_cons, rctOuts_eq, ycgcoOuts_eq, rctdOuts_eq, ycgcodOuts_eq]
    exact ⟨(runsConversion_rctF s).forwardChecks hsizes3 hnosubs (by decide) fun htyped hdepth => forward3_makes htyped hdepth _,
      (runsConversion_ycgcoF s).forwardChecks hsizes3 hnosubs (by decide) fun htyped hdepth => forward3_makes htyped hdepth _,
      (runsConversion_rctdF s).forwardChecks hsizes4 hnosubs (by decide) fun htyped hdepth => forward4_makes htyped hdepth _,
      (runsConversion_ycgcodF s).forwardChecks hsizes4 hnosubs (by decide) fun htyped hdepth => forward4_makes htyped hdepth _,
      nofun⟩
  case inverse =>
    simp only [List.forall_mem_cons, rctBack_eq, ycgcoBack_eq, rctdBack_eq, ycgcodBack_eq]
    exact ⟨(runsConversion_rctI s).inverseChecks hsizes3 hnosubs (by decide) fun htyped => inverse3_makes htyped _,
      (runsConversion_ycgcoI s).inverseChecks hsizes3 hnosubs (by decide) fun htyped => inverse3_makes htyped _,
      (runsConversion_rctdI s).inverseChecks hsizes4 hnosubs (by decide) fun htyped => inverse4_makes htyped _,
      (runsConversion_ycgcodI s).inverseChecks hsizes4 hnosubs (by decide) fun htyped => inverse4_makes htyped _, nofun⟩
  case forward422 =>
    exact (runsConversion_rct422F s).forwardChecks planarSizes422_iff planarSubs422_iff (by decide) forward422_makes
  case inverse422 =>
    exact (runsConversion_rct422I s).inverseChecks planarSizes422_iff planarSubs422_iff (by decide) inverse422_makes

end Sys2Proof.Proofs

/-!
Round trips (`spec/43_conversion_common.md` rule R171): what a conversion command leaves as the input of the next one, and when the
image after two commands is the image before them.
-/

namespace Sys2Proof.Proofs

open Sys2Proof Sys2Proof.Machine Sys2Proof.Laws Sys2Proof.Claims

/-! ### The buffers (rule R165) -/

/-- All that classes V7 and V8 ask of a component: its sizes and its depth. -/
def extent (c : Comp) : Nat × Nat × Nat := (c.w, c.h, c.depth)

/-- `FPN(i)` of a component with this extent. -/
def extentRange (s : State) (p : (Nat × Nat × Nat) × Nat) : Nat × Nat :=
  (s.out p.2, s.out p.2 + p.1.1 * p.1.2.1 * bytesOf p.1.2.2)

section
variable {s : State} {ins : List Slot} {outs outs' : List Comp} (h : outs.map extent = outs'.map extent)
include h

theorem zipIdx_extent : outs.zipIdx.map (Prod.map extent id) = outs'.zipIdx.map (Prod.map extent id) := by
  rw [← List.zipIdx_map, ← List.zipIdx_map, h]

theorem buffersFit_congr : BuffersFit s ins outs ↔ BuffersFit s ins outs' := by
  have hextent (l : List Comp) : BuffersFit s ins l ↔ (∀ d ∈ ins, (inputRange d).2 ≤ s.memSize)
      ∧ ∀ q ∈ l.zipIdx.map (Prod.map extent id), q.1.1 < 2 ^ 32 ∧ q.1.2.1 < 2 ^ 32 ∧ q.1.1 * bytesOf q.1.2.2 < 2 ^ 32
          ∧ (extentRange s q).2 ≤ s.memSize := by
    rw [List.forall_mem_map]
    rfl
  rw [hextent, hextent, zipIdx_extent h]

theorem buffersApart_congr : BuffersApart s ins outs ↔ BuffersApart s ins outs' := by
  have hextent (l : List Comp) : BuffersApart s ins l ↔
      (∀ q ∈ l.zipIdx.map (Prod.map extent id), ∀ d ∈ ins, noSharedByte (extentRange s q) (inputRange d))
        ∧ (l.zipIdx.map (Prod.map extent id)).Pairwise (fun p q => noSharedByte (extentRange s p) (extentRange s q)) := by
    rw [List.forall_mem_map, List.pairwise_map]
    rfl
  rw [hextent, hextent, zipIdx_extent h]

end

/-! ### What a command leaves (rules R164, R166) -/

/-- The position lies in a plane of these sizes. -/
abbrev Within (w h : Nat) (x y : Int) : Prop := (0 ≤ x ∧ x < w) ∧ 0 ≤ y ∧ y < h

/-- The slot describes the component, and its buffer in `m` holds the samples. -/
structure HoldsComp (m : Memory) (d : Slot) (c : Comp) : Prop where
  width : d.width = c.w
  height : d.height = c.h
  depth : d.depth = c.depth
  signed : d.signed = c.signed
  float : d.isFloat = c.float
  sample : ∀ x y, Within c.w c.h x y → load m d x y = c.sample x y

/-- The image of `t` consists of these components. -/
structure HoldsImage (t : State) (outs : List Comp) : Prop where
  count : t.imgDepth.toNat = outs.length
  comp : ∀ n c, outs[n]? = some c → HoldsComp t.mem (t.slot n) c

/-- What is left of a conversion command in the state `s` for the command after it: the image, its subsampling, and `CS`. -/
structure LeavesImage (s t : State) (outs : List Comp) : Prop where
  holds : HoldsImage t outs
  subs : ∀ n c, outs[n]? = some c → (t.slot n).subX = c.subX ∧ (t.slot n).subY = c.subY
  cs : t.cs = s.cs

theorem forall_getElem?_cons {α : Type} {p : Nat → α → Prop} {a : α} {l : List α} :
    (∀ n c, (a :: l)[n]? = some c → p n c) ↔ p 0 a ∧ ∀ n c, l[n]? = some c → p (n + 1) c := by
  constructor
  · exact fun h => ⟨h 0 a rfl, fun n c hn => h (n + 1) c hn⟩
  · rintro ⟨hhead, htail⟩ n c hn
    cases n with
    | zero => exact Option.some.inj hn ▸ hhead
    | succ n => exact htail n c hn

theorem forall_getElem?_nil {α : Type} {p : Nat → α → Prop} : (∀ n c, ([] : List α)[n]? = some c → p n c) ↔ True := by simp

section
variable {i : Instr} {s t : State} {outs : List Comp} {imgW imgH : Nat}

theorem completes_of_convertsTo (h : ConvertsTo i s outs imgW imgH) :
    ∃ t, exec i s = .next t ∧ doneFlag t.status = true ∧ LeavesImage s t outs := by
  obtain ⟨t, hexec, himage, -, hcount, -, -, hstatus, -, hframe⟩ := h
  refine ⟨t, hexec, hstatus ▸ doneFlag_statusDone s.status, ⟨hcount, fun n c hc => ?comp⟩, fun n c hc => ?subs, ?cs⟩
  case comp =>
    obtain ⟨⟨-, -, -, hwidth, hheight, hdepth, hsigned, hfloat, -⟩, hsample⟩ := himage n c hc
    refine ⟨hwidth, hheight, hdepth, hsigned, hfloat, fun x y ⟨⟨hx0, hx⟩, hy0, hy⟩ => ?_⟩
    lift x to Nat using hx0
    lift y to Nat using hy0
    exact hsample x y (by omega) (by omega)
  case subs =>
    obtain ⟨⟨-, -, -, -, -, -, -, -, -, hsubX, hsubY, -⟩, -⟩ := himage n c hc
    exact ⟨hsubX, hsubY⟩
  case cs =>
    have hctrl : t.ctrl = s.ctrl := (congrArg State.ctrl hframe :)
    rw [State.cs, hctrl, State.cs]

theorem leavesImage_of_convertsTo (h : ConvertsTo i s outs imgW imgH) (hexec : exec i s = .next t) : LeavesImage s t outs := by
  obtain ⟨u, hu, -, hleaves⟩ := completes_of_convertsTo h
  rw [hexec] at hu
  cases hu
  exact hleaves

/-- The bases of the next command's outputs are no part of the image. -/
theorem LeavesImage.withBases (h : LeavesImage s t outs) (bases : Quad Word) : LeavesImage s { t with outBase := bases } outs :=
  ⟨⟨h.holds.count, h.holds.comp⟩, h.subs, h.cs⟩

/-! ### The image after two commands (rule R171) -/

/-- Two images of the same components are the same image. -/
theorem sameImage_of_holds {u : State} {m : Nat} (hlen : outs.length = m) (hs : HoldsImage s outs) (hu : HoldsImage u outs) :
    SameImage s u m := by
  refine ⟨BitVec.eq_of_toNat_eq (hs.count.trans hu.count.symm), fun c hc => ?_⟩
  have hget : outs[c]? = some outs[c] := List.getElem?_eq_getElem (hlen ▸ hc)
  have hcs := hs.comp c _ hget
  have hcu := hu.comp c _ hget
  refine ⟨hcu.width.trans hcs.width.symm, hcu.height.trans hcs.height.symm, hcu.depth.trans hcs.depth.symm,
    hcu.signed.trans hcs.signed.symm, fun x y hx hy => ?_⟩
  rw [hcs.width] at hx
  rw [hcs.height] at hy
  exact (hcu.sample x y (by omega)).trans (hcs.sample x y (by omega)).symm

/-- A command that makes the components of the image of `s` gives that image back. -/
theorem gives_back {m : Nat} (h : ConvertsTo i t outs imgW imgH) (hlen : outs.length = m) (hs : HoldsImage s outs) :
    ∃ u, exec i t = .next u ∧ doneFlag u.status = true ∧ SameImage s u m := by
  obtain ⟨u, hexec, hdone, hleaves⟩ := completes_of_convertsTo h
  exact ⟨u, hexec, hdone, sameImage_of_holds hlen hs hleaves.holds⟩

end

/-- A sample of a legal image is legal (rule R10). -/
theorem legal_inSample {s : State} {m c : Nat} (h : LegalSamples s m) (hc : c < m) {x y : Int}
    (hxy : Within (s.slot c).width (s.slot c).height x y) : legal (s.slot c).signed (s.slot c).depth (inSample s c x y) := by
  obtain ⟨⟨hx0, hx⟩, hy0, hy⟩ := hxy
  lift x to Nat using hx0
  lift y to Nat using hy0
  exact h c hc x (by omega) y (by omega)

end Sys2Proof.Proofs

/-!
The planar round trips (`spec/43_conversion_common.md` rule R171 item 1): on legal samples the forward arithmetic stays in the range of
its outputs, so the inverse command meets exactly the numbers the cell arithmetic gave and undoes them.
-/

namespace Sys2Proof.Proofs

open Sys2Proof Sys2Proof.Machine Sys2Proof.Laws Sys2Proof.Claims

/-! ### The cell arithmetic stays in range (rules R182, R186, R192) -/

section
variable {sg : Bool} {n : Nat} {a b c : Int}

/-- A difference of legal values needs one bit more, and a sign. -/
theorem legal_sub (hn : 1 ≤ n) (ha : legal sg n a) (hb : legal sg n b) : legal true (n + 1) (a - b) := by
  have hhi := hi_eq (s := sg) hn
  simp only [legal, lo, hi, if_true, Nat.add_sub_cancel] at ha hb hhi ⊢
  omega

/-- The floored mean of two legal values is legal. -/
theorem legal_mean (ha : legal sg n a) (hb : legal sg n b) : legal sg n (b + asr (a - b) 1) := by
  have hbounds := asr_bounds (a - b) 1
  omega

/-- The luma of RCT is a weighted mean of three legal values. -/
theorem legal_rctLuma (ha : legal sg n a) (hb : legal sg n b) (hc : legal sg n c) : legal sg n (rctForward a b c).y := by
  have hbounds := asr_bounds (a + 2 * b + c) 2
  simp only [rctForward]
  omega

/-- A chroma value with its offset is legal for the chroma's type (rule R181). -/
theorem legal_add_offOf (s : State) {v : Int} (h : legal true (n + 1) v) : legal s.cs (n + 1) (v + offOf s n) := by
  have hpow : (2 : Int) ^ (n + 1) = 2 * 2 ^ n := pow_succ' 2 n
  cases hcs : s.cs <;> simp only [legal, lo, hi, offOf, hcs, if_true, Bool.false_eq_true, if_false, Nat.add_sub_cancel] at h ⊢ <;>
    omega

end

/-- The cell arithmetic `g` undoes `f`, and `f` maps legal values to values its outputs can hold: a legal luma, and chromas of one bit
more, before the offset. -/
structure CellPair (f : Int → Int → Int → Ycc) (g : Int → Int → Int → Rgb) : Prop where
  undoes : ∀ r gr b, g (f r gr b).y (f r gr b).c1 (f r gr b).c2 = { r := r, g := gr, b := b }
  luma : ∀ {sg n r gr b}, legal sg n r → legal sg n gr → legal sg n b → legal sg n (f r gr b).y
  chroma1 : ∀ {sg n r gr b}, 1 ≤ n → legal sg n r → legal sg n gr → legal sg n b → legal true (n + 1) (f r gr b).c1
  chroma2 : ∀ {sg n r gr b}, 1 ≤ n → legal sg n r → legal sg n gr → legal sg n b → legal true (n + 1) (f r gr b).c2

theorem rct_cellPair : CellPair rctForward rctInverse where
  undoes := rctInverse_rctForward
  luma := legal_rctLuma
  chroma1 hn _ hg hb := legal_sub hn hb hg
  chroma2 hn hr hg _ := legal_sub hn hr hg

/-- The luma of YCgCo is the mean of the green and `t`, which is the mean of red and blue. -/
theorem ycgco_cellPair : CellPair ycgcoForward ycgcoInverse where
  undoes := ycgcoInverse_ycgcoForward
  luma hr hg hb := legal_mean hg (legal_mean hr hb)
  chroma1 hn hr hg hb := legal_sub hn hg (legal_mean hr hb)
  chroma2 hn hr _ hb := legal_sub hn hr hb

/-! ### The image a forward command leaves (rules R182, R184) -/

/-- The samples of planes of one format are legal for the type of `C0`. -/
theorem legal_of_equalFormats {s : State} {m c : Nat} (hformats : EqualFormats s m) (hlegal : LegalSamples s m) (hc : c < m)
    {x y : Int} (hxy : Within (s.slot c).width (s.slot c).height x y) : legal (sOf s) (nOf s) (inSample s c x y) := by
  obtain ⟨hdepth, hsigned, -⟩ := hformats c hc
  rw [sOf, nOf, ← hdepth, ← hsigned]
  exact legal_inSample hlegal hc hxy

section
variable {s t : State} {luma : Plane} {chromas : List Plane} {subX : Nat}

/-- A forward command has left the luma and these chroma planes, each before `wrap` and offset. -/
abbrev LeavesPlanar (s t : State) (luma : Plane) (chromas : List Plane) (subX : Nat) : Prop :=
  LeavesImage s t (lumaOut s luma :: chromas.map (chromaOut s subX))

section
variable (h : LeavesPlanar s t luma chromas subX)
include h

theorem LeavesPlanar.holds_luma : HoldsComp t.mem (t.slot 0) (lumaOut s luma) := h.holds.comp 0 _ rfl

theorem LeavesPlanar.holds_chroma {c : Nat} {P : Plane} (hc : chromas[c]? = some P) :
    HoldsComp t.mem (t.slot (c + 1)) (chromaOut s subX P) := h.holds.comp (c + 1) _ (by simp [hc])

/-- The slots after the luma hold the chroma planes. -/
theorem LeavesPlanar.exists_chroma {c : Nat} (hc : c < chromas.length + 1) (hne : c ≠ 0) :
    ∃ P, HoldsComp t.mem (t.slot c) (chromaOut s subX P) := by
  obtain ⟨k, rfl⟩ := Nat.exists_eq_succ_of_ne_zero hne
  exact ⟨_, h.holds_chroma (List.getElem?_eq_getElem (Nat.lt_of_succ_lt_succ hc))⟩

theorem LeavesPlanar.nOf_eq : nOf t = nOf s := h.holds_luma.depth

theorem LeavesPlanar.sOf_eq : sOf t = sOf s := h.holds_luma.signed

theorem LeavesPlanar.offOf_eq : offOf t (nOf t) = offOf s (nOf s) := by rw [offOf, h.cs, h.nOf_eq, offOf]

/-- The types are those an inverse command accepts. -/
theorem LeavesPlanar.inverseTypes (hdepth : ForwardDepth s) : InverseTypes t (chromas.length + 1) := by
  obtain ⟨-, hlow, hhigh⟩ := hdepth
  refine ⟨h.holds_luma.float, hlow.trans_eq h.nOf_eq.symm, h.nOf_eq.trans_le hhigh, fun c hc hne => ?_⟩
  obtain ⟨P, hP⟩ := h.exists_chroma hc hne
  exact ⟨hP.depth.trans (congrArg (· + 1) h.nOf_eq.symm), hP.signed.trans h.cs.symm, hP.float⟩

theorem LeavesPlanar.equalSizes (hsub : subX = 1) (hw : (s.slot 0).width ≠ 0) (hh : (s.slot 0).height ≠ 0) :
    EqualSizes t (chromas.length + 1) := by
  subst hsub
  have hluma := h.holds_luma
  refine ⟨by simpa using h.holds.count, hluma.width ▸ hw, hluma.height ▸ hh, fun c hc => ?_⟩
  rcases eq_or_ne c 0 with rfl | hne
  · exact ⟨rfl, rfl⟩
  · obtain ⟨P, hP⟩ := h.exists_chroma hc hne
    exact ⟨(hP.width.trans (Nat.div_one _)).trans hluma.width.symm, hP.height.trans hluma.height.symm⟩

section
variable {x y : Int}

/-- A legal luma is read back as it was. -/
theorem LeavesPlanar.inSample_luma (hn : 1 ≤ nOf s) (hxy : Within (s.slot 0).width (s.slot 0).height x y)
    (hlegal : legal (sOf s) (nOf s) (luma x y)) : inSample t 0 x y = luma x y :=
  (h.holds_luma.sample x y hxy).trans (wrap_of_legal hn hlegal)

/-- A chroma of one bit more than the luma is read back as it was, with the offset taken off again. -/
theorem LeavesPlanar.chromaIn_eq {c : Nat} {P : Plane} (hc : chromas[c]? = some P)
    (hxy : Within ((s.slot 0).width / subX) (s.slot 0).height x y) (hlegal : legal true (nOf s + 1) (P x y)) :
    chromaIn t (c + 1) x y = P x y := by
  have hsample : inSample t (c + 1) x y = wrap (P x y + offOf s (nOf s)) s.cs (nOf s + 1) := (h.holds_chroma hc).sample x y hxy
  rw [chromaIn, hsample, h.offOf_eq, wrap_of_legal (Nat.succ_pos _) (legal_add_offOf s hlegal), add_sub_cancel_right]

end

/-- Slot `c` of the first image holds the component an inverse command makes of its samples. -/
theorem LeavesPlanar.holds_restored {m c k : Nat} (hformats : EqualFormats s m) (hfloat : (s.slot 0).isFloat = false)
    (hlegal : LegalSamples s m) (hc : c < m) (hw : (s.slot c).width = (s.slot 0).width / k)
    (hh : (s.slot c).height = (s.slot 0).height) {P : Plane}
    (hP : ∀ x y, Within ((s.slot 0).width / k) (s.slot 0).height x y → P x y = inSample s c x y) :
    HoldsComp s.mem (s.slot c) (restoredOut t k P) := by
  obtain ⟨hdepth, hsigned, hfloatc⟩ := hformats c hc
  have hluma := h.holds_luma
  have hwidth : (s.slot 0).width / k = (t.slot 0).width / k := congrArg (· / k) hluma.width.symm
  refine ⟨hw.trans hwidth, hh.trans hluma.height.symm, hdepth.trans h.nOf_eq.symm, hsigned.trans h.sOf_eq.symm,
    hfloatc.trans hfloat, fun x y hxy => ?_⟩
  have hin : Within ((s.slot 0).width / k) (s.slot 0).height x y := by
    rw [hwidth, ← hluma.height.trans (rfl : _ = (s.slot 0).height)]
    exact hxy
  have hin' : Within (s.slot c).width (s.slot c).height x y := by rwa [hw, hh]
  have hclamp : legal (sOf t) (nOf t) (inSample s c x y) := by
    rw [h.sOf_eq, h.nOf_eq]
    exact legal_of_equalFormats hformats hlegal hc hin'
  show inSample s c x y = clamp (P x y) (sOf t) (nOf t)
  rw [hP x y hin, clamp_of_legal hclamp]

end

end

/-! ### Commands on planes of one size -/

section
variable {s : State} {m c : Nat} (hin : ForwardInput s m) (hlegal : LegalSamples s m) (hc : c < m)
include hin hlegal hc

/-- The samples of all planes are legal for the type of `C0`. -/
theorem legal_plane {x y : Int} (hxy : Within (s.slot 0).width (s.slot 0).height x y) :
    legal (sOf s) (nOf s) (inSample s c x y) := by
  obtain ⟨⟨-, -, -, hsizes⟩, hformats, -⟩ := hin
  obtain ⟨hw, hh⟩ := hsizes c hc
  exact legal_of_equalFormats hformats hlegal hc (by rwa [hw, hh])

/-- Slot `c` of the first image holds the component an inverse command makes of its samples. -/
theorem LeavesPlanar.holds_plane {t : State} {luma : Plane} {chromas : List Plane} (h : LeavesPlanar s t luma chromas 1) {P : Plane}
    (hP : ∀ x y, Within (s.slot 0).width (s.slot 0).height x y → P x y = inSample s c x y) :
    HoldsComp s.mem (s.slot c) (restoredOut t 1 P) := by
  obtain ⟨⟨-, -, -, hsizes⟩, hformats, hfloat, -⟩ := hin
  obtain ⟨hw, hh⟩ := hsizes c hc
  refine h.holds_restored hformats hfloat hlegal hc (by rw [hw, Nat.div_one]) hh ?_
  rwa [Nat.div_one]

end

/-! The extents of the components do not depend on the cell arithmetic. -/

section
variable (s : State)

theorem extent_rctOuts (f : Int → Int → Int → Ycc) : (rctOuts s).map extent = (forward3Outs s f).map extent := by
  rw [rctOuts_eq]
  rfl

theorem extent_rctBack (g : Int → Int → Int → Rgb) : (rctBack s).map extent = (inverse3Outs s g).map extent := by
  rw [rctBack_eq]
  rfl

theorem extent_rctdOuts (f : Int → Int → Int → Ycc) : (rctdOuts s).map extent = (forward4Outs s f).map extent := by
  rw [rctdOuts_eq]
  rfl

theorem extent_rctdBack (g : Int → Int → Int → Rgb) : (rctdBack s).map extent = (inverse4Outs s g).map extent := by
  rw [rctdBack_eq]
  rfl

end

section
variable {s t : State} {i : Instr} {c : Conversion} {m : Nat} {outs shape : List Comp} {imgW imgH : Nat} (hin : ForwardInput s m)
  (hextent : shape.map extent = outs.map extent)
include hin hextent

/-- What a forward command leaves; V7 and V8 may be given for any components of the same extents. -/
theorem leaves_forward (hm : 0 < m) (hexec : RunsForward i m s c)
    (hmakes : (∀ d ∈ firstSlots s m, typed d = true) → (s.slot 0).depth ≤ 31 → Makes c (firstSlots s m) outs imgW imgH)
    (hfit : BuffersFit s (firstSlots s m) shape) (hapart : BuffersApart s (firstSlots s m) shape) (hnext : exec i s = .next t) :
    LeavesImage s t outs := by
  obtain ⟨hsizes, hformats, hdepth⟩ := hin
  exact leavesImage_of_convertsTo (hexec.forward_convertsTo ((sameSizes_iff hm).1 hsizes) rfl hm hformats hdepth hmakes
    ((buffersFit_congr hextent).1 hfit) ((buffersApart_congr hextent).1 hapart)) hnext

/-- The inverse command on the image a forward one has left. -/
theorem inverse_gives_back {luma : Plane} {chromas : List Plane} (h : LeavesPlanar s t luma chromas 1)
    (hcount : chromas.length + 1 = m) (hm : 1 < m)
    (hexec : RunsInverse i m t c)
    (hmakes : (∀ d ∈ firstSlots t m, typed d = true) → Makes c (firstSlots t m) outs imgW imgH)
    (hfit : BuffersFit t (firstSlots t m) shape) (hapart : BuffersApart t (firstSlots t m) shape) (hlen : outs.length = m)
    (hholds : HoldsImage s outs) : ∃ u, exec i t = .next u ∧ doneFlag u.status = true ∧ SameImage s u m := by
  obtain ⟨⟨-, hw, hh, -⟩, -, hdepth⟩ := hin
  subst hcount
  exact gives_back (hexec.inverse_convertsTo ((sameSizes_iff (Nat.succ_pos _)).1 (h.equalSizes rfl hw hh)) rfl hm
    (h.inverseTypes hdepth) hmakes ((buffersFit_congr hextent).1 hfit) ((buffersApart_congr hextent).1 hapart)) hlen hholds

end

section
variable {f : Int → Int → Int → Ycc} {g : Int → Int → Int → Rgb} {s t : State}

section
variable (hin : ForwardInput s 3) (hcell : CellPair f g) (hlegal : LegalSamples s 3)
include hin hcell hlegal

/-- The inverse arithmetic on the image RCT.F or YCGCO.F has left. -/
theorem cell3_undone (h : LeavesImage s t (forward3Outs s f)) {x y : Int} (hxy : Within (s.slot 0).width (s.slot 0).height x y) :
    g (inSample t 0 x y) (chromaIn t 1 x y) (chromaIn t 2 x y)
      = { r := inSample s 0 x y, g := inSample s 1 x y, b := inSample s 2 x y } := by
  obtain ⟨hr, hg, hb⟩ := forall_lt_three.1 fun c hc => legal_plane hin hlegal hc hxy
  obtain ⟨-, -, -, hn, -⟩ := hin
  have hplanar : LeavesPlanar s t _ [_, _] 1 := h
  have hxy' : Within ((s.slot 0).width / 1) (s.slot 0).height x y := by rwa [Nat.div_one]
  rw [hplanar.inSample_luma hn hxy (hcell.luma hr hg hb), hplanar.chromaIn_eq (c := 0) rfl hxy' (hcell.chroma1 hn hr hg hb),
    hplanar.chromaIn_eq (c := 1) rfl hxy' (hcell.chroma2 hn hr hg hb)]
  exact hcell.undoes _ _ _

theorem holds_inverse3Outs (h : LeavesImage s t (forward3Outs s f)) : HoldsImage s (inverse3Outs t g) := by
  have hplanar : LeavesPlanar s t _ [_, _] 1 := h
  have hundone (x y : Int) (hxy : Within (s.slot 0).width (s.slot 0).height x y) := cell3_undone hin hcell hlegal h hxy
  obtain ⟨⟨hcount, -⟩, -⟩ := id hin
  refine ⟨hcount, ?_⟩
  simp only [inverse3Outs, forall_getElem?_cons, forall_getElem?_nil, and_true]
  exact ⟨hplanar.holds_plane hin hlegal (by decide) fun x y hxy => by rw [hundone x y hxy],
    hplanar.holds_plane hin hlegal (by decide) fun x y hxy => by rw [hundone x y hxy],
    hplanar.holds_plane hin hlegal (by decide) fun x y hxy => by rw [hundone x y hxy]⟩

/-- The trip of three planes. -/
theorem roundTrip3 {F I : Instr} {bases : Quad Word} (hF : RunsForward F 3 s (forward3 f s))
    (hI : ∀ t, RunsInverse I 3 t (inverse3 g t)) (hfit : BuffersFit s (firstSlots s 3) (rctOuts s))
    (hapart : BuffersApart s (firstSlots s 3) (rctOuts s)) (hnext : exec F s = .next t)
    (hfit' : BuffersFit { t with outBase := bases } (firstSlots t 3) (rctBack t))
    (hapart' : BuffersApart { t with outBase := bases } (firstSlots t 3) (rctBack t)) :
    ∃ u, exec I { t with outBase := bases } = .next u ∧ doneFlag u.status = true ∧ SameImage s u 3 := by
  have h := (leaves_forward hin (extent_rctOuts s f) (by decide) hF
    (fun htyped hdepth => forward3_makes htyped hdepth f) hfit hapart hnext).withBases bases
  exact inverse_gives_back hin (extent_rctBack _ g) (chromas := [_, _]) h rfl (by decide) (hI _)
    (fun htyped => inverse3_makes htyped g) hfit' hapart' rfl (holds_inverse3Outs hin hcell hlegal h)

end

section
variable (hin : ForwardInput s 4) (hcell : CellPair f g) (hlegal : LegalSamples s 4)
include hin hcell hlegal

/-- The inverse arithmetic on the image RCTD.F or YCGCOD.F has left: the green average is the middle value of the cell. -/
theorem cell4_undone (h : LeavesImage s t (forward4Outs s f)) {x y : Int} (hxy : Within (s.slot 0).width (s.slot 0).height x y) :
    g (inSample t 0 x y) (chromaIn t 1 x y) (chromaIn t 2 x y)
        = { r := inSample s 0 x y, g := (split (inSample s 1 x y) (inSample s 2 x y)).ga, b := inSample s 3 x y }
      ∧ chromaIn t 3 x y = (split (inSample s 1 x y) (inSample s 2 x y)).d := by
  obtain ⟨hr, hg1, hg2, hb⟩ := forall_lt_four.1 fun c hc => legal_plane hin hlegal hc hxy
  obtain ⟨-, -, -, hn, -⟩ := hin
  have hplanar : LeavesPlanar s t _ [_, _, _] 1 := h
  have hxy' : Within ((s.slot 0).width / 1) (s.slot 0).height x y := by rwa [Nat.div_one]
  have hg : legal (sOf s) (nOf s) (split (inSample s 1 x y) (inSample s 2 x y)).ga := by
    rw [split_ga]
    exact legal_mean hg1 hg2
  rw [hplanar.inSample_luma hn hxy (hcell.luma hr hg hb), hplanar.chromaIn_eq (c := 0) rfl hxy' (hcell.chroma1 hn hr hg hb),
    hplanar.chromaIn_eq (c := 1) rfl hxy' (hcell.chroma2 hn hr hg hb),
    hplanar.chromaIn_eq (c := 2) rfl hxy' (legal_sub hn hg1 hg2)]
  exact ⟨hcell.undoes _ _ _, rfl⟩

theorem holds_inverse4Outs (h : LeavesImage s t (forward4Outs s f)) : HoldsImage s (inverse4Outs t g) := by
  have hplanar : LeavesPlanar s t _ [_, _, _] 1 := h
  have hundone (x y : Int) (hxy : Within (s.slot 0).width (s.slot 0).height x y) := cell4_undone hin hcell hlegal h hxy
  have hgreens (x y : Int) (hxy : Within (s.slot 0).width (s.slot 0).height x y) :
      merge (chromaIn t 3 x y) (g (inSample t 0 x y) (chromaIn t 1 x y) (chromaIn t 2 x y)).g
        = { g1 := inSample s 1 x y, g2 := inSample s 2 x y } := by
    obtain ⟨hmiddle, hdelta⟩ := hundone x y hxy
    rw [hmiddle, hdelta, merge_split]
  obtain ⟨⟨hcount, -⟩, -⟩ := id hin
  refine ⟨hcount, ?_⟩
  simp only [inverse4Outs, forall_getElem?_cons, forall_getElem?_nil, and_true]
  exact ⟨hplanar.holds_plane hin hlegal (by decide) fun x y hxy => by rw [(hundone x y hxy).1],
    hplanar.holds_plane hin hlegal (by decide) fun x y hxy => by rw [hgreens x y hxy],
    hplanar.holds_plane hin hlegal (by decide) fun x y hxy => by rw [hgreens x y hxy],
    hplanar.holds_plane hin hlegal (by decide) fun x y hxy => by rw [(hundone x y hxy).1]⟩

/-- The trip of four planes. -/
theorem roundTrip4 {F I : Instr} {bases : Quad Word} (hF : RunsForward F 4 s (forward4 f s))
    (hI : ∀ t, RunsInverse I 4 t (inverse4 g t)) (hfit : BuffersFit s (firstSlots s 4) (rctdOuts s))
    (hapart : BuffersApart s (firstSlots s 4) (rctdOuts s)) (hnext : exec F s = .next t)
    (hfit' : BuffersFit { t with outBase := bases } (firstSlots t 4) (rctdBack t))
    (hapart' : BuffersApart { t with outBase := bases } (firstSlots t 4) (rctdBack t)) :
    ∃ u, exec I { t with outBase := bases } = .next u ∧ doneFlag u.status = true ∧ SameImage s u 4 := by
  have h := (leaves_forward hin (extent_rctdOuts s f) (by decide) hF
    (fun htyped hdepth => forward4_makes htyped hdepth f) hfit hapart hnext).withBases bases
  exact inverse_gives_back hin (extent_rctdBack _ g) (chromas := [_, _, _]) h rfl (by decide) (hI _)
    (fun htyped => inverse4_makes htyped g) hfit' hapart' rfl (holds_inverse4Outs hin hcell hlegal h)

end

end

/-! ### Commands on a 4:2:2 image (rules R197 to R200) -/

theorem shape422_iff {s : State} : Shape422 s ↔ Sizes422 s ∧ Subsampling422 s := by
  constructor
  · rintro ⟨hcount, hw, hh, heven, hchroma, hsubX, hsubY⟩
    refine ⟨⟨hcount, hw, hh, heven, fun c hc hne => ?_⟩, hsubX, hsubY, fun c hc hne => ?_⟩
    · obtain ⟨hwidth, hheight, -⟩ := hchroma c hc hne
      exact ⟨hwidth, hheight⟩
    · obtain ⟨-, -, hsub⟩ := hchroma c hc hne
      exact hsub
  · rintro ⟨⟨hcount, hw, hh, heven, hchroma⟩, hsubX, hsubY, hsubs⟩
    refine ⟨hcount, hw, hh, heven, fun c hc hne => ?_, hsubX, hsubY⟩
    obtain ⟨hwidth, hheight⟩ := hchroma c hc hne
    exact ⟨hwidth, hheight, hsubs c hc hne⟩

section
variable {s t : State}

/-- What RCT422.F leaves. -/
theorem leaves_rct422Outs (hshape : Shape422 s) (hformats : EqualFormats s 3) (hdepth : ForwardDepth s)
    (hfit : BuffersFit s (firstSlots s 3) (rct422Outs s)) (hapart : BuffersApart s (firstSlots s 3) (rct422Outs s))
    (hexec : exec .rct422F s = .next t) : LeavesImage s t (rct422Outs s) := by
  obtain ⟨hsizes, hsubs⟩ := shape422_iff.1 hshape
  exact leavesImage_of_convertsTo ((runsConversion_rct422F s).forward_convertsTo (planarSizes422_iff.1 hsizes)
    (planarSubs422_iff.1 hsubs) (by decide) hformats hdepth forward422_makes hfit hapart) hexec

/-- The image RCT422.F has left has the shape RCT422.I accepts. -/
theorem LeavesPlanar.shape422 {luma P Q : Plane} (h : LeavesPlanar s t luma [P, Q] 2) (hw : (s.slot 0).width ≠ 0)
    (hh : (s.slot 0).height ≠ 0) (heven : (s.slot 0).width % 2 = 0) : Shape422 t := by
  obtain ⟨⟨hsubX0, hsubY0⟩, ⟨hsubX1, hsubY1⟩, ⟨hsubX2, hsubY2⟩, -⟩ := by
    simpa only [List.map_cons, forall_getElem?_cons] using h.subs
  have hluma := h.holds_luma
  have hP := h.holds_chroma (c := 0) rfl
  have hQ := h.holds_chroma (c := 1) rfl
  have hhalf : (s.slot 0).width / 2 = (t.slot 0).width / 2 := congrArg (· / 2) hluma.width.symm
  refine ⟨h.holds.count, hluma.width ▸ hw, hluma.height ▸ hh, hluma.width ▸ heven, forall_lt_three.2 ⟨(absurd rfl ·), ?_, ?_⟩,
    hsubX0, hsubY0⟩
  · exact fun _ => ⟨hP.width.trans hhalf, hP.height.trans hluma.height.symm, hsubX1, hsubY1⟩
  · exact fun _ => ⟨hQ.width.trans hhalf, hQ.height.trans hluma.height.symm, hsubX2, hsubY2⟩

/-- The green RCT422.I stores is legal, so its component could as well be clamped. -/
theorem rct422Back_green (hn : 1 ≤ nOf t) :
    { restoredOut t 1 (fun _ _ => 0) with sample := green422 t } = restoredOut t 1 (green422 t) := by
  have hclamp : green422 t = fun x y => clamp (green422 t x y) (sOf t) (nOf t) := by
    funext x y
    exact (clamp_of_legal (wrap_legal _ _ hn)).symm
  exact congrArg (fun P => { restoredOut t 1 (fun _ _ => 0) with sample := P }) hclamp

variable (hshape : Shape422 s) (hformats : EqualFormats s 3) (hdepth : ForwardDepth s) (hlegal : LegalSamples s 3)
  (h : LeavesImage s t (rct422Outs s))
include hshape hformats hdepth hlegal h

/-- The chromas of a cell are read back as the differences to its first green. -/
theorem chroma422_undone {i y : Int} (hin : Within ((s.slot 0).width / 2) (s.slot 0).height i y) :
    chromaIn t 1 i y = inSample s 2 i y - inSample s 0 (2 * i) y
      ∧ chromaIn t 2 i y = inSample s 1 i y - inSample s 0 (2 * i) y := by
  have hplanar : LeavesPlanar s t _ [_, _] 2 := h
  obtain ⟨-, -, -, -, hchroma, -⟩ := hshape
  obtain ⟨-, hn, -⟩ := hdepth
  have hfirst : legal (sOf s) (nOf s) (inSample s 0 (2 * i) y) := legal_of_equalFormats hformats hlegal (by decide) (by omega)
  have hdiff (c : Nat) (hc : c < 3) (hne : c ≠ 0) : legal true (nOf s + 1) (inSample s c i y - inSample s 0 (2 * i) y) := by
    obtain ⟨hw, hh, -⟩ := hchroma c hc hne
    exact legal_sub hn (legal_of_equalFormats hformats hlegal hc (by rwa [hw, hh])) hfirst
  exact ⟨hplanar.chromaIn_eq (c := 0) rfl hin (hdiff 2 (by decide) (by decide)),
    hplanar.chromaIn_eq (c := 1) rfl hin (hdiff 1 (by decide) (by decide))⟩

/-- The lumas may have wrapped; taking the same `t` off again and wrapping gives the greens back. -/
theorem green422_undone {x y : Int} (hxy : Within (s.slot 0).width (s.slot 0).height x y) : green422 t x y = inSample s 0 x y := by
  have hplanar : LeavesPlanar s t _ [_, _] 2 := h
  obtain ⟨-, -, -, heven, -⟩ := id hshape
  obtain ⟨-, hn, -⟩ := id hdepth
  obtain ⟨hcb, hcr⟩ := chroma422_undone hshape hformats hdepth hlegal h (i := x / 2) (y := y) (by omega)
  have hluma : inSample t 0 x y = wrap (inSample s 0 x y + forwardT422 s (x / 2) y) (sOf s) (nOf s) :=
    hplanar.holds_luma.sample x y hxy
  rw [green422, hcb, hcr, hluma, hplanar.sOf_eq, hplanar.nOf_eq, sub_eq_add_neg, wrap_add_wrap, forwardT422,
    add_neg_cancel_right]
  exact wrap_of_legal hn (legal_of_equalFormats hformats hlegal (by decide) hxy)

theorem holds_rct422Back : HoldsImage s (rct422Back t) := by
  have hplanar : LeavesPlanar s t _ [_, _] 2 := h
  obtain ⟨hcount, -, -, heven, hchroma, -⟩ := id hshape
  obtain ⟨hfloat, hn, -⟩ := id hdepth
  obtain ⟨hw1, hh1, -⟩ := hchroma 1 (by decide) (by decide)
  obtain ⟨hw2, hh2, -⟩ := hchroma 2 (by decide) (by decide)
  have hcell (i y : Int) (hin : Within ((s.slot 0).width / 2) (s.slot 0).height i y) :=
    chroma422_undone hshape hformats hdepth hlegal h hin
  have hgreen (x y : Int) (hxy : Within (s.slot 0).width (s.slot 0).height x y) :=
    green422_undone hshape hformats hdepth hlegal h hxy
  refine ⟨hcount, ?_⟩
  simp only [rct422Back, rct422Back_green (hn.trans_eq hplanar.nOf_eq.symm), forall_getElem?_cons, forall_getElem?_nil, and_true]
  refine ⟨?green, ?red, ?blue⟩
  case green =>
    exact hplanar.holds_restored hformats hfloat hlegal (by decide) (Nat.div_one _).symm rfl (by rwa [Nat.div_one])
  case red =>
    refine hplanar.holds_restored hformats hfloat hlegal (by decide) hw1 hh1 fun i y hin => ?_
    rw [(hcell i y hin).2, hgreen _ _ (by omega), sub_add_cancel]
  case blue =>
    refine hplanar.holds_restored hformats hfloat hlegal (by decide) hw2 hh2 fun i y hin => ?_
    rw [(hcell i y hin).1, hgreen _ _ (by omega), sub_add_cancel]

/-- RCT422.I on what RCT422.F has left. -/
theorem inverse422_gives_back (hfit : BuffersFit t (firstSlots t 3) (rct422Back t))
    (hapart : BuffersApart t (firstSlots t 3) (rct422Back t)) :
    ∃ u, exec .rct422I t = .next u ∧ doneFlag u.status = true ∧ SameImage s u 3 := by
  obtain ⟨-, hw, hh, heven, -⟩ := id hshape
  have hplanar : LeavesPlanar s t _ [_, _] 2 := h
  have htypes : InverseTypes t 3 := hplanar.inverseTypes hdepth
  obtain ⟨hsizes, hsubs⟩ := shape422_iff.1 (hplanar.shape422 hw hh heven)
  exact gives_back ((runsConversion_rct422I t).inverse_convertsTo (planarSizes422_iff.1 hsizes) (planarSubs422_iff.1 hsubs)
    (by decide) htypes inverse422_makes hfit hapart) rfl (holds_rct422Back hshape hformats hdepth hlegal h)

end

/-! ### The obligations -/

/-- Settles O55: the trip of three planes, for both pairs of cell arithmetic. -/
theorem threePlaneRoundTrip : Obligations.ThreePlaneRoundTrip := by
  intro s t bases F I hpair hin hlegal
  simp only [List.mem_cons, List.not_mem_nil, or_false, Prod.mk.injEq] at hpair
  rcases hpair with ⟨rfl, rfl⟩ | ⟨rfl, rfl⟩
  · exact roundTrip3 hin rct_cellPair hlegal (runsConversion_rctF s) runsConversion_rctI
  · exact roundTrip3 hin ycgco_cellPair hlegal (runsConversion_ycgcoF s) runsConversion_ycgcoI

/-- Settles O56: the trip of four planes, for both pairs of cell arithmetic. -/
theorem fourPlaneRoundTrip : Obligations.FourPlaneRoundTrip := by
  intro s t bases F I hpair hin hlegal
  simp only [List.mem_cons, List.not_mem_nil, or_false, Prod.mk.injEq] at hpair
  rcases hpair with ⟨rfl, rfl⟩ | ⟨rfl, rfl⟩
  · exact roundTrip4 hin rct_cellPair hlegal (runsConversion_rctdF s) runsConversion_rctdI
  · exact roundTrip4 hin ycgco_cellPair hlegal (runsConversion_ycgcodF s) runsConversion_ycgcodI

/-- Settles O57: the chromas come back first, then the greens, then red and blue. -/
theorem rct422RoundTrip : Obligations.Rct422RoundTrip := by
  intro s t bases hshape hformats hdepth hlegal hfit hapart hexec
  have hleaves := leaves_rct422Outs hshape hformats hdepth hfit hapart hexec
  exact inverse422_gives_back hshape hformats hdepth hlegal (hleaves.withBases bases)

end Sys2Proof.Proofs

/-!
The CFA-grid round trips (`spec/43_conversion_common.md` rule R171 item 1, `spec/45_lifting_cfa.md` rules R221 to R233): a pass reads
only positions it leaves unchanged, so the pass of the opposite sign undoes it; encoding and decoding agree modulo `2^m`; and the
four phases of a cell hold the whole plane.
-/

namespace Sys2Proof.Proofs

open Sys2Proof Sys2Proof.Machine Sys2Proof.Laws Sys2Proof.Claims

/-! ### One pass and its inverse (rules R222, R223, R226) -/

/-- The planes are equal at every position of a component of these sizes. -/
def AgreeOn (w h : Nat) (P Q : Plane) : Prop := ∀ x y, Within w h x y → P x y = Q x y

/-- At a position of phase `p` the neighbour sum reads only positions of the component that have another phase. -/
def ReadsOtherPhases (w h : Nat) (p : Phase) (nb : Plane → Plane) : Prop :=
  ∀ P Q : Plane, (∀ u v, Within w h u v → phaseOf u v ≠ p → P u v = Q u v) →
    ∀ x y, Within w h x y → phaseOf x y = p → nb P x y = nb Q x y

/-- Every value of the plane is a signed `m`-bit number. -/
def SignedPlane (m : Nat) (P : Plane) : Prop := ∀ x y, legal true m (P x y)

theorem phaseOf_eq_iff {x y u v : Int} : phaseOf u v = phaseOf x y ↔ u % 2 = x % 2 ∧ v % 2 = y % 2 := by
  have hparity (a b : Int) : ((if a % 2 = 0 then 0 else 1 : Fin 2) = if b % 2 = 0 then 0 else 1) ↔ a % 2 = b % 2 := by
    rcases Int.emod_two_eq a with ha | ha <;> rcases Int.emod_two_eq b with hb | hb <;> simp [ha, hb]
  rw [phaseOf, phaseOf, Phase.mk.injEq, hparity, hparity]

section
variable {w h : Nat} {d : Int}

/-- A mirrored neighbour one step away lies in the component, and its parity is the other one. -/
theorem mirror_neighbour {i n : Int} (hn : 2 ≤ n) (hi : 0 ≤ i ∧ i < n) (hd : d = 1 ∨ d = -1) :
    (0 ≤ mirror (i + d) n ∧ mirror (i + d) n < n) ∧ mirror (i + d) n % 2 ≠ i % 2 := by
  rw [mirror_emod_two]
  exact ⟨mirror_mem hn (by omega) (by omega), by omega⟩

theorem diag_readsOtherPhases (hw : 2 ≤ w) (hh : 2 ≤ h) (p : Phase) : ReadsOtherPhases w h p (diag w h) := by
  rintro P Q hPQ x y ⟨hx, hy⟩ rfl
  have hnb (d e : Int) (hd : d = 1 ∨ d = -1) (he : e = 1 ∨ e = -1) :
      P (mirror (x + d) w) (mirror (y + e) h) = Q (mirror (x + d) w) (mirror (y + e) h) := by
    obtain ⟨hmx, hpar⟩ := mirror_neighbour (Nat.ofNat_le_cast.2 hw) hx hd
    obtain ⟨hmy, -⟩ := mirror_neighbour (Nat.ofNat_le_cast.2 hh) hy he
    exact hPQ _ _ ⟨hmx, hmy⟩ fun hphase => hpar (phaseOf_eq_iff.1 hphase).1
  simp only [diag, sub_eq_add_neg]
  rw [hnb (-1) (-1) (by simp) (by simp), hnb 1 (-1) (by simp) (by simp), hnb (-1) 1 (by simp) (by simp),
    hnb 1 1 (by simp) (by simp)]

theorem pair_readsOtherPhases (hw : 2 ≤ w) (hh : 2 ≤ h) (vertical : Bool) (p : Phase) :
    ReadsOtherPhases w h p (pair w h vertical) := by
  rintro P Q hPQ x y ⟨hx, hy⟩ rfl
  have hcolumn (e : Int) (he : e = 1 ∨ e = -1) : P x (mirror (y + e) h) = Q x (mirror (y + e) h) := by
    obtain ⟨hmy, hpar⟩ := mirror_neighbour (Nat.ofNat_le_cast.2 hh) hy he
    exact hPQ _ _ ⟨hx, hmy⟩ fun hphase => hpar (phaseOf_eq_iff.1 hphase).2
  have hrow (d : Int) (hd : d = 1 ∨ d = -1) : P (mirror (x + d) w) y = Q (mirror (x + d) w) y := by
    obtain ⟨hmx, hpar⟩ := mirror_neighbour (Nat.ofNat_le_cast.2 hw) hx hd
    exact hPQ _ _ ⟨hmx, hy⟩ fun hphase => hpar (phaseOf_eq_iff.1 hphase).1
  simp only [pair, sub_eq_add_neg]
  rw [hcolumn (-1) (by simp), hcolumn 1 (by simp), hrow (-1) (by simp), hrow 1 (by simp)]

end

section
variable {w h m : Nat} {p : Phase} {nb : Plane → Plane} {sg sg' bias : Int} {sh : Nat} {P Q : Plane}

theorem signedPlane_ww (hm : 1 ≤ m) (P : Plane) : SignedPlane m (fun x y => ww m (P x y)) := fun _ _ => wrap_legal _ _ hm

theorem signedPlane_lift (hm : 1 ≤ m) (hP : SignedPlane m P) : SignedPlane m (lift m P p nb sg bias sh) := by
  intro x y
  rw [lift]
  split
  · exact wrap_legal _ _ hm
  · exact hP x y

theorem ww_of_signed (hm : 1 ≤ m) {v : Int} (hv : legal true m v) : ww m v = v := wrap_of_legal hm hv

/-- Taking off after the wrap what was added before it. -/
theorem ww_sub_ww_add (hm : 1 ≤ m) {v : Int} (hv : legal true m v) (d : Int) : ww m (ww m (v + d) - d) = v := by
  rw [ww, ww, sub_eq_add_neg, wrap_add_wrap, add_neg_cancel_right, wrap_of_legal hm hv]

/-- Adding after the wrap what was taken off before it. -/
theorem ww_add_ww_sub (hm : 1 ≤ m) {v : Int} (hv : legal true m v) (d : Int) : ww m (ww m (v - d) + d) = v := by
  rw [ww, ww, wrap_add_wrap, sub_add_cancel, wrap_of_legal hm hv]

/-- The pass of the opposite sign undoes a pass, on any plane that agrees with what the pass left. -/
theorem lift_undoes (hnb : ReadsOtherPhases w h p nb) (hm : 1 ≤ m) (hP : SignedPlane m P) (hsign : sg' = -sg)
    (hQ : AgreeOn w h Q (lift m P p nb sg bias sh)) : AgreeOn w h (lift m Q p nb sg' bias sh) P := by
  intro x y hxy
  have hnbeq (hphase : phaseOf x y = p) : nb Q x y = nb P x y := by
    refine hnb Q P (fun u v huv hother => ?_) x y hxy hphase
    rw [hQ u v huv, lift, if_neg hother]
  by_cases hphase : phaseOf x y = p
  · rw [lift, if_pos hphase, hnbeq hphase, hQ x y hxy, lift, if_pos hphase, hsign, neg_mul, ← sub_eq_add_neg]
    exact ww_sub_ww_add hm (hP x y) _
  · rw [lift, if_neg hphase, hQ x y hxy, lift, if_neg hphase]

end

/-! ### Cells (rules R17, R18, R151) -/

/-- Every phase is the position of a sample of the arrangement. -/
def Tiles (p : Positions) : Prop := ∀ q : Phase, q = p.r ∨ q = p.g ∨ q = p.k ∨ q = p.b

theorem tiles_pos (arr : Arrangement) : Tiles (pos arr) := by
  rintro ⟨x, y⟩
  cases arr <;> fin_cases x <;> fin_cases y <;> decide

theorem tiles_rasterOrder : Tiles rasterOrder := by
  rintro ⟨x, y⟩
  fin_cases x <;> fin_cases y <;> decide

theorem cellAt_of_phaseOf (P : Plane) {x y : Int} {q : Phase} (h : phaseOf x y = q) : cellAt P q (x / 2) (y / 2) = P x y := by
  subst h
  have hx := Int.emod_two_eq x
  have hy := Int.emod_two_eq y
  have hcoord : 2 * (x / 2) + ((phaseOf x y).x.val : Int) = x ∧ 2 * (y / 2) + ((phaseOf x y).y.val : Int) = y := by
    rcases hx with hx | hx <;> rcases hy with hy | hy <;> simp only [phaseOf, hx, hy] <;> constructor <;> norm_num <;> omega
  rw [cellAt, hcoord.1, hcoord.2]

/-- A plane is put together again from the four phases of each cell. -/
theorem scatter_of_cells {p : Positions} (hp : Tiles p) {r g k b P : Plane} {x y : Int}
    (hr : r (x / 2) (y / 2) = cellAt P p.r (x / 2) (y / 2)) (hg : g (x / 2) (y / 2) = cellAt P p.g (x / 2) (y / 2))
    (hk : k (x / 2) (y / 2) = cellAt P p.k (x / 2) (y / 2)) (hb : b (x / 2) (y / 2) = cellAt P p.b (x / 2) (y / 2)) :
    scatter p r g k b x y = P x y := by
  simp only [scatter]
  split
  · rw [hr, cellAt_of_phaseOf P ‹_›]
  · split
    · rw [hg, cellAt_of_phaseOf P ‹_›]
    · split
      · rw [hk, cellAt_of_phaseOf P ‹_›]
      · have hphase : phaseOf x y = p.b := by
          rcases hp (phaseOf x y) with h | h | h | h
          · contradiction
          · contradiction
          · contradiction
          · exact h
        rw [hb, cellAt_of_phaseOf P hphase]

section
variable (v00 v10 v01 v11 : Plane) (i j : Int)

@[simp] theorem packCells_00 : packCells v00 v10 v01 v11 (2 * i) (2 * j) = v00 i j := by simp [packCells]

@[simp] theorem packCells_10 : packCells v00 v10 v01 v11 (2 * i + 1) (2 * j) = v10 i j := by
  simp [packCells, show (2 * i + 1) / 2 = i by omega]

@[simp] theorem packCells_01 : packCells v00 v10 v01 v11 (2 * i) (2 * j + 1) = v01 i j := by
  simp [packCells, show (2 * j + 1) / 2 = j by omega]

@[simp] theorem packCells_11 : packCells v00 v10 v01 v11 (2 * i + 1) (2 * j + 1) = v11 i j := by
  simp [packCells, show (2 * i + 1) / 2 = i by omega, show (2 * j + 1) / 2 = j by omega]

end

/-! ### The transforms undo each other (rules R221, R228 to R233) -/

/-- Decoding undoes encoding with the same offset. -/
theorem dec_enc {m : Nat} (hm : 1 ≤ m) {v : Int} (hv : legal true m v) (cs : Bool) (o : Int) : dec m (enc m cs v o) o = v := by
  rw [dec, enc, ww, sub_eq_add_neg, wrap_add_wrap, add_neg_cancel_right, wrap_of_legal hm hv]

/-- A grid the commands admit, on a component of these sizes (rules R220, R222, R224). -/
structure Admits (c : Grid) (w h : Nat) : Prop where
  width : c.W = w
  height : c.H = h
  depth : 2 ≤ c.m
  tiles : Tiles c.p
  width_pos : 2 ≤ w
  height_pos : 2 ≤ h
  width_even : w % 2 = 0
  height_even : h % 2 = 0

/-- The inverse transform gives back the samples the forward transform was given, if they are legal for the CFA image, whose depth
is one less than that of the grid. -/
def TransformUndoes (fwd inv : Grid → Plane → Plane) : Prop :=
  ∀ {c : Grid} {w h : Nat}, Admits c w h → ∀ {S T : Plane}, (∀ x y, Within w h x y → legal c.cs (c.m - 1) (S x y)) →
    AgreeOn w h T (fwd c S) → AgreeOn w h (inv c T) S

section
variable {c : Grid} {w h : Nat} (hc : Admits c w h)
include hc

theorem Admits.depth_pos : 1 ≤ c.m := Nat.le_of_succ_le hc.depth

theorem Admits.diag_reads (p : Phase) : ReadsOtherPhases w h p (diag c.W c.H) := by
  rw [hc.width, hc.height]
  exact diag_readsOtherPhases hc.width_pos hc.height_pos p

theorem Admits.pair_reads (p : Phase) : ReadsOtherPhases w h p (pair c.W c.H (vert c.p)) := by
  rw [hc.width, hc.height]
  exact pair_readsOtherPhases hc.width_pos hc.height_pos _ p

theorem Admits.signed_workingPlane (S : Plane) : SignedPlane c.m (workingPlane c.m S) := signedPlane_ww hc.depth_pos S

section
variable {P T : Plane} (hP : SignedPlane c.m P)
include hP

theorem Admits.signed_rctxPasses : SignedPlane c.m (rctxPasses c P) :=
  signedPlane_lift hc.depth_pos (signedPlane_lift hc.depth_pos hP)

theorem Admits.rctxUnpasses_undoes (hT : AgreeOn w h T (rctxPasses c P)) : AgreeOn w h (rctxUnpasses c T) P := by
  have hm := hc.depth_pos
  exact lift_undoes (hc.diag_reads _) hm hP rfl (lift_undoes (hc.diag_reads _) hm (signedPlane_lift hm hP) rfl hT)

theorem Admits.signed_ydgcocgxPasses : SignedPlane c.m (ydgcocgxPasses c P) := by
  have hm := hc.depth_pos
  exact signedPlane_lift hm (signedPlane_lift hm (signedPlane_lift hm (signedPlane_lift hm (hc.signed_rctxPasses hP))))

theorem Admits.ydgcocgxUnpasses_undoes (hT : AgreeOn w h T (ydgcocgxPasses c P)) : AgreeOn w h (ydgcocgxUnpasses c T) P := by
  have hm := hc.depth_pos
  have hT2 := hc.signed_rctxPasses hP
  refine hc.rctxUnpasses_undoes hP (lift_undoes (hc.diag_reads _) hm hT2 rfl (lift_undoes (hc.diag_reads _) hm ?T3 rfl
    (lift_undoes (hc.pair_reads _) hm ?T4 rfl (lift_undoes (hc.pair_reads _) hm ?T5 rfl hT))))
  case T3 => exact signedPlane_lift hm hT2
  case T4 => exact signedPlane_lift hm (signedPlane_lift hm hT2)
  case T5 => exact signedPlane_lift hm (signedPlane_lift hm (signedPlane_lift hm hT2))

end

/-- The last step of an inverse transform: legal samples survive the working plane and the clamp. -/
theorem Admits.clamp_workingPlane {S P : Plane} (hS : ∀ x y, Within w h x y → legal c.cs (c.m - 1) (S x y))
    (hP : AgreeOn w h P (workingPlane c.m S)) : AgreeOn w h (fun x y => clamp (P x y) c.cs (c.m - 1)) S := by
  intro x y hxy
  have hm := hc.depth
  have hlegal := hS x y hxy
  have hsigned : legal true c.m (S x y) := by
    have hzero : legal c.cs (c.m - 1) 0 := legal_zero _ _
    have hwide := legal_sub (by omega) hlegal hzero
    rwa [sub_zero, Nat.sub_add_cancel (by omega)] at hwide
  show clamp (P x y) c.cs (c.m - 1) = S x y
  rw [hP x y hxy, workingPlane, ww_of_signed hc.depth_pos hsigned, clamp_of_legal hlegal]

/-- The four positions of the cell of a position lie in the component. -/
theorem Admits.cell_within {x y : Int} (hxy : Within w h x y) :
    Within w h (2 * (x / 2)) (2 * (y / 2)) ∧ Within w h (2 * (x / 2) + 1) (2 * (y / 2))
      ∧ Within w h (2 * (x / 2)) (2 * (y / 2) + 1) ∧ Within w h (2 * (x / 2) + 1) (2 * (y / 2) + 1) := by
  have hweven := hc.width_even
  have hheven := hc.height_even
  omega

end

/-- The stored cell decodes to the luma, the two chromas and the delta of the forward transform. The luma less the shift of the
chromas is the first green again, and the chromas plus that green are red and blue. -/
theorem rctx_undoes : TransformUndoes rctxForward rctxInverse := by
  intro c w h hc S T hS hT
  have hm := hc.depth_pos
  have hT2 := hc.signed_rctxPasses (hc.signed_workingPlane S)
  refine hc.clamp_workingPlane hS (hc.rctxUnpasses_undoes (hc.signed_workingPlane S) fun x y hxy => ?_)
  obtain ⟨h00, h10, h01, h11⟩ := hc.cell_within hxy
  have hww (v : Int) : legal true c.m (ww c.m v) := wrap_legal _ _ hm
  have hcell (p : Phase) (i j : Int) : legal true c.m (cellAt (rctxPasses c (workingPlane c.m S)) p i j) := hT2 _ _
  refine scatter_of_cells hc.tiles ?red ?green1 ?green2 ?blue
  all_goals
    simp only [hT _ _ h00, hT _ _ h10, hT _ _ h01, hT _ _ h11, rctxForward, packCells_00, packCells_10, packCells_01, packCells_11,
      dec_enc hm (hww _), dec_enc hm (hcell _ _ _), ww_sub_ww_add hm (hcell _ _ _)]
  case red => exact ww_add_ww_sub hm (hcell _ _ _) _
  case blue => exact ww_add_ww_sub hm (hcell _ _ _) _

/-- The stored cell decodes to the four phases of the last pass. -/
theorem ydgcocgx_undoes : TransformUndoes ydgcocgxForward ydgcocgxInverse := by
  intro c w h hc S T hS hT
  have hm := hc.depth_pos
  have hT6 := hc.signed_ydgcocgxPasses (hc.signed_workingPlane S)
  refine hc.clamp_workingPlane hS (hc.ydgcocgxUnpasses_undoes (hc.signed_workingPlane S) fun x y hxy => ?_)
  obtain ⟨h00, h10, h01, h11⟩ := hc.cell_within hxy
  have hcell (p : Phase) (i j : Int) : legal true c.m (cellAt (ydgcocgxPasses c (workingPlane c.m S)) p i j) := hT6 _ _
  refine scatter_of_cells hc.tiles ?red ?green1 ?green2 ?blue
  all_goals
    simp only [hT _ _ h00, hT _ _ h10, hT _ _ h01, hT _ _ h11, ydgcocgxForward, packCells_00, packCells_10, packCells_01,
      packCells_11, dec_enc hm (hcell _ _ _)]

/-! ### The grid of the second command (rule R220) -/

theorem cfaError_of_gridInput {s : State} {low high : Nat} {depths : Bool} (hin : GridInput s low high) (hlow : 1 ≤ low)
    (hhigh : high ≤ 32) (hdepths : depths = true) : cfaError s depths = none := by
  have htyped := typed_of_gridInput hin hlow hhigh
  obtain ⟨hsizes, hfloat, hsigned, -⟩ := hin
  rw [cfaError_eq, if_pos (cfaSizes_iff.1 hsizes), if_pos (gridType_iff.1 ⟨allTyped_one.2 htyped, hfloat, hsigned⟩), if_pos hdepths]

theorem admits_gridOf {s : State} (hin : GridInput s 1 31) {p : Positions} (hp : Tiles p) :
    Admits (gridOf s p (nOf s)) (s.slot 0).width (s.slot 0).height := by
  obtain ⟨⟨-, hw, hh, hweven, hheven⟩, -, -, hlow, -⟩ := hin
  exact ⟨rfl, rfl, Nat.succ_le_succ hlow, hp, by omega, by omega, hweven, hheven⟩

section
variable {s t : State} {P : Plane} (h : LeavesImage s t (gridOut s (nOf s + 1) P))
include h

/-- The component a forward command leaves. -/
theorem holdsComp_grid : HoldsComp t.mem (t.slot 0)
    ⟨(s.slot 0).width, (s.slot 0).height, nOf s + 1, s.cs, false, 1, 1, P⟩ := h.holds.comp 0 _ rfl

theorem nOf_of_leaves : nOf t - 1 = nOf s := congrArg (· - 1) (holdsComp_grid h).depth

/-- Both commands work with the same grid. -/
theorem gridOf_of_leaves (p : Positions) : gridOf t p (nOf t - 1) = gridOf s p (nOf s) := by
  have hcomp := holdsComp_grid h
  rw [nOf_of_leaves h, gridOf, hcomp.width, hcomp.height, h.cs, gridOf]

variable (hin : GridInput s 1 31)
include hin

theorem gridInput_of_leaves : GridInput t 2 32 := by
  have hcomp := holdsComp_grid h
  have hwidth : (t.slot 0).width = (s.slot 0).width := hcomp.width
  have hheight : (t.slot 0).height = (s.slot 0).height := hcomp.height
  obtain ⟨⟨-, hsizes⟩, -, -, hlow, hhigh⟩ := hin
  refine ⟨⟨h.holds.count, by rwa [hwidth, hheight]⟩, hcomp.float, hcomp.signed.trans h.cs.symm, ?_, ?_⟩
  · exact (Nat.succ_le_succ hlow).trans_eq hcomp.depth.symm
  · exact hcomp.depth.trans_le (Nat.succ_le_succ hhigh)

/-- The first image is the component the inverse command makes, if that has the samples of the first image. -/
theorem holds_gridOut {Q : Plane} (hQ : AgreeOn (s.slot 0).width (s.slot 0).height Q (load s.mem (s.slot 0))) :
    HoldsImage s (gridOut t (nOf t - 1) Q) := by
  have hcomp := holdsComp_grid h
  have hdepth := nOf_of_leaves h
  obtain ⟨⟨hcount, -⟩, hfloat, hsigned, -⟩ := hin
  refine ⟨hcount, ?_⟩
  simp only [gridOut, hcomp.width, hcomp.height, hdepth, h.cs, forall_getElem?_cons, forall_getElem?_nil, and_true]
  exact ⟨rfl, rfl, rfl, hsigned, hfloat, fun x y hxy => (hQ x y hxy).symm⟩

end

/-! ### The two commands -/

/-- The extent of the component does not depend on its samples. -/
theorem extent_gridOut (s : State) (depth : Nat) (P Q : Plane) :
    (gridOut s depth P).map extent = (gridOut s depth Q).map extent := rfl


/-- A forward transform that encodes, and an inverse transform that clamps and undoes it. -/
structure GridPair (fwd inv : Grid → Plane → Plane) : Prop where
  undoes : TransformUndoes fwd inv
  encodes : ∀ g : Grid, 1 ≤ g.m → ∀ S x y, legal g.cs g.m (fwd g S x y)
  clamps : ∀ (g : Grid) (S : Plane) x y, legal g.cs (g.m - 1) (inv g S x y)

theorem rctx_gridPair : GridPair rctxForward rctxInverse :=
  ⟨rctx_undoes, fun _ => rctxForward_legal, fun _ _ _ _ => clamp_legal _ _ _⟩

theorem ydgcocgx_gridPair : GridPair ydgcocgxForward ydgcocgxInverse :=
  ⟨ydgcocgx_undoes, fun _ => ydgcocgxForward_legal, fun _ _ _ _ => clamp_legal _ _ _⟩

section
variable {fwd inv : Grid → Plane → Plane} (hpair : GridPair fwd inv) {s t : State} (hin : GridInput s 1 31) {p : Positions}
  {F I : Instr}
include hpair hin

/-- What a forward command leaves. -/
theorem leaves_gridOut (hF : RunsConversion F s (cfaError s (cfaForwardDepths s)) (cfaForward fwd s p))
    (hfit : BuffersFit s [s.slot 0] (gridOut s (nOf s + 1) (fun _ _ => 0)))
    (hapart : BuffersApart s [s.slot 0] (gridOut s (nOf s + 1) (fun _ _ => 0))) (hnext : exec F s = .next t) :
    LeavesImage s t (gridOut s (nOf s + 1) (fwd (gridOf s p (nOf s)) (load s.mem (s.slot 0)))) := by
  have htyped := typed_of_gridInput hin (le_refl 1) (by decide)
  obtain ⟨-, -, -, -, hle⟩ := id hin
  rw [cfaError_of_gridInput hin (le_refl 1) (by decide) (cfaForwardDepths_iff.1 hle)] at hF
  exact leavesImage_of_convertsTo (hF.convertsTo (cfaForward_makes htyped hle hpair.encodes rfl)
    ((buffersFit_congr (extent_gridOut s _ _ _)).1 hfit) ((buffersApart_congr (extent_gridOut s _ _ _)).1 hapart)) hnext

/-- The inverse command on what the forward one has left. -/
theorem grid_gives_back (hp : Tiles p) (hlegal : LegalSamples s 1)
    (h : LeavesImage s t (gridOut s (nOf s + 1) (fwd (gridOf s p (nOf s)) (load s.mem (s.slot 0)))))
    (hI : RunsConversion I t (cfaError t (cfaInverseDepths t)) (cfaInverse inv t p))
    (hfit : BuffersFit t [t.slot 0] (gridOut t (nOf s) (fun _ _ => 0)))
    (hapart : BuffersApart t [t.slot 0] (gridOut t (nOf s) (fun _ _ => 0))) :
    ∃ u, exec I t = .next u ∧ doneFlag u.status = true ∧ SameImage s u 1 := by
  have hin' := gridInput_of_leaves h hin
  have htyped := typed_of_gridInput hin' (by decide) (le_refl 32)
  obtain ⟨-, -, -, hlow, hhigh⟩ := id hin'
  obtain ⟨-, -, hsigned, -⟩ := id hin
  have hsamples : ∀ x y, Within (s.slot 0).width (s.slot 0).height x y → legal s.cs (nOf s) (load s.mem (s.slot 0) x y) :=
    fun x y hxy => hsigned ▸ legal_inSample hlegal (by decide) hxy
  have hback := hpair.undoes (admits_gridOf hin hp) hsamples (holdsComp_grid h).sample
  rw [← gridOf_of_leaves h] at hback
  rw [cfaError_of_gridInput hin' (by decide) (le_refl 32) (cfaInverseDepths_iff.1 ⟨hlow, hhigh⟩)] at hI
  rw [← nOf_of_leaves h] at hfit hapart
  exact gives_back (hI.convertsTo (cfaInverse_makes htyped hlow hhigh hpair.clamps rfl)
    ((buffersFit_congr (extent_gridOut t _ _ _)).1 hfit) ((buffersApart_congr (extent_gridOut t _ _ _)).1 hapart)) rfl
    (holds_gridOut h hin hback)

end

/-- A forward command and its inverse, with the same arrangement. -/
theorem gridRoundTrip_of_gridPair {fwd inv : Grid → Plane → Plane} (hpair : GridPair fwd inv) {a : Nat} (ha : a < 4) {s t : State}
    {bases : Quad Word} {F I : Instr}
    (hF : RunsArranged F a s (fun s => cfaError s (cfaForwardDepths s)) (fun p s => cfaForward fwd s p))
    (hI : ∀ t, RunsArranged I a t (fun s => cfaError s (cfaInverseDepths s)) (fun p s => cfaInverse inv s p))
    (hin : GridInput s 1 31) (hlegal : LegalSamples s 1) (hfit : BuffersFit s [s.slot 0] (gridOut s (nOf s + 1) (fun _ _ => 0)))
    (hapart : BuffersApart s [s.slot 0] (gridOut s (nOf s + 1) (fun _ _ => 0))) (hnext : exec F s = .next t)
    (hfit' : BuffersFit { t with outBase := bases } [t.slot 0] (gridOut t (nOf s) (fun _ _ => 0)))
    (hapart' : BuffersApart { t with outBase := bases } [t.slot 0] (gridOut t (nOf s) (fun _ _ => 0))) :
    ∃ u, exec I { t with outBase := bases } = .next u ∧ doneFlag u.status = true ∧ SameImage s u 1 := by
  obtain ⟨arr, harr, -⟩ := exists_arrangement ha
  have h := (leaves_gridOut hpair hin (hF.runsConversion harr) hfit hapart hnext).withBases bases
  exact grid_gives_back hpair hin (tiles_pos arr) hlegal h ((hI _).runsConversion harr) hfit' hapart'

/-! ### The obligation -/

/-- Settles O58: both transforms are undone on the grid the two commands share. -/
theorem gridRoundTrip : Obligations.GridRoundTrip := by
  intro a s t bases F I hpair ha
  simp only [List.mem_cons, List.not_mem_nil, or_false, Prod.mk.injEq] at hpair
  rcases hpair with ⟨rfl, rfl⟩ | ⟨rfl, rfl⟩
  · exact gridRoundTrip_of_gridPair rctx_gridPair ha (runsArranged_rctxF a s) (runsArranged_rctxI a)
  · exact gridRoundTrip_of_gridPair ydgcocgx_gridPair ha (runsArranged_ydgcocgxF a s) (runsArranged_ydgcocgxI a)

end Sys2Proof.Proofs

/-!
The layout round trips (`spec/43_conversion_common.md` rule R171 item 3): the four phases of a CFA image are put back where they were
taken from, and copying a copy changes nothing more.
-/

namespace Sys2Proof.Proofs

open Sys2Proof Sys2Proof.Machine Sys2Proof.Laws Sys2Proof.Claims

/-! ### Copies of copies (rules R170, R251) -/

/-- A sample as one copy of the CFA image of `s` stores it. -/
abbrev copiedPlane (s : State) : Plane := fun x y => copiedValue (s.slot 0) (inSample s 0 x y)

/-- Copying a copy changes nothing more, under the same type. -/
theorem copiedValue_idem {d e : Slot} (h : e.depth = d.depth ∧ e.signed = d.signed ∧ e.isFloat = d.isFloat) (hd : 1 ≤ d.depth)
    (v : Int) : copiedValue e (copiedValue d v) = copiedValue d v := by
  obtain ⟨hdepth, hsigned, hfloat⟩ := h
  simp only [← copiedSample_eq_copiedValue]
  exact copiedSample_idem hsigned hdepth hfloat hd v

/-- A legal sample, a float and, under rule R251, every sample is copied unchanged. -/
theorem copiedValue_eq_self {d : Slot} {v : Int}
    (h : legal d.signed d.depth v ∨ d.isFloat = true ∨ Config.layoutKeepsIllegalSamples = true) : copiedValue d v = v := by
  rw [← copiedSample_eq_copiedValue]
  rcases h with hlegal | hfloat | hkept
  · exact copiedSample_of_legal hlegal
  · exact copiedSample_float hfloat v
  · exact copiedSample_kept hkept d v

/-- Where one copy changes no sample, the copied image is the image itself. -/
theorem sameImage_of_copiedImage {s u : State} (h : CopiedImage s u)
    (hkeeps : LegalSamples s 1 ∨ (s.slot 0).isFloat = true ∨ Config.layoutKeepsIllegalSamples = true) : SameImage s u 1 := by
  obtain ⟨hcount, hwidth, hheight, hdepth, hsigned, -, hsample⟩ := h
  refine ⟨hcount, fun c hc => ?_⟩
  obtain rfl := Nat.lt_one_iff.1 hc
  refine ⟨hwidth, hheight, hdepth, hsigned, fun x y hx hy => (hsample x y hx hy).trans (copiedValue_eq_self ?_)⟩
  exact hkeeps.imp_left fun hlegal => hlegal 0 Nat.one_pos x hx y hy

section
variable {s t : State} {i : Instr} {w h imgW imgH : Nat} {P : Plane}

/-- A command that makes one component of the size and the type of the CFA image of `s`, from samples that are copies already, gives
that image back as one copy stores it. -/
theorem copies_back (hconverts : ConvertsTo i t [copied t w h 1 P] imgW imgH) (hcount : s.imgDepth.toNat = 1)
    (hw : w = (s.slot 0).width) (hh : h = (s.slot 0).height) (hd : 1 ≤ (s.slot 0).depth)
    (htype : (t.slot 0).depth = (s.slot 0).depth ∧ (t.slot 0).signed = (s.slot 0).signed ∧ (t.slot 0).isFloat = (s.slot 0).isFloat)
    (hP : AgreeOn w h P (copiedPlane s)) :
    ∃ u, exec i t = .next u ∧ doneFlag u.status = true ∧ CopiedImage s u
      ∧ (LegalSamples s 1 ∨ (s.slot 0).isFloat = true ∨ Config.layoutKeepsIllegalSamples = true → SameImage s u 1) := by
  obtain ⟨u, hexec, hdone, hleaves⟩ := completes_of_convertsTo hconverts
  have hcomp : HoldsComp u.mem (u.slot 0) (copied t w h 1 P) := hleaves.holds.comp 0 _ rfl
  obtain ⟨hdepth, hsigned, hfloat⟩ := id htype
  have himage : CopiedImage s u := by
    refine ⟨BitVec.eq_of_toNat_eq (hcount.trans hleaves.holds.count.symm), hcomp.width.trans hw, hcomp.height.trans hh,
      hcomp.depth.trans hdepth, hcomp.signed.trans hsigned, hcomp.float.trans hfloat, fun x y hx hy => ?_⟩
    have hxy : Within w h x y := by omega
    calc inSample u 0 x y = copiedValue (t.slot 0) (P x y) := hcomp.sample x y hxy
      _ = copiedValue (t.slot 0) (copiedPlane s x y) := by rw [hP x y hxy]
      _ = copiedPlane s x y := copiedValue_idem htype hd _
  exact ⟨u, hexec, hdone, himage, sameImage_of_copiedImage himage⟩

end

/-! ### Four planes (rules R252 to R256) -/

theorem typed_congr {d e : Slot} (h : e.depth = d.depth ∧ e.signed = d.signed ∧ e.isFloat = d.isFloat) : typed e = typed d := by
  rw [typed, etype_congr h, typed]

/-- The four planes by name of their position. -/
theorem planesOf_phaseList (s : State) (p : Positions) : planesOf (phaseList p) s =
    [p.r, p.g, p.k, p.b].map fun q => copied s ((s.slot 0).width / 2) ((s.slot 0).height / 2) 1 (cellAt (inSample s 0) q) := rfl

theorem cfaOf_phaseList (s : State) (p : Positions) : cfaOf (phaseList p) s =
    [copied s (2 * (s.slot 0).width) (2 * (s.slot 0).height) 1
      (scatter p (inSample s 0) (inSample s 1) (inSample s 2) (inSample s 3))] := by
  rw [cfaOf_eq]
  simp only [planesToCfa, List.map_cons, List.map_nil, compOf_copyOutput]

theorem exists_plane (p : Positions) {c : Nat} (hc : c < 4) : ∃ q, [p.r, p.g, p.k, p.b][c]? = some q :=
  ⟨_, List.getElem?_eq_getElem hc⟩

section
variable {s t : State} {p : Positions} (h : LeavesImage s t (planesOf (phaseList p) s))
include h

/-- Slot `n` holds the phase of position `q`. -/
theorem holdsComp_plane {n : Nat} {q : Phase} (hq : [p.r, p.g, p.k, p.b][n]? = some q) : HoldsComp t.mem (t.slot n)
    (copied s ((s.slot 0).width / 2) ((s.slot 0).height / 2) 1 (cellAt (inSample s 0) q)) :=
  h.holds.comp n _ (by rw [planesOf_phaseList, List.getElem?_map, hq, Option.map_some])

theorem equalFormats_planes : EqualFormats t 4 := by
  have hfirst := holdsComp_plane h (n := 0) rfl
  intro c hc
  obtain ⟨q, hq⟩ := exists_plane p hc
  have hplane := holdsComp_plane h hq
  exact ⟨hplane.depth.trans hfirst.depth.symm, hplane.signed.trans hfirst.signed.symm, hplane.float.trans hfirst.float.symm⟩

/-- The planes have the type of the CFA image. -/
theorem planes_type : (t.slot 0).depth = (s.slot 0).depth ∧ (t.slot 0).signed = (s.slot 0).signed
    ∧ (t.slot 0).isFloat = (s.slot 0).isFloat := by
  have hfirst := holdsComp_plane h (n := 0) rfl
  exact ⟨hfirst.depth, hfirst.signed, hfirst.float⟩

theorem planesCopyError_planes (hsizes : CfaSizes s) (htyped : typed (s.slot 0) = true) : planesCopyError t = none := by
  have hfirst := holdsComp_plane h (n := 0) rfl
  have hwidth : (t.slot 0).width = (s.slot 0).width / 2 := hfirst.width
  have hheight : (t.slot 0).height = (s.slot 0).height / 2 := hfirst.height
  obtain ⟨-, hw, hh, hweven, hheven⟩ := hsizes
  have hequal : EqualSizes t 4 := by
    refine ⟨h.holds.count, by omega, by omega, fun c hc => ?_⟩
    obtain ⟨q, hq⟩ := exists_plane p hc
    have hplane := holdsComp_plane h hq
    exact ⟨hplane.width.trans hfirst.width.symm, hplane.height.trans hfirst.height.symm⟩
  have hsubs : ∀ c < 4, (t.slot c).subX = 1 ∧ (t.slot c).subY = 1 := by
    intro c hc
    obtain ⟨q, hq⟩ := exists_plane p hc
    exact h.subs c _ (by rw [planesOf_phaseList, List.getElem?_map, hq, Option.map_some])
  rw [planesCopyError_eq, if_pos (equalSizes_iff.1 hequal), if_pos (planeFormats_iff.1 ⟨equalFormats_planes h, hsubs⟩),
    if_pos ((typed_congr (planes_type h)).trans htyped)]

/-- Each sample comes back to the position it was taken from. -/
theorem scatter_planes (hp : Tiles p) (hweven : (s.slot 0).width % 2 = 0) (hheven : (s.slot 0).height % 2 = 0) :
    AgreeOn (s.slot 0).width (s.slot 0).height (scatter p (inSample t 0) (inSample t 1) (inSample t 2) (inSample t 3))
      (copiedPlane s) := by
  intro x y hxy
  have hcell : Within ((s.slot 0).width / 2) ((s.slot 0).height / 2) (x / 2) (y / 2) := by omega
  exact scatter_of_cells hp ((holdsComp_plane h (n := 0) rfl).sample _ _ hcell) ((holdsComp_plane h (n := 1) rfl).sample _ _ hcell)
    ((holdsComp_plane h (n := 2) rfl).sample _ _ hcell) ((holdsComp_plane h (n := 3) rfl).sample _ _ hcell)

end

/-! The extents of the components do not depend on the positions. -/

theorem extent_planesOf (s : State) (p : Positions) :
    (planesOf rasterPhases s).map extent = (planesOf (phaseList p) s).map extent := by
  simp only [planesOf, List.map_map]
  rfl

theorem extent_cfaOf (s : State) (p : Positions) : (cfaOf rasterPhases s).map extent = (cfaOf (phaseList p) s).map extent := by
  simp only [cfaOf, List.map_cons, List.map_nil]
  rfl

/-- From a CFA image to its four planes and back, with the same positions. -/
theorem planesRoundTrip_of_tiles {s t : State} {bases : Quad Word} {F I : Instr} {p : Positions} (hp : Tiles p)
    (hF : RunsConversion F s (cfaCopyError s) (cfaToPlanes p s))
    (hI : ∀ t, RunsConversion I t (planesCopyError t) (planesToCfa p t)) (hsizes : CfaSizes s) (hrow : ¬untyped (s.slot 0))
    (hfit : BuffersFit s [s.slot 0] (planesOf rasterPhases s)) (hapart : BuffersApart s [s.slot 0] (planesOf rasterPhases s))
    (hnext : exec F s = .next t) (hfit' : BuffersFit { t with outBase := bases } (firstSlots t 4) (cfaOf rasterPhases t))
    (hapart' : BuffersApart { t with outBase := bases } (firstSlots t 4) (cfaOf rasterPhases t)) :
    ∃ u, exec I { t with outBase := bases } = .next u ∧ doneFlag u.status = true ∧ CopiedImage s u
      ∧ (LegalSamples s 1 ∨ (s.slot 0).isFloat = true ∨ Config.layoutKeepsIllegalSamples = true → SameImage s u 1) := by
  have htyped := typed_iff.2 hrow
  rw [cfaCopyError_eq_none.2 ⟨hsizes, htyped⟩] at hF
  have hplanes := hF.convertsTo (cfaToPlanes_makes htyped rfl) ((buffersFit_congr (extent_planesOf s p)).1 hfit)
    ((buffersApart_congr (extent_planesOf s p)).1 hapart)
  have h := (leavesImage_of_convertsTo hplanes hnext).withBases bases
  have hI := hI { t with outBase := bases }
  rw [planesCopyError_planes h hsizes htyped] at hI
  have hconverts := hI.convertsTo
    (planesToCfa_makes (equalFormats_planes h) ((typed_congr (planes_type h)).trans htyped) rfl)
    ((buffersFit_congr (extent_cfaOf _ p)).1 hfit') ((buffersApart_congr (extent_cfaOf _ p)).1 hapart')
  rw [cfaOf_phaseList] at hconverts
  obtain ⟨hcount, -, -, hweven, hheven⟩ := hsizes
  have hfirst := holdsComp_plane h (n := 0) rfl
  have hw : 2 * (t.slot 0).width = (s.slot 0).width := (congrArg (2 * ·) hfirst.width).trans (by simp only [copied]; omega)
  have hh : 2 * (t.slot 0).height = (s.slot 0).height := (congrArg (2 * ·) hfirst.height).trans (by simp only [copied]; omega)
  refine copies_back hconverts hcount hw hh (typed_depth htyped).1 (planes_type h) ?_
  have hback := scatter_planes h hp hweven hheven
  rwa [← hw, ← hh] at hback

/-! ### A 4:2:2 image (rules R257 to R259) -/

theorem image422_phaseList (s : State) {a : Nat} {p : Positions} (hp : phaseList p = phasesOf a) : image422 a s =
    [copied s (s.slot 0).width ((s.slot 0).height / 2) 1
        (fun x j => if x % 2 = 0 then cellAt (inSample s 0) p.g (x / 2) j else cellAt (inSample s 0) p.k (x / 2) j),
      copied s ((s.slot 0).width / 2) ((s.slot 0).height / 2) 2 (cellAt (inSample s 0) p.r),
      copied s ((s.slot 0).width / 2) ((s.slot 0).height / 2) 2 (cellAt (inSample s 0) p.b)] := by
  rw [image422_eq s hp]
  simp only [cfaTo422, List.map_cons, List.map_nil, compOf_copyOutput]

theorem cfaOf422_phaseList (s : State) {a : Nat} {p : Positions} (hp : phaseList p = phasesOf a) : cfaOf422 a s =
    [copied s (s.slot 0).width (2 * (s.slot 0).height) 1
      (scatter p (inSample s 1) (fun i j => inSample s 0 (2 * i) j) (fun i j => inSample s 0 (2 * i + 1) j) (inSample s 2))] := by
  rw [cfaOf422_eq s hp]
  simp only [cfaFrom422, List.map_cons, List.map_nil, compOf_copyOutput]

section
variable {s t : State} {a : Nat} {p : Positions} (hp : phaseList p = phasesOf a) (h : LeavesImage s t (image422 a s))
include hp h

/-- The greens side by side. -/
theorem holdsComp_greens : HoldsComp t.mem (t.slot 0) (copied s (s.slot 0).width ((s.slot 0).height / 2) 1
    (fun x j => if x % 2 = 0 then cellAt (inSample s 0) p.g (x / 2) j else cellAt (inSample s 0) p.k (x / 2) j)) :=
  h.holds.comp 0 _ (by rw [image422_phaseList s hp]; rfl)

theorem holdsComp_red : HoldsComp t.mem (t.slot 1)
    (copied s ((s.slot 0).width / 2) ((s.slot 0).height / 2) 2 (cellAt (inSample s 0) p.r)) :=
  h.holds.comp 1 _ (by rw [image422_phaseList s hp]; rfl)

theorem holdsComp_blue : HoldsComp t.mem (t.slot 2)
    (copied s ((s.slot 0).width / 2) ((s.slot 0).height / 2) 2 (cellAt (inSample s 0) p.b)) :=
  h.holds.comp 2 _ (by rw [image422_phaseList s hp]; rfl)

/-- The components have the type of the CFA image. -/
theorem image422_type : (t.slot 0).depth = (s.slot 0).depth ∧ (t.slot 0).signed = (s.slot 0).signed
    ∧ (t.slot 0).isFloat = (s.slot 0).isFloat := by
  have hgreens := holdsComp_greens hp h
  exact ⟨hgreens.depth, hgreens.signed, hgreens.float⟩

theorem equalFormats_image422 : EqualFormats t 3 := by
  have hgreens := holdsComp_greens hp h
  have hred := holdsComp_red hp h
  have hblue := holdsComp_blue hp h
  exact forall_lt_three.2 ⟨⟨rfl, rfl, rfl⟩,
    ⟨hred.depth.trans hgreens.depth.symm, hred.signed.trans hgreens.signed.symm, hred.float.trans hgreens.float.symm⟩,
    ⟨hblue.depth.trans hgreens.depth.symm, hblue.signed.trans hgreens.signed.symm, hblue.float.trans hgreens.float.symm⟩⟩

theorem shape422_image422 (hsizes : CfaSizes s) : Shape422 t := by
  have hgreens := holdsComp_greens hp h
  have hred := holdsComp_red hp h
  have hblue := holdsComp_blue hp h
  have hwidth : (t.slot 0).width = (s.slot 0).width := hgreens.width
  have hheight : (t.slot 0).height = (s.slot 0).height / 2 := hgreens.height
  obtain ⟨-, hw, hh, hweven, hheven⟩ := hsizes
  have hsubs := h.subs
  rw [image422_phaseList s hp] at hsubs
  simp only [forall_getElem?_cons, forall_getElem?_nil, and_true] at hsubs
  obtain ⟨⟨hsubX0, hsubY0⟩, ⟨hsubX1, hsubY1⟩, hsubX2, hsubY2⟩ := hsubs
  refine ⟨h.holds.count, by omega, by omega, by omega, forall_lt_three.2 ⟨(absurd rfl ·), fun _ => ?red, fun _ => ?blue⟩, hsubX0,
    hsubY0⟩
  case red => exact ⟨hred.width.trans (congrArg (· / 2) hwidth.symm), hred.height.trans hheight.symm, hsubX1, hsubY1⟩
  case blue => exact ⟨hblue.width.trans (congrArg (· / 2) hwidth.symm), hblue.height.trans hheight.symm, hsubX2, hsubY2⟩

/-- Each sample comes back to the position it was taken from, the greens from the even and the odd places of the luma. -/
theorem scatter_image422 (hp' : Tiles p) (hweven : (s.slot 0).width % 2 = 0) (hheven : (s.slot 0).height % 2 = 0) :
    AgreeOn (s.slot 0).width (s.slot 0).height
      (scatter p (inSample t 1) (fun i j => inSample t 0 (2 * i) j) (fun i j => inSample t 0 (2 * i + 1) j) (inSample t 2))
      (copiedPlane s) := by
  intro x y hxy
  have hcell : Within ((s.slot 0).width / 2) ((s.slot 0).height / 2) (x / 2) (y / 2) := by omega
  refine scatter_of_cells hp' ((holdsComp_red hp h).sample _ _ hcell) ?_ ?_ ((holdsComp_blue hp h).sample _ _ hcell)
  · refine ((holdsComp_greens hp h).sample (2 * (x / 2)) (y / 2) (by simp only [copied]; omega)).trans ?_
    simp only [copied, if_pos (show 2 * (x / 2) % 2 = 0 by omega), show 2 * (x / 2) / 2 = x / 2 by omega]
    rfl
  · refine ((holdsComp_greens hp h).sample (2 * (x / 2) + 1) (y / 2) (by simp only [copied]; omega)).trans ?_
    simp only [copied, if_neg (show ¬(2 * (x / 2) + 1) % 2 = 0 by omega), show (2 * (x / 2) + 1) / 2 = x / 2 by omega]
    rfl

end

/-! ### The obligations -/

/-- Settles O59: the trip with the positions of raster order, and with those of the arrangement. -/
theorem planesRoundTrip : Obligations.PlanesRoundTrip := by
  intro a s t bases F I ha hpair
  simp only [List.mem_cons, List.not_mem_nil, or_false, Prod.mk.injEq] at hpair
  rcases hpair with ⟨rfl, rfl⟩ | ⟨rfl, rfl⟩
  · exact planesRoundTrip_of_tiles tiles_rasterOrder (runsConversion_c2p s) runsConversion_p2c
  · obtain ⟨arr, harr, -⟩ := exists_arrangement ha
    exact planesRoundTrip_of_tiles (tiles_pos arr) ((runsArranged_c2ps a s).runsConversion harr)
      fun t => (runsArranged_p2cs a t).runsConversion harr

/-- Settles O60: what C2Y leaves is an image Y2C accepts, and its greens, red and blue go back to their positions. -/
theorem layout422RoundTrip : Obligations.Layout422RoundTrip := by
  intro a s t bases ha hsizes hrow hfit hapart hexec hfit' hapart'
  obtain ⟨arr, -, hp⟩ := exists_arrangement ha
  have h := (leavesImage_of_convertsTo (c2yConverts a s ha hsizes hrow hfit hapart) hexec).withBases bases
  have htyped := typed_iff.2 hrow
  have htyped' := (typed_congr (image422_type hp h)).trans htyped
  have hconverts := y2cConverts a _ ha (shape422_image422 hp h hsizes) (equalFormats_image422 hp h) (typed_iff.1 htyped')
    hfit' hapart'
  rw [cfaOf422_phaseList _ hp] at hconverts
  obtain ⟨hcount, -, -, hweven, hheven⟩ := hsizes
  have hgreens := holdsComp_greens hp h
  have hw : (t.slot 0).width = (s.slot 0).width := hgreens.width
  have hh : 2 * (t.slot 0).height = (s.slot 0).height := (congrArg (2 * ·) hgreens.height).trans (by simp only [copied]; omega)
  refine copies_back hconverts hcount hw hh (typed_depth htyped).1 (image422_type hp h) ?_
  have hback := scatter_image422 hp h (tiles_pos arr) hweven hheven
  rwa [← hw, ← hh] at hback

end Sys2Proof.Proofs

/-!
The ten planar lifting commands (`spec/44_lifting_planar.md` rules R183 to R200) on an input that passes their checks: a family at a
time, for any cell arithmetic, and then with the arithmetic of each command.
-/

namespace Sys2Proof.Proofs

open Sys2Proof Sys2Proof.Machine Sys2Proof.Laws Sys2Proof.Claims

/-! ### Commands on planes of one size (rule R183) -/

section
variable {i : Instr} {s : State} {m : Nat} {c : Conversion} {outs : List Comp} {imgW imgH : Nat}

/-- A forward command on `m` planes that pass V2 to V6. -/
theorem RunsForward.convertsTo (hexec : RunsForward i m s c) (hm : 0 < m) (hin : ForwardInput s m)
    (hmakes : (∀ d ∈ firstSlots s m, typed d = true) → (s.slot 0).depth ≤ 31 → Makes c (firstSlots s m) outs imgW imgH)
    (hfit : BuffersFit s (firstSlots s m) outs) (hapart : BuffersApart s (firstSlots s m) outs) :
    ConvertsTo i s outs imgW imgH := by
  obtain ⟨hsizes, hformats, hdepth⟩ := hin
  exact hexec.forward_convertsTo ((sameSizes_iff hm).1 hsizes) rfl hm hformats hdepth hmakes hfit hapart

/-- An inverse command on `m` planes that pass V2 to V6. -/
theorem RunsInverse.convertsTo (hexec : RunsInverse i m s c) (hm : 1 < m) (hin : InverseInput s m)
    (hmakes : (∀ d ∈ firstSlots s m, typed d = true) → Makes c (firstSlots s m) outs imgW imgH)
    (hfit : BuffersFit s (firstSlots s m) outs) (hapart : BuffersApart s (firstSlots s m) outs) :
    ConvertsTo i s outs imgW imgH := by
  obtain ⟨hsizes, htypes⟩ := hin
  exact hexec.inverse_convertsTo ((sameSizes_iff (Nat.zero_lt_of_lt hm)).1 hsizes) rfl hm htypes hmakes hfit hapart

end

/-! ### The four families, for any cell arithmetic -/

section
variable {i : Instr} {s : State} {outs : List Comp} {f : Int → Int → Int → Ycc} {g : Int → Int → Int → Rgb}

theorem forward3_convertsTo (hexec : RunsForward i 3 s (forward3 f s)) (houts : outs = forward3Outs s f) (hin : ForwardInput s 3)
    (hfit : BuffersFit s (firstSlots s 3) outs) (hapart : BuffersApart s (firstSlots s 3) outs) :
    ConvertsTo i s outs (s.slot 0).width (s.slot 0).height := by
  subst houts
  exact RunsForward.convertsTo hexec (by decide) hin (fun htyped hdepth => forward3_makes htyped hdepth f) hfit hapart

theorem forward4_convertsTo (hexec : RunsForward i 4 s (forward4 f s)) (houts : outs = forward4Outs s f) (hin : ForwardInput s 4)
    (hfit : BuffersFit s (firstSlots s 4) outs) (hapart : BuffersApart s (firstSlots s 4) outs) :
    ConvertsTo i s outs (s.slot 0).width (s.slot 0).height := by
  subst houts
  exact RunsForward.convertsTo hexec (by decide) hin (fun htyped hdepth => forward4_makes htyped hdepth f) hfit hapart

theorem inverse3_convertsTo (hexec : RunsInverse i 3 s (inverse3 g s)) (houts : outs = inverse3Outs s g) (hin : InverseInput s 3)
    (hfit : BuffersFit s (firstSlots s 3) outs) (hapart : BuffersApart s (firstSlots s 3) outs) :
    ConvertsTo i s outs (s.slot 0).width (s.slot 0).height := by
  subst houts
  exact RunsInverse.convertsTo hexec (by decide) hin (fun htyped => inverse3_makes htyped g) hfit hapart

theorem inverse4_convertsTo (hexec : RunsInverse i 4 s (inverse4 g s)) (houts : outs = inverse4Outs s g) (hin : InverseInput s 4)
    (hfit : BuffersFit s (firstSlots s 4) outs) (hapart : BuffersApart s (firstSlots s 4) outs) :
    ConvertsTo i s outs (s.slot 0).width (s.slot 0).height := by
  subst houts
  exact RunsInverse.convertsTo hexec (by decide) hin (fun htyped => inverse4_makes htyped g) hfit hapart

end

/-! ### The obligations -/

/-- Settles O33: the forward family on three planes with the RCT cell. -/
theorem rctForwardConverts : Obligations.RctForwardConverts := fun s =>
  forward3_convertsTo (runsConversion_rctF s) (rctOuts_eq s)

/-- Settles O34: the inverse family on three planes with the RCT cell. -/
theorem rctInverseConverts : Obligations.RctInverseConverts := fun s =>
  inverse3_convertsTo (runsConversion_rctI s) (rctBack_eq s)

/-- Settles O35: the forward family on four planes, with the RCT cell on the green average. -/
theorem rctdForwardConverts : Obligations.RctdForwardConverts := fun s =>
  forward4_convertsTo (runsConversion_rctdF s) (rctdOuts_eq s)

/-- Settles O36: the inverse family on four planes, with the RCT cell giving the green average. -/
theorem rctdInverseConverts : Obligations.RctdInverseConverts := fun s =>
  inverse4_convertsTo (runsConversion_rctdI s) (rctdBack_eq s)

/-- Settles O37: the forward family on three planes with the YCgCo cell. -/
theorem ycgcoForwardConverts : Obligations.YcgcoForwardConverts := fun s =>
  forward3_convertsTo (runsConversion_ycgcoF s) (ycgcoOuts_eq s)

/-- Settles O38: the inverse family on three planes with the YCgCo cell. -/
theorem ycgcoInverseConverts : Obligations.YcgcoInverseConverts := fun s =>
  inverse3_convertsTo (runsConversion_ycgcoI s) (ycgcoBack_eq s)

/-- Settles O39: the forward family on four planes, with the YCgCo cell on the green average. -/
theorem ycgcodForwardConverts : Obligations.YcgcodForwardConverts := fun s =>
  forward4_convertsTo (runsConversion_ycgcodF s) (ycgcodOuts_eq s)

/-- Settles O40: the inverse family on four planes, with the YCgCo cell giving the green average. -/
theorem ycgcodInverseConverts : Obligations.YcgcodInverseConverts := fun s =>
  inverse4_convertsTo (runsConversion_ycgcodI s) (ycgcodBack_eq s)

/-- Settles O41: a forward command whose sizes and subsampling are those of a 4:2:2 image. -/
theorem rct422ForwardConverts : Obligations.Rct422ForwardConverts := by
  intro s hshape hformats hdepth
  obtain ⟨hsizes, hsubs⟩ := shape422_iff.1 hshape
  exact (runsConversion_rct422F s).forward_convertsTo (planarSizes422_iff.1 hsizes) (planarSubs422_iff.1 hsubs) (by decide)
    hformats hdepth forward422_makes

/-- Settles O42: an inverse command whose sizes and subsampling are those of a 4:2:2 image. -/
theorem rct422InverseConverts : Obligations.Rct422InverseConverts := by
  intro s hshape htypes
  obtain ⟨hsizes, hsubs⟩ := shape422_iff.1 hshape
  exact (runsConversion_rct422I s).inverse_convertsTo (planarSizes422_iff.1 hsizes) (planarSubs422_iff.1 hsubs) (by decide)
    htypes inverse422_makes

end Sys2Proof.Proofs

/-!
One pass of a CFA-grid transform on its own (`spec/45_lifting_cfa.md` rules R222, R223, R226), where only the samples of the component
are known to be signed `m`-bit values: the plane is replaced by its working plane, which is signed everywhere and agrees with it there.
-/

namespace Sys2Proof.Proofs

open Sys2Proof Sys2Proof.Machine Sys2Proof.Laws Sys2Proof.Claims

section
variable {w h m : Nat} {p : Phase} {nb : Plane → Plane} {sg bias : Int} {sh : Nat} {P Q : Plane} {x y : Int}

theorem lift_at_phase (hphase : phaseOf x y = p) :
    lift m P p nb sg bias sh x y = ww m (P x y + sg * asr (nb P x y + bias) sh) := if_pos hphase

theorem lift_off_phase (hphase : phaseOf x y ≠ p) : lift m P p nb sg bias sh x y = P x y := if_neg hphase

/-- Each neighbour sum of rule R223 reads only positions of another phase: a diagonal neighbour differs from the position in both
parities, one of a pair in one of them. -/
theorem neighbourSum_readsOtherPhases (hw : 2 ≤ w) (hh : 2 ≤ h) (p : Phase)
    (hnb : nb = diag w h ∨ nb = pair w h true ∨ nb = pair w h false) : ReadsOtherPhases w h p nb := by
  rcases hnb with rfl | rfl | rfl
  · exact diag_readsOtherPhases hw hh p
  · exact pair_readsOtherPhases hw hh true p
  · exact pair_readsOtherPhases hw hh false p

/-- A pass does not look outside the component. -/
theorem lift_agreeOn (hnb : ReadsOtherPhases w h p nb) (hPQ : AgreeOn w h P Q) :
    AgreeOn w h (lift m P p nb sg bias sh) (lift m Q p nb sg bias sh) := by
  intro x y hxy
  by_cases hphase : phaseOf x y = p
  · have hsum : nb P x y = nb Q x y := hnb P Q (fun u v huv _ => hPQ u v huv) x y hxy hphase
    rw [lift_at_phase hphase, lift_at_phase hphase, hPQ x y hxy, hsum]
  · rw [lift_off_phase hphase, lift_off_phase hphase, hPQ x y hxy]

theorem workingPlane_agreeOn (hm : 1 ≤ m) (hP : ∀ x y, Within w h x y → legal true m (P x y)) : AgreeOn w h P (workingPlane m P) :=
  fun x y hxy => (ww_of_signed hm (hP x y hxy)).symm

/-- The pass of the opposite sign gives back a plane that is known to be signed on the component only. -/
theorem lift_neg_lift (hnb : ReadsOtherPhases w h p nb) (hm : 1 ≤ m) (hP : ∀ x y, Within w h x y → legal true m (P x y)) :
    AgreeOn w h (lift m (lift m P p nb sg bias sh) p nb (-sg) bias sh) P := by
  have hagree : AgreeOn w h P (workingPlane m P) := workingPlane_agreeOn hm hP
  have hback : AgreeOn w h (lift m (lift m P p nb sg bias sh) p nb (-sg) bias sh) (workingPlane m P) :=
    lift_undoes hnb hm (signedPlane_ww hm P) rfl (lift_agreeOn hnb hagree)
  exact fun x y hxy => (hback x y hxy).trans (hagree x y hxy).symm

end

/-- Settles O47: the two equations of a pass, and from what its neighbour sum reads, that the opposite pass undoes it. -/
theorem liftPassInverts : Obligations.LiftPassInverts := by
  intro W H m P p sg bias sh nb hW hH _ _ hm hnb hP x y hx0 hxW hy0 hyH
  obtain ⟨w, rfl⟩ := Int.eq_ofNat_of_zero_le (zero_le_two.trans hW)
  obtain ⟨h, rfl⟩ := Int.eq_ofNat_of_zero_le (zero_le_two.trans hH)
  have hreads : ReadsOtherPhases w h p nb := neighbourSum_readsOtherPhases (Nat.ofNat_le_cast.1 hW) (Nat.ofNat_le_cast.1 hH) p hnb
  have hxy : Within w h x y := ⟨⟨hx0, hxW⟩, hy0, hyH⟩
  have hsigned : ∀ u v, Within w h u v → legal true m (P u v) := fun u v ⟨⟨hu0, huW⟩, hv0, hvH⟩ => hP u v hu0 huW hv0 hvH
  exact ⟨lift_neg_lift hreads hm hsigned x y hxy, lift_at_phase, lift_off_phase,
    fun hphase Q hQ => hreads Q P (fun u v _ hother => hQ u v hother) x y hxy hphase⟩

end Sys2Proof.Proofs

/-!
The two layout commands whose positions are those of raster order (`spec/46_layout.md` rules R252, R255): they have no arrangement code,
so class V1 does not apply, and `rasterOrder` stands where C2PS and P2CS take the positions from the table's row.
-/

namespace Sys2Proof.Proofs

open Sys2Proof Sys2Proof.Machine Sys2Proof.Laws Sys2Proof.Claims

/-- Four planes of one size, one format and no subsampling, with an element type, pass V2 to V5 of P2C (rule R255). -/
theorem planesCopyError_none_of_equalPlanes {s : State} (hsizes : EqualSizes s 4) (hformats : EqualFormats s 4)
    (hsubs : ∀ c < 4, (s.slot c).subX = 1 ∧ (s.slot c).subY = 1) (htyped : typed (s.slot 0) = true) : planesCopyError s = none := by
  rw [planesCopyError_eq, if_pos (equalSizes_iff.1 hsizes), if_pos (planeFormats_iff.1 ⟨hformats, hsubs⟩), if_pos htyped]

/-- Settles O27: the outputs are the four phases of the cells in raster order. -/
theorem c2pConverts : Obligations.C2pConverts := by
  intro s hsizes hrow
  have htyped : typed (s.slot 0) = true := typed_iff.2 hrow
  have hrun : RunsConversion .c2p s none (cfaToPlanes rasterOrder s) :=
    cfaCopyError_eq_none.2 ⟨hsizes, htyped⟩ ▸ runsConversion_c2p s
  exact hrun.convertsTo (cfaToPlanes_makes htyped phaseList_rasterOrder)

/-- Settles O29: the output is the plane with the four inputs at the phases of raster order. -/
theorem p2cConverts : Obligations.P2cConverts := by
  intro s hsizes hformats hsubs hrow
  have htyped : typed (s.slot 0) = true := typed_iff.2 hrow
  have hrun : RunsConversion .p2c s none (planesToCfa rasterOrder s) :=
    planesCopyError_none_of_equalPlanes hsizes hformats hsubs htyped ▸ runsConversion_p2c s
  exact hrun.convertsTo (planesToCfa_makes hformats htyped phaseList_rasterOrder)

end Sys2Proof.Proofs

/-!
What outlasts a step (`spec/60_exceptions.md` rules R290 to R295, `spec/70_reset_and_hazards.md` rules R310 and R311): a recorded error
keeps fitting the word that recorded it, an ignored word leaves no trace, and reset leaves nothing but MEM.
-/

namespace Sys2Proof.Proofs

open Sys2Proof Sys2Proof.Machine Sys2Proof.Laws Sys2Proof.Claims

/-! ### When a recorded error fits its command (rule R295) -/

theorem recordedErrorFits_of_ok {s : State} {i : Instr} {e : ErrorKind} (hdecode : decodeWord s.errinfo = .ok i)
    (he : e ∈ mayRaise i) (herr : s.err = e.code) : recordedErrorFits s := by
  rw [recordedErrorFits, hdecode]
  exact ⟨e, he, herr⟩

theorem recordedErrorFits_of_error {s : State} {d : DecodeError} (hdecode : decodeWord s.errinfo = .error d)
    (herr : s.err = ErrorKind.illegalCommand.code) : recordedErrorFits s := by
  rw [recordedErrorFits, hdecode]
  exact herr

theorem recordsFittingErrors_of_clear {s : State} (hclear : errFlag s.status = false) : recordsFittingErrors s :=
  fun hflag => absurd hflag (by simp [hclear])

/-- Only the flag, `ERR` and `ERRINFO` matter. -/
theorem recordsFittingErrors_congr {s t : State} (hflag : errFlag t.status = errFlag s.status) (herr : t.err = s.err)
    (hinfo : t.errinfo = s.errinfo) (h : recordsFittingErrors s) : recordsFittingErrors t := by
  unfold recordsFittingErrors recordedErrorFits
  rw [hflag, herr, hinfo]
  exact h

/-! ### Each thing a step can do (rules R31, R100, R310) -/

/-- A command records its own word with an error of its row, clears what is recorded, or leaves it as it was. -/
theorem recordsFittingErrors_exec {w : Word} {i : Instr} {s t : State} (h : recordsFittingErrors s)
    (hdecode : decodeWord w = .ok i) (ht : exec i s = .next t) : recordsFittingErrors t := by
  by_cases hi : i = .errclr
  · subst hi
    cases ht
    exact recordsFittingErrors_of_clear (errFlag_statusCleared _)
  · rcases exec_ends hi s with ⟨e, he, hexec⟩ | ⟨u, heffect, hexec⟩
    · cases hexec.symm.trans ht
      obtain ⟨-, hencode⟩ := encodeInvertsDecode w i hdecode
      have hinfo : decodeWord (raised e (encode i) s).errinfo = .ok i := by rw [raised_errinfo, hencode, hdecode]
      exact fun _ => recordedErrorFits_of_ok hinfo he rfl
    · cases hexec.symm.trans ht
      have hflag : errFlag (complete u).status = errFlag s.status := by
        rw [complete_status, errFlag_statusDone, heffect.status]
      exact recordsFittingErrors_congr hflag heffect.err heffect.errinfo h

theorem recordsFittingErrors_issue {w : Word} {s t : State} (h : recordsFittingErrors s) (ht : issue w s = .next t) :
    recordsFittingErrors t := by
  rcases issue_cases (w := w) (s := s) with ⟨-, -, hignored⟩ | ⟨-, ⟨i, hi, hrun⟩ | ⟨d, hd, hraised⟩⟩
  · cases hignored.symm.trans ht
    exact h
  · exact recordsFittingErrors_exec h hi (hrun.symm.trans ht)
  · cases hraised.symm.trans ht
    exact fun _ => recordedErrorFits_of_error hd rfl

/-- The host cannot write a register of the error unit (rule R54). -/
theorem writeReg_errorRegisters (s : State) (v : Int) (r : Reg) :
    (writeReg s v r).status = s.status ∧ (writeReg s v r).err = s.err ∧ (writeReg s v r).errinfo = s.errinfo := by
  cases r <;> exact ⟨rfl, rfl, rfl⟩

theorem recordsFittingErrors_regWrite {s : State} (h : recordsFittingErrors s) (num : Nat) (v : Int) :
    recordsFittingErrors (regWrite s num v) := by
  rcases regWrite_cases s num v with hsame | ⟨r, hwrite⟩
  · rwa [hsame]
  · obtain ⟨hstatus, herr, hinfo⟩ := writeReg_errorRegisters s v r
    rw [hwrite]
    exact recordsFittingErrors_congr (congrArg errFlag hstatus) herr hinfo h

theorem recordsFittingErrors_resetBlock (s : State) : recordsFittingErrors (resetBlock s) :=
  recordsFittingErrors_of_clear (by simp [errFlag])

/-! ### Reset at the host's hand (rule R310) -/

theorem step_reset {s : State} {rest : List HostAction} (h : s.host = .reset :: rest) :
    step s = .next (resetBlock { s with host := rest }) := step_action h

/-- The host's list and its replies, which reset keeps, are behind no register number. -/
theorem regRead_resetBlock (s : State) (num : Nat) : regRead (resetBlock s) num = 0 :=
  resetRegistersReadZero s.memLast s.mem num

/-! ### The obligations -/

/-- Settles O5: one case for each thing a step can do; only a write of `CMD` and reset touch what is recorded. -/
theorem stepRecordsFittingErrors : Obligations.StepRecordsFittingErrors := by
  intro s t h ht
  rcases step_cases ht with ⟨-, rfl⟩ | ⟨num, rest, -, rfl⟩ | ⟨num, v, rest, -, -, rfl⟩ | ⟨v, rest, -, hissue⟩
    | ⟨a, k, rest, -, -, rfl⟩ | ⟨a, k, v, rest, -, -, rfl⟩ | ⟨rest, -, rfl⟩
  · exact h
  · exact h
  · exact recordsFittingErrors_regWrite (s := { s with host := rest }) h num v
  · exact recordsFittingErrors_issue (s := { s with host := rest }) h hissue
  · exact h
  · exact h
  · exact recordsFittingErrors_resetBlock { s with host := rest }

/-- Settles O11: only the write of `CMD` looks at the flag; the other accesses step as they do in every state. -/
theorem commandsIgnoredWhileErrorRecorded : Obligations.CommandsIgnoredWhileErrorRecorded := by
  intro s rest herr
  exact ⟨fun _ hhost hw => step_cmd_ignored hhost herr hw, fun _ _ => step_regWrite, fun _ => step_regRead,
    fun _ _ hhost hk hfit => step_memRead hhost (hostInMem_iff.2 ⟨hk, hfit⟩),
    fun _ _ _ hhost hk hfit => step_memWrite hhost (hostInMem_iff.2 ⟨hk, hfit⟩)⟩

/-- Settles O2: the registers read as after any reset, and MEM, its size and the host's own fields are carried over. -/
theorem hostResetClearsRegisters : Obligations.HostResetClearsRegisters := by
  intro s rest hhost
  exact ⟨_, step_reset hhost, regRead_resetBlock _, fun _ => rfl, rfl, rfl, rfl⟩

end Sys2Proof.Proofs
